-- ==== Sys2Proof/Word.lean ====
section
/-! DEFINITION. The machine word of the Chorus CORE and the packet made of it. -/

namespace Sys2Proof

/-- A word: 32 bits, bit 0 the least significant (`00_scope.md` R13). -/
abbrev Word := BitVec 32

/-- An unsigned 8-bit field or one byte of a serialising transport (`30_encoding.md` R72, `20_memory.md` R55). -/
abbrev Byte := BitVec 8

/-- A packet: a finite sequence of words whose boundaries the port marks (`30_encoding.md` R71, R84).
The empty list is the packet that check (a) of R78 refuses. -/
abbrev Packet := List Word

end Sys2Proof
end

