-- ==== Sys2Proof/Syntax.lean ====
section
/-! DEFINITION. The two command ports and the ten commands, one constructor per row of `opcode_table.json`. -/

namespace Sys2Proof

/-- The two packet ports (`00_scope.md` R11, R18; `30_encoding.md` R77): the control port and the audio port. -/
inductive Port where
  /-- CP, the control port. -/
  | cp
  /-- AP, the audio port. -/
  | ap
deriving DecidableEq, Repr, Inhabited

/-- The ten commands with their decoded fields (`30_encoding.md` R70, R73, R74). An operand word is kept as the
32 bits the packet carries: whether it is read as f32 or as s32 is the command's business (R75). -/
inductive Instr where
  /-- NOP (`45_engine_commands.md` R191). -/
  | nop
  /-- PREPARE `sampleRate` (f32), `maxBlockSize` (s32) (`45_engine_commands.md` R193). -/
  | prepare (sampleRate maxBlockSize : Word)
  /-- RESET (`45_engine_commands.md` R195). -/
  | reset
  /-- SETP `id` (ARG), `value` (f32) (`41_parameter_commands.md` R131). -/
  | setp (id : Byte) (value : Word)
  /-- GETP `id` (ARG) (`41_parameter_commands.md` R132). -/
  | getp (id : Byte)
  /-- SETST `mask` (ARG) and the five values (f32) (`41_parameter_commands.md` R133). -/
  | setst (mask : Byte) (v0 v1 v2 v3 v4 : Word)
  /-- GETST (`41_parameter_commands.md` R134). -/
  | getst
  /-- STAT (`45_engine_commands.md` R192). -/
  | stat
  /-- BEGIN `numChannels` (ARG), `numSamples` (s32) (`45_engine_commands.md` R196). -/
  | begin (numChannels : Byte) (numSamples : Word)
  /-- FRAME with the sample (f32) of each channel; ARG is the number of samples (`45_engine_commands.md` R198). -/
  | frame (samples : List Word)
deriving DecidableEq, Repr

end Sys2Proof
end

