-- ==== Sys2Proof/WellFormed.lean ====
section
/-! DEFINITION. Which terms of `Instr` are command values, that is, have an encoding. -/

namespace Sys2Proof

/-- The number of samples of a FRAME must fit the 8-bit ARG that carries it (`30_encoding.md` R72, R73). -/
def sampleCountFits (samples : List Word) : Bool := samples.length ≤ 255

/-- A command value that an encoding exists for. Every other field is a whole word or a whole byte and takes all
its values (`30_encoding.md` R75), so FRAME's sample count is the only check. -/
def Instr.wf : Instr → Bool
  | .nop => true
  | .prepare _ _ => true
  | .reset => true
  | .setp _ _ => true
  | .getp _ => true
  | .setst _ _ _ _ _ _ => true
  | .getst => true
  | .stat => true
  | .begin _ _ => true
  | .frame samples => sampleCountFits samples

end Sys2Proof
end

