-- ==== Sys2Proof/Decode.lean ====
section
/-! DEFINITION. The command encoding of `30_encoding.md`: header fields, the total decoder, the encoder, and the
words of `opcode_table.json` as packets. -/

namespace Sys2Proof

/-- The ten opcodes (`30_encoding.md` R70). -/
inductive Opcode where
  | nop | prepare | reset | setp | getp | setst | getst | stat | begin | frame
deriving DecidableEq, Repr

/-- Why a packet is illegal: the sub-checks (a) to (f) of `30_encoding.md` R78, in their order. -/
inductive Illegal where
  /-- (a) the packet is empty. -/
  | emptyPacket
  /-- (b) header bits 31:16 are not 0. -/
  | reservedHeaderBits
  /-- (c) the opcode is none of the ten. -/
  | reservedOpcode
  /-- (d) the packet arrived on a port that is not a home port of the opcode. -/
  | wrongPort
  /-- (e) the number of operand words is not `NOPS(OPC, ARG)`. -/
  | operandCount
  /-- (f) ARG is not 0 for a command whose ARG must be 0. -/
  | argumentNotZero
deriving DecidableEq, Repr

/-- `OPC = H[7:0]` (`30_encoding.md` R72). -/
def opcField (h : Word) : Byte := h.extractLsb' 0 8

/-- `ARG = H[15:8]` (`30_encoding.md` R72). -/
def argField (h : Word) : Byte := h.extractLsb' 8 8

/-- `RSV = H[31:16]` (`30_encoding.md` R72). -/
def rsvField (h : Word) : BitVec 16 := h.extractLsb' 16 16

/-- The opcode byte of each command (`30_encoding.md` R70). -/
def Opcode.byte : Opcode → Byte
  | .nop => 0x00
  | .prepare => 0x01
  | .reset => 0x02
  | .setp => 0x03
  | .getp => 0x04
  | .setst => 0x05
  | .getst => 0x06
  | .stat => 0x07
  | .begin => 0x10
  | .frame => 0x11

/-- The command an opcode byte names; 0x08..0x0F and 0x12..0xFF are reserved (`30_encoding.md` R70, R78, R79). -/
def opcodeOfByte (b : Byte) : Option Opcode :=
  if b = 0x00 then some .nop
  else if b = 0x01 then some .prepare
  else if b = 0x02 then some .reset
  else if b = 0x03 then some .setp
  else if b = 0x04 then some .getp
  else if b = 0x05 then some .setst
  else if b = 0x06 then some .getst
  else if b = 0x07 then some .stat
  else if b = 0x10 then some .begin
  else if b = 0x11 then some .frame
  else none

/-- The ports a command is legal on (`30_encoding.md` R77; `60_exceptions.md` R236). -/
def Opcode.homePorts : Opcode → List Port
  | .nop => [.cp, .ap]
  | .prepare => [.cp]
  | .reset => [.cp]
  | .setp => [.cp]
  | .getp => [.cp]
  | .setst => [.cp]
  | .getst => [.cp]
  | .stat => [.cp, .ap]
  | .begin => [.ap]
  | .frame => [.ap]

/-- `NOPS(OPC, ARG)`, the exact number of operand words (`30_encoding.md` R73). -/
def Opcode.nops (o : Opcode) (arg : Byte) : Nat :=
  match o with
  | .nop => 0
  | .prepare => 2
  | .reset => 0
  | .setp => 1
  | .getp => 0
  | .setst => 5
  | .getst => 0
  | .stat => 0
  | .begin => 1
  | .frame => arg.toNat

/-- The commands whose ARG must be 0 (`30_encoding.md` R74, R78 (f)). -/
def Opcode.argMustBeZero : Opcode → Bool
  | .nop => true
  | .prepare => true
  | .reset => true
  | .setp => false
  | .getp => false
  | .setst => false
  | .getst => true
  | .stat => true
  | .begin => false
  | .frame => false

/-- The command of an opcode, its ARG and its operand words (`30_encoding.md` R73 to R75). A word list of another
length than R73 gives is refused under the name of check (e). -/
def assemble (o : Opcode) (arg : Byte) (ops : List Word) : Except Illegal Instr :=
  match o, ops with
  | .nop, [] => .ok .nop
  | .prepare, [sampleRate, maxBlockSize] => .ok (.prepare sampleRate maxBlockSize)
  | .reset, [] => .ok .reset
  | .setp, [value] => .ok (.setp arg value)
  | .getp, [] => .ok (.getp arg)
  | .setst, [v0, v1, v2, v3, v4] => .ok (.setst arg v0 v1 v2 v3 v4)
  | .getst, [] => .ok .getst
  | .stat, [] => .ok .stat
  | .begin, [numSamples] => .ok (.begin arg numSamples)
  | .frame, samples => .ok (.frame samples)
  | _, _ => .error .operandCount

/-- `decode(port, packet)` of `30_encoding.md` R80: one of the ten commands with its fields, or the first of the
checks (a) to (f) of R78 that fails. It reads no state of the CORE. -/
def decode (p : Port) (packet : Packet) : Except Illegal Instr :=
  match packet with
  | [] => .error .emptyPacket
  | h :: ops =>
    if rsvField h ≠ 0 then .error .reservedHeaderBits
    else
      match opcodeOfByte (opcField h) with
      | none => .error .reservedOpcode
      | some o =>
        if p ∉ o.homePorts then .error .wrongPort
        else if ops.length ≠ o.nops (argField h) then .error .operandCount
        else if o.argMustBeZero = true ∧ argField h ≠ 0 then .error .argumentNotZero
        else assemble o (argField h) ops

/-- The opcode of a command (`30_encoding.md` R70). -/
def Instr.opcode : Instr → Opcode
  | .nop => .nop
  | .prepare _ _ => .prepare
  | .reset => .reset
  | .setp _ _ => .setp
  | .getp _ => .getp
  | .setst _ _ _ _ _ _ => .setst
  | .getst => .getst
  | .stat => .stat
  | .begin _ _ => .begin
  | .frame _ => .frame

/-- The ARG byte of a command (`30_encoding.md` R74). -/
def Instr.arg : Instr → Byte
  | .nop => 0
  | .prepare _ _ => 0
  | .reset => 0
  | .setp id _ => id
  | .getp id => id
  | .setst mask _ _ _ _ _ => mask
  | .getst => 0
  | .stat => 0
  | .begin numChannels _ => numChannels
  | .frame samples => BitVec.ofNat 8 samples.length

/-- The operand words of a command (`30_encoding.md` R73). -/
def Instr.operands : Instr → List Word
  | .nop => []
  | .prepare sampleRate maxBlockSize => [sampleRate, maxBlockSize]
  | .reset => []
  | .setp _ value => [value]
  | .getp _ => []
  | .setst _ v0 v1 v2 v3 v4 => [v0, v1, v2, v3, v4]
  | .getst => []
  | .stat => []
  | .begin _ numSamples => [numSamples]
  | .frame samples => samples

/-- `H = RSV * 2^16 + ARG * 2^8 + OPC` with `RSV = 0` (`30_encoding.md` R72, R81). -/
def headerWord (o : Opcode) (arg : Byte) : Word := (0 : BitVec 16) ++ arg ++ o.byte

/-- `encode(cmd)` of `30_encoding.md` R81: the header, then the operand words of R73. -/
def encode (i : Instr) : Packet := headerWord i.opcode i.arg :: i.operands

/-- The port a command is issued on when none is named: its home port, CP for NOP and STAT (`30_encoding.md` R87). -/
def Opcode.homePort : Opcode → Port
  | .begin => .ap
  | .frame => .ap
  | .nop => .cp
  | .prepare => .cp
  | .reset => .cp
  | .setp => .cp
  | .getp => .cp
  | .setst => .cp
  | .getst => .cp
  | .stat => .cp

/-! ### A row of the opcode table as a packet

`opcode_table.json` gives a row its header word. Bit 0 is bit 0 of the header, bits 63:32 are the first operand
word, and so on; the bits above the row's own are 0, so the operand words are words of zeros. -/

/-- The `count` operand words that follow the header in the number `w`. -/
def tableOperands (w : Nat) : Nat → List Word
  | 0 => []
  | count + 1 => BitVec.ofNat 32 (w >>> 32) :: tableOperands (w >>> 32) count

/-- The port and the packet of a table word: its header and as many operand words as R73 asks for. A reserved
opcode gets no operand word and port CP (log entry 4). -/
def tablePacket (nbits w : Nat) : Port × Packet :=
  let bits := w % 2 ^ nbits
  let h := BitVec.ofNat 32 bits
  match opcodeOfByte (opcField h) with
  | some o => (o.homePort, h :: tableOperands bits (o.nops (argField h)))
  | none => (.cp, [h])

/-- The instruction the decoder reads from the table word `w` of `nbits` bits. -/
def decodeTableWord (nbits w : Nat) : Option Instr :=
  match decode (tablePacket nbits w).1 (tablePacket nbits w).2 with
  | .ok i => some i
  | .error _ => none

/-! ### The serialising transport

The CORE has no byte order. A transport outside it that serialises words into bytes sends bits 7:0 first
(`20_memory.md` R55; log entry 11); no other definition of this model uses the functions below. -/

/-- The four bytes of a word, least significant first (`20_memory.md` R55). -/
def wordBytes (w : Word) : List Byte :=
  [w.extractLsb' 0 8, w.extractLsb' 8 8, w.extractLsb' 16 8, w.extractLsb' 24 8]

/-- The bytes of a packet on a serialising transport. -/
def packetBytes : Packet → List Byte
  | [] => []
  | w :: ws => wordBytes w ++ packetBytes ws

/-- The packet a serialising transport reads from bytes; `none` where a word is cut short. -/
def packetOfBytes : List Byte → Option Packet
  | [] => some []
  | b0 :: b1 :: b2 :: b3 :: rest =>
    match packetOfBytes rest with
    | some ws => some ((b3 ++ b2 ++ b1 ++ b0 : BitVec 32) :: ws)
    | none => none
  | _ => none

end Sys2Proof
end

