-- ==== Sys2Proof/Machine/Numerics.lean ====
section
/-! DEFINITION. The arithmetic of `40_numerics.md`: IEEE 754 binary32 on 32-bit words, one rounding per operation, written
over exact integers; and the record `NUM` whose members these operations are.

Every finite binary32 value is a whole number of units of `2^-149`. An exact sum is therefore an integer number of
units, an exact product an integer over `2^149` units, an exact quotient an integer over an integer; each operation
below forms that exact value and rounds it once. -/

namespace Sys2Proof.Machine

/-! ### The format (R100) -/

/-- The sign `s = w[31]` (R100): `true` is the minus sign. -/
def signBit (w : Word) : Bool := w.getLsbD 31

/-- The biased exponent `e = w[30:23]` (R100). -/
def expField (w : Word) : Nat := (w.extractLsb' 23 8).toNat

/-- The fraction `m = w[22:0]` (R100). -/
def fracField (w : Word) : Nat := (w.extractLsb' 0 23).toNat

/-- `isnan(w)` is `w[30:23] = 255 and w[22:0] != 0` (R106). -/
def isNaN (w : Word) : Bool := expField w == 255 && fracField w != 0

/-- `isfinite(w)` is `w[30:23] != 255` (R107). -/
def isFinite (w : Word) : Bool := expField w != 255

/-- An infinity of either sign (R100). -/
def isInf (w : Word) : Bool := expField w == 255 && fracField w == 0

/-- A zero of either sign (R100). -/
def isZero (w : Word) : Bool := expField w == 0 && fracField w == 0

/-- The magnitude of a word in units of `2^-149` (R100): `m` for a zero or subnormal, `(2^23 + m) * 2^(e-1)` for a
normal value. For an infinity the same formula gives `2^128`, above every finite magnitude. -/
def magUnits (w : Word) : Nat :=
  if expField w = 0 then fracField w else (2 ^ 23 + fracField w) * 2 ^ (expField w - 1)

/-- The signed value of a non-NaN word in units of `2^-149` (R100), both zeros being 0. -/
def units (w : Word) : Int := if signBit w then -(magUnits w : Int) else (magUnits w : Int)

/-- The value 1 in units of `2^-149`. -/
def unitsPerOne : Nat := 2 ^ 149

/-- `+0` (R100). -/
def posZero : Word := 0x00000000
/-- `-0` (R100). -/
def negZero : Word := 0x80000000
/-- `+inf` (R100). -/
def posInf : Word := 0x7F800000
/-- `-inf` (R100). -/
def negInf : Word := 0xFF800000
/-- The canonical quiet NaN (R106). -/
def canonicalNaN : Word := 0x7FC00000
/-- The literal `1.0` (R15). -/
def one : Word := 0x3F800000
/-- The literal `-1.0` (R15). -/
def negOne : Word := 0xBF800000
/-- The literal `100.0` (R15). -/
def hundred : Word := 0x42C80000
/-- The literal `1000.0` (R15). -/
def thousand : Word := 0x447A0000

/-! ### Rounding (R101) -/

/-- The integer nearest to `n / d`, the even one on a tie. -/
def roundHalfEven (n d : Nat) : Nat :=
  if d < 2 * (n % d) ∨ (2 * (n % d) = d ∧ n / d % 2 = 1) then n / d + 1 else n / d

/-- How far the last fraction bit of the result lies above `2^-149` when `n / d` units are rounded: 0 below `2^24`
units, else the number of bits by which the value exceeds 24. -/
def roundShift (n d : Nat) : Nat := Nat.log2 (n / d) - 23

/-- Bits 30:0 of the binary32 value nearest to `n / d` units (R101). The significand is rounded at the result's last
place; adding it to the shifted exponent lets a carry run into the exponent field, and everything from
`2^128 - 2^103` up ends at the infinity pattern. -/
def roundMag (n d : Nat) : Nat :=
  min 0x7F800000 (roundShift n d * 2 ^ 23 + roundHalfEven n (d * 2 ^ roundShift n d))

/-- The word with a sign and bits 30:0. -/
def packSign (negative : Bool) (mag : Nat) : Word := BitVec.ofNat 32 (mag + if negative then 2 ^ 31 else 0)

/-- `RN` of the real number `n / d` units with a sign (R101): a value that rounds to zero keeps its sign. -/
def roundTo (negative : Bool) (n d : Nat) : Word := packSign negative (roundMag n d)

/-! ### The four operations (R102 to R105) -/

/-- `fadd(a, b)` (R102). -/
def fadd (a b : Word) : Word :=
  if isNaN a || isNaN b then canonicalNaN
  else if isInf a then (if isInf b && signBit a != signBit b then canonicalNaN else a)
  else if isInf b then b
  else if units a + units b = 0 then
    (if isZero a && isZero b && signBit a && signBit b then negZero else posZero)
  else roundTo (decide (units a + units b < 0)) (units a + units b).natAbs 1

/-- `neg` flips bit 31 of a non-NaN operand and maps a NaN to the canonical NaN (R103). -/
def neg (a : Word) : Word := if isNaN a then canonicalNaN else a ^^^ 0x80000000

/-- `fsub(a, b) = fadd(a, neg(b))` (R103). -/
def fsub (a b : Word) : Word := fadd a (neg b)

/-- The exclusive or of the operand signs (R104, R105). -/
def xorSign (a b : Word) : Bool := signBit a != signBit b

/-- `fmul(a, b)` (R104). -/
def fmul (a b : Word) : Word :=
  if isNaN a || isNaN b then canonicalNaN
  else if (isZero a && isInf b) || (isInf a && isZero b) then canonicalNaN
  else if isInf a || isInf b then packSign (xorSign a b) 0x7F800000
  else roundTo (xorSign a b) (magUnits a * magUnits b) unitsPerOne

/-- `fdiv(a, b)` (R105). DEDUCED (log entry 5): an infinity over a finite non-zero value is the infinity with the
exclusive-or sign; the rule's last clause covers it only by reading `RN` of an infinite quotient. -/
def fdiv (a b : Word) : Word :=
  if isNaN a || isNaN b then canonicalNaN
  else if (isZero a && isZero b) || (isInf a && isInf b) then canonicalNaN
  else if isZero b || isInf a then packSign (xorSign a b) 0x7F800000
  else if isInf b then packSign (xorSign a b) 0
  else roundTo (xorSign a b) (magUnits a * unitsPerOne) (magUnits b)

/-! ### Comparisons (R107): by value, false with a NaN -/

/-- `a < b`. -/
def flt (a b : Word) : Bool := !isNaN a && !isNaN b && decide (units a < units b)
/-- `a <= b`. -/
def fle (a b : Word) : Bool := !isNaN a && !isNaN b && decide (units a ≤ units b)
/-- `a > b`. -/
def fgt (a b : Word) : Bool := flt b a
/-- `a >= b`. -/
def fge (a b : Word) : Bool := fle b a
/-- `a == b`; `+0 == -0` is true. -/
def feq (a b : Word) : Bool := !isNaN a && !isNaN b && decide (units a = units b)

/-! ### Composite operations (R108 to R110, R115) -/

/-- `clamp(v, lo, hi)` (R108). -/
def clamp (v lo hi : Word) : Word := if fle v lo then lo else if fge v hi then hi else v

/-- `blend(w, p, q) = fadd(fmul(fsub(1.0, w), p), fmul(w, q))`, four roundings in this association (R109, R111). -/
def blend (w p q : Word) : Word := fadd (fmul (fsub one w) p) (fmul w q)

/-- `floor_int(v)` of a finite `v` (R110); `none` for an infinity or a NaN, where the rule gives no value. -/
def floorInt (v : Word) : Option Int := if isFinite v then some (units v / (unitsPerOne : Int)) else none

/-- `ceil_int(v)` of a finite `v` (R110); `none` for an infinity or a NaN, where the rule gives no value. -/
def ceilInt (v : Word) : Option Int := if isFinite v then some (-(-units v / (unitsPerOne : Int))) else none

/-- `float(n)` for `0 <= n < 2^24`, exact (R110). -/
def floatOfNat (n : Nat) : Word := roundTo false (n * unitsPerOne) 1

/-- `frac24(n) = n * 2^-24` for `0 <= n < 2^24`, exact (R110). -/
def frac24 (n : Nat) : Word := roundTo false (n * unitsPerOne) (2 ^ 24)

/-- `ms_to_samples(ms) = fdiv(fmul(ms, FS), 1000.0)`, product first (R115). -/
def msToSamples (ms fs : Word) : Word := fdiv (fmul ms fs) thousand

/-- `floor_int(q * 2^32) mod 2^32` of a finite `q` (R112 (f)): `q * 2^32` is a real number, nothing is rounded. -/
def quotientIncrement (q : Word) : BitVec 32 := BitVec.ofInt 32 (units q * 2 ^ 32 / (unitsPerOne : Int))

/-! ### The record `NUM` -/

/-- The arithmetic record `NUM` (`00_scope.md` R9): one member for every operation file 40 defines. "A model keeps these
definitions in one record `NUM` so that another instance can be substituted; the rules of the other files use only the
names defined here." Words keep the format of R100; the literals of `00_scope.md` R15 are patterns of it. -/
structure Num where
  /-- `isnan` (R106). -/
  isNaN : Word → Bool
  /-- `isfinite` (R107). -/
  isFinite : Word → Bool
  /-- `fadd` (R102). -/
  fadd : Word → Word → Word
  /-- `neg` (R103). -/
  neg : Word → Word
  /-- `fsub` (R103). -/
  fsub : Word → Word → Word
  /-- `fmul` (R104). -/
  fmul : Word → Word → Word
  /-- `fdiv` (R105). -/
  fdiv : Word → Word → Word
  /-- `a < b` (R107). -/
  flt : Word → Word → Bool
  /-- `a <= b` (R107). -/
  fle : Word → Word → Bool
  /-- `a > b` (R107). -/
  fgt : Word → Word → Bool
  /-- `a >= b` (R107). -/
  fge : Word → Word → Bool
  /-- `a == b` (R107). -/
  feq : Word → Word → Bool
  /-- `clamp(v, lo, hi)` (R108). -/
  clamp : Word → Word → Word → Word
  /-- `blend(w, p, q)` (R109). -/
  blend : Word → Word → Word → Word
  /-- `floor_int` (R110); `none` where the rule gives no value. -/
  floorInt : Word → Option Int
  /-- `ceil_int` (R110); `none` where the rule gives no value. -/
  ceilInt : Word → Option Int
  /-- `float(n)` (R110). -/
  floatOfNat : Nat → Word
  /-- `frac24(n)` (R110). -/
  frac24 : Nat → Word
  /-- `floor_int(q * 2^32) mod 2^32` (R112 (f)). -/
  quotientIncrement : Word → BitVec 32
  /-- `ms_to_samples` at a sample rate (R115). -/
  msToSamples : Word → Word → Word

/-- `NUM` of this hardware: IEEE 754 binary32 (`00_scope.md` R9). -/
def binary32 : Num where
  isNaN := isNaN
  isFinite := isFinite
  fadd := fadd
  neg := neg
  fsub := fsub
  fmul := fmul
  fdiv := fdiv
  flt := flt
  fle := fle
  fgt := fgt
  fge := fge
  feq := feq
  clamp := clamp
  blend := blend
  floorInt := floorInt
  ceilInt := ceilInt
  floatOfNat := floatOfNat
  frac24 := frac24
  quotientIncrement := quotientIncrement
  msToSamples := msToSamples

end Sys2Proof.Machine
end

