-- ==== Sys2Proof/Machine/Sine.lean ====
section
/-! DEFINITION. The waveform instance of this hardware (`42_oscillator.md` R154, R155): a quarter-wave table of 65
binary32 constants with linear interpolation and a final clamp. -/

namespace Sys2Proof.Machine

/-- `Q[0..15]` (R155). -/
def quarterA : List Word :=
  [0x00000000, 0x3CC90AB0, 0x3D48FB30, 0x3D96A905, 0x3DC8BD36, 0x3DFAB273, 0x3E164083, 0x3E2F10A2,
   0x3E47C5C2, 0x3E605C13, 0x3E78CFCC, 0x3E888E93, 0x3E94A031, 0x3EA09AE5, 0x3EAC7CD4, 0x3EB8442A]

/-- `Q[16..31]` (R155). -/
def quarterB : List Word :=
  [0x3EC3EF15, 0x3ECF7BCA, 0x3EDAE880, 0x3EE63375, 0x3EF15AEA, 0x3EFC5D27, 0x3F039C3D, 0x3F08F59B,
   0x3F0E39DA, 0x3F13682A, 0x3F187FC0, 0x3F1D7FD1, 0x3F226799, 0x3F273656, 0x3F2BEB4A, 0x3F3085BB]

/-- `Q[32..47]` (R155). -/
def quarterC : List Word :=
  [0x3F3504F3, 0x3F396842, 0x3F3DAEF9, 0x3F41D870, 0x3F45E403, 0x3F49D112, 0x3F4D9F02, 0x3F514D3D,
   0x3F54DB31, 0x3F584853, 0x3F5B941A, 0x3F5EBE05, 0x3F61C598, 0x3F64AA59, 0x3F676BD8, 0x3F6A09A7]

/-- `Q[48..64]` (R155). -/
def quarterD : List Word :=
  [0x3F6C835E, 0x3F6ED89E, 0x3F710908, 0x3F731447, 0x3F74FA0B, 0x3F76BA07, 0x3F7853F8, 0x3F79C79D,
   0x3F7B14BE, 0x3F7C3B28, 0x3F7D3AAC, 0x3F7E1324, 0x3F7EC46D, 0x3F7F4E6D, 0x3F7FB10F, 0x3F7FEC43,
   0x3F800000]

/-- The read-only table `Q[0..64]` (R155; `20_memory.md` R50 (c)). -/
def quarterTable : List Word := quarterA ++ quarterB ++ quarterC ++ quarterD

/-- `Q[k]`, `0 <= k <= 64` (R155). -/
def quarterWave (k : Nat) : Word := quarterTable.getD k posZero

/-- `S(j)`, `0 <= j <= 255` (R154): the quarter wave mirrored and negated over the whole cycle. -/
def sineEntry (j : Nat) : Word :=
  if j ≤ 64 then quarterWave j
  else if j ≤ 128 then quarterWave (128 - j)
  else if j ≤ 192 then neg (quarterWave (j - 128))
  else neg (quarterWave (256 - j))

/-- `k = p[31:24]`, the table segment of a phase (R154). -/
def phaseSegment (p : BitVec 32) : Nat := (p.extractLsb' 24 8).toNat

/-- `f = frac24(p[23:0])`, the fraction within the segment (R154). -/
def phaseFraction (p : BitVec 32) : Word := frac24 (p.extractLsb' 0 24).toNat

/-- The interpolation between adjacent entries, before the final clamp (R154). -/
def sineBlend (p : BitVec 32) : Word :=
  blend (phaseFraction p) (sineEntry (phaseSegment p)) (sineEntry ((phaseSegment p + 1) % 256))

/-- The final clamp of a table value to [-1, 1] (R154; needed by law L7 of `40_numerics.md` R114). -/
def sineClamp (v : Word) : Word :=
  if fge v one then one else if fle v negOne then negOne else v

/-- `SINE(p)` of this hardware (R154). -/
def sineTable (p : BitVec 32) : Word := sineClamp (sineBlend p)

end Sys2Proof.Machine
end

