-- ==== Sys2Proof/Config.lean ====
section
/-! DEFINITION. The configuration `CFG` of `00_scope.md` R9 with the values of this hardware, and the one order the
spec leaves open: how the two ports interleave. Every rule that uses a member takes the record as an argument; `exec` and
`step` apply it to this hardware's (log entry 8). -/

namespace Sys2Proof.Config

/-- The configuration record `CFG` (`00_scope.md` R9; constraints in `92_eei_decisions.md`, last table). -/
structure Cfg where
  /-- `NCH`, the number of delay lines, 1..255. -/
  nch : Nat
  /-- `BUFDEPTH`, the physical words of delay RAM per channel, at least 2. -/
  bufdepth : Nat
  /-- `EXC_MS`, the modulation excursion in ms at depth 1 and oscillator value 1, binary32 > 0. -/
  excMs : Word
  /-- `MARGIN`, the interpolation margin added to the capacity, at least 1. -/
  margin : Nat
  /-- `FS_MIN`, the smallest sample rate PREPARE accepts, binary32 > 0. -/
  fsMin : Word
  /-- `SINE`, the oscillator waveform (`42_oscillator.md` R153). -/
  sine : BitVec 32 → Word
  /-- `NUM`, the arithmetic of every sample and parameter computation (`40_numerics.md`). -/
  num : Sys2Proof.Machine.Num

/-- The values "for this hardware" of `00_scope.md` R9. -/
def cfg : Cfg where
  nch := 2
  bufdepth := 32768
  excMs := 0x41200000
  margin := 1
  fsMin := 0x3F800000
  sine := Sys2Proof.Machine.sineTable
  num := Sys2Proof.Machine.binary32

/-- The constraints on a configuration (`00_scope.md` R9; `92_eei_decisions.md`, last table, with S2 and S3 of
`42_oscillator.md` R153 for `SINE`; S1 holds of any function and S4 gives no bound). -/
structure Cfg.Valid (c : Cfg) : Prop where
  /-- `1 <= NCH <= 255`. -/
  nch_range : 1 ≤ c.nch ∧ c.nch ≤ 255
  /-- `BUFDEPTH >= 2`. -/
  two_le_bufdepth : 2 ≤ c.bufdepth
  /-- `MARGIN >= 1`. -/
  one_le_margin : 1 ≤ c.margin
  /-- `EXC_MS` is finite and `> 0`, and `fadd(100.0, EXC_MS)` is finite. -/
  excMs_range : c.num.isFinite c.excMs = true ∧ c.num.flt Sys2Proof.Machine.posZero c.excMs = true ∧
    c.num.isFinite (c.num.fadd Sys2Proof.Machine.hundred c.excMs) = true
  /-- `FS_MIN` is finite and `> 0`, and `fdiv(100.0, FS_MIN)` is finite. -/
  fsMin_range : c.num.isFinite c.fsMin = true ∧ c.num.flt Sys2Proof.Machine.posZero c.fsMin = true ∧
    c.num.isFinite (c.num.fdiv Sys2Proof.Machine.hundred c.fsMin) = true
  /-- S2: `-1.0 <= SINE(p) <= 1.0`, never a NaN. -/
  sine_range : ∀ p, c.num.isNaN (c.sine p) = false ∧ c.num.fle Sys2Proof.Machine.negOne (c.sine p) = true ∧
    c.num.fle (c.sine p) Sys2Proof.Machine.one = true
  /-- S3: `SINE(0) = +0.0`. -/
  sine_zero : c.sine 0 = Sys2Proof.Machine.posZero

/-- FREE VALUE (log entry 2): the port served when both hold a packet, as a function of the number of commands served
so far. "How the two sequences interleave is not fixed: any interleaving is possible, and a claim about the CORE must
hold for every one" (`20_memory.md` R61; `92_eei_decisions.md` D4). It has no body, so nothing can be proved of its
values. -/
opaque arbiter : Nat → Port

end Sys2Proof.Config
end

