-- ==== Sys2Proof/Machine/State.lean ====
section
/-! DEFINITION. The architectural state of the CORE (`10_state.md` R20), the ports around it, the reasons a step can
stop, and the state after hardware reset. -/

namespace Sys2Proof.Machine

/-- The five parameter ids 0..4 by name (`10_state.md` R21; `41_parameter_commands.md` R130). -/
inductive ParamId where
  | rate | depth | delay | feedback | mix
deriving DecidableEq, Repr

/-- Five binary32 registers under the names of `10_state.md` R21: the shape of `PARAM[0..4]` and of `SNAP[0..4]`. -/
structure Params where
  /-- id 0, `rate`, Hz, [0, 100]. -/
  rate : Word
  /-- id 1, `depth`, [0, 1]. -/
  depth : Word
  /-- id 2, `delay`, ms, [1, 100]. -/
  delay : Word
  /-- id 3, `feedback`, [-1, 1]. -/
  feedback : Word
  /-- id 4, `mix`, [0, 1]. -/
  mix : Word
deriving DecidableEq, Repr

/-- `DEF[0..4]` (`10_state.md` R21): 0, 0, 1, 0, 0. -/
def Params.defaults : Params where
  rate := 0x00000000
  depth := 0x00000000
  delay := 0x3F800000
  feedback := 0x00000000
  mix := 0x00000000

/-- The engine state `ENG` (`10_state.md` R32); the encoding 3 never occurs. -/
inductive Eng where
  /-- UNINIT, 0. -/
  | uninit
  /-- PREPARED, 1. -/
  | prepared
  /-- PROCESSING, 2. -/
  | processing
deriving DecidableEq, Repr

/-- The delay RAM of one channel: (word address, word) cells. CANONICAL FORM: addresses strictly rising. An address
that is not listed has no value (`70_reset_and_hazards.md` R252: "an unwritten cell"), so no cell equals what an
unlisted address reads as. The cell is the word: the RAM is word addressed and nothing smaller exists in it
(`20_memory.md` R50, R55, R57; log entry 1). -/
abbrev Memory := List (Nat × Word)

/-- Every listed address is above `a`, and the addresses rise strictly. -/
def Memory.risesAbove (a : Nat) : Memory → Bool
  | [] => true
  | (b, _) :: m => decide (a < b) && Memory.risesAbove b m

/-- The canonical form: addresses strictly rising. -/
def Memory.wf : Memory → Bool
  | [] => true
  | (a, _) :: m => Memory.risesAbove a m

/-- What one channel owns: its write cursor `W[c]` (`10_state.md` R30) and its delay RAM `BUF[c]` (R31). -/
structure Line where
  /-- `W[c]`, the address of the channel's next write. -/
  w : Nat
  /-- `BUF[c]`. -/
  buf : Memory
deriving DecidableEq, Repr

/-- The hardware reset input (`70_reset_and_hazards.md` R250): an event outside the command stream. -/
inductive ResetInput where
  /-- no reset is requested. -/
  | released
  /-- hardware reset occurs next. `inProgress` is the port whose oldest packet is the command in progress that the
  reset discards without a response, if there is one. -/
  | asserted (inProgress : Option Port)
deriving DecidableEq, Repr

/-- The state. The first fourteen names are the tuple of `10_state.md` R20 (`W` and `BUF` are kept per channel in
`lines`); the last seven are the model's own: the response being produced and the outside of the two ports. -/
structure State where
  /-- `PARAM[0..4]`, the live parameter registers (R21, R22). -/
  param : Params
  /-- `SNAP[0..4]`, the parameter snapshot (R23). -/
  snap : Params
  /-- `PHASE`, u32: the fraction `PHASE / 2^32` of a cycle (R24). -/
  phase : BitVec 32
  /-- `FS`, the sample rate, binary32 (R25). -/
  fs : Word
  /-- `MAXBLK`, s32 (R26). -/
  maxblk : Word
  /-- `EXCS`, the excursion in samples, binary32 (R27). -/
  excs : Word
  /-- `MAXD`, the configured maximum delay in samples, binary32 (R28). -/
  maxd : Word
  /-- `CAP`, the logical capacity of every line in words (R29). -/
  cap : Nat
  /-- `W[c]` and `BUF[c]` of channel `c` at position `c` (R30, R31). -/
  lines : List Line
  /-- `ENG` (R32). -/
  eng : Eng
  /-- `BLKCH`, the channels of the most recent successful BEGIN (R33). -/
  blkch : Nat
  /-- `REMAIN`, the frames the open block still expects (R34). -/
  remain : Nat
  /-- `STICKY`, seven sticky error flags; bit `X - 1` is the flag of code `X` (R35; `60_exceptions.md` R222). -/
  sticky : BitVec 7
  /-- The response packet of the command being executed; empty between commands (`30_encoding.md` R84; log entry 7). -/
  response : Packet
  /-- The command packets CP has delivered and the CORE has not yet executed, oldest first (`20_memory.md` R61). -/
  cpIn : List Packet
  /-- The same for AP. -/
  apIn : List Packet
  /-- The response packets sent on CP, oldest first (`20_memory.md` R61). -/
  cpOut : List Packet
  /-- The same for AP. -/
  apOut : List Packet
  /-- The hardware reset input (`70_reset_and_hazards.md` R250). -/
  resetIn : ResetInput
  /-- How many commands have been served: the argument of the free value `Config.arbiter` (log entry 2). -/
  turn : Nat
deriving DecidableEq, Repr

/-- The reasons a step stops. Each names a call that the spec says cannot occur and gives no behaviour
(`20_memory.md` R52: "a model that reaches such a call has a bug, not a behaviour to define";
`93_implementation_defined.md` U5, treatment `refuse`). None is reached from a state with the invariants of
`10_state.md` R40 (log entry 9). -/
inductive Fault where
  /-- FRAME addressed the delay RAM outside `0..CAP-1` (`20_memory.md` R52, R53). Raised by `memRead` and `memWrite`.
  Safe: the spec gives such a call no behaviour. -/
  | lineAddress (a : Nat)
  /-- FRAME read a delay-RAM word that has not been written since hardware reset (`20_memory.md` R52). Raised by
  `memRead`. Safe: the spec gives such a call no behaviour. -/
  | unwrittenWord (a : Nat)
  /-- FRAME applied `floor_int` to an infinity or a NaN (`40_numerics.md` R110: "for finite `v`"). Raised by
  `phaseIncrement` and `splitDelay`. Safe: the spec gives such a call no behaviour. -/
  | nonFiniteConversion
  /-- FRAME carried a sample for a channel the CORE has no line for (`10_state.md` R33: `BLKCH <= NCH`). Raised by
  `stepLines`. Safe: the spec gives such a frame no behaviour. -/
  | noSuchChannel
deriving DecidableEq, Repr

/-- The reasons a step is refused. -/
inductive Refusal where
  /-- `exec` has no meaning yet for the instruction with this mnemonic. Raised by an arm of `exec`; no arm of this
  model raises it. Safe: nothing is claimed of the instruction. -/
  | notModelled (mnemonic : String)
deriving DecidableEq, Repr

/-- What a step answers. -/
abbrev StepOutcome := Host.Outcome State Fault Refusal

/-- A line after hardware reset: cursor 0 and no RAM word with a value (`70_reset_and_hazards.md` R251, R252). -/
def Line.reset : Line := { w := 0, buf := [] }

/-- The state right after hardware reset of a CORE with configuration `cfg` (`10_state.md` R41;
`70_reset_and_hazards.md` R251), with both ports empty and no reset requested (log entries 2, 3, 7). -/
def State.resetUnder (cfg : Config.Cfg) : State where
  param := Params.defaults
  snap := Params.defaults
  phase := 0
  fs := posZero
  maxblk := 0
  excs := posZero
  maxd := posZero
  cap := 0
  lines := List.replicate cfg.nch Line.reset
  eng := .uninit
  blkch := 0
  remain := 0
  sticky := 0
  response := []
  cpIn := []
  apIn := []
  cpOut := []
  apOut := []
  resetIn := .released
  turn := 0

/-- The state right after hardware reset of this hardware. -/
def State.reset : State := State.resetUnder Config.cfg

end Sys2Proof.Machine
end

