-- ==== Sys2Proof/Machine/Flags.lean ====
section
/-! DEFINITION. Status codes, the sticky flags and the STATUS register. The CORE has no condition codes and no
floating-point flags (`10_state.md` R37); these are all its flags. -/

namespace Sys2Proof.Machine

/-- The error codes (`30_encoding.md` R85; `60_exceptions.md` R221). -/
inductive ErrCode where
  /-- 1: the packet is not a legal command on its port. -/
  | illegal
  /-- 2: BEGIN in UNINIT, FRAME with no block open. -/
  | state
  /-- 3: PREPARE, RESET or BEGIN with a block open. -/
  | busy
  /-- 4: `InvalidConfiguration` of PREPARE. -/
  | config
  /-- 5: a bad count of BEGIN or FRAME. -/
  | badArg
  /-- 6: an unknown parameter id. -/
  | unknown
  /-- 7: `MalformedState`, a NaN parameter value. -/
  | malformed
deriving DecidableEq, Repr

/-- The code's number (`30_encoding.md` R85); 0 is OK. -/
def ErrCode.num : ErrCode → Nat
  | .illegal => 1
  | .state => 2
  | .busy => 3
  | .config => 4
  | .badArg => 5
  | .unknown => 6
  | .malformed => 7

/-- `STICKY[X-1] <- 1` (`60_exceptions.md` R222): the flags with that of code `X` set. -/
def setSticky (flags : BitVec 7) (e : ErrCode) : BitVec 7 := flags ||| (1 <<< (e.num - 1))

/-- The two bits of `ENG` (`10_state.md` R32). -/
def Eng.bits : Eng → BitVec 2
  | .uninit => 0
  | .prepared => 1
  | .processing => 2

/-- `INBLK`: 1 when `REMAIN != 0` (`10_state.md` R35). -/
def inBlock (s : State) : BitVec 1 := if s.remain ≠ 0 then 1 else 0

/-- `STATUS` (`10_state.md` R35): `ENG` in bits 1:0, `INBLK` in bit 2, `STICKY` in bits 14:8, every other bit 0. -/
def statusRegister (s : State) : Word :=
  (0 : BitVec 17) ++ s.sticky ++ (0 : BitVec 5) ++ inBlock s ++ s.eng.bits

/-- The status word `S` of a response: `CODE` in bits 7:0, `INFO` in bits 15:8 (`30_encoding.md` R84). -/
def statusWord (code : Byte) (info : Byte) : Word := (0 : BitVec 16) ++ info ++ code

/-- The status word of success (`30_encoding.md` R85). -/
def okWord : Word := statusWord 0 0

/-- The response of an error (`60_exceptions.md` R222): the status word alone, `X + info * 2^8`. -/
def errorResponse (e : ErrCode) (info : Byte) : Packet := [statusWord (BitVec.ofNat 8 e.num) info]

end Sys2Proof.Machine
end

