-- ==== Sys2Proof/Machine/Operands.lean ====
section
/-! DEFINITION. How a command reads its operands: parameter ids, the ranges they name, the SETST mask, s32 words. -/

namespace Sys2Proof.Machine

/-- The five known ids in order (`10_state.md` R21). -/
def ParamId.all : List ParamId := [.rate, .depth, .delay, .feedback, .mix]

/-- The number of a parameter (`10_state.md` R21). -/
def ParamId.num : ParamId → Nat
  | .rate => 0
  | .depth => 1
  | .delay => 2
  | .feedback => 3
  | .mix => 4

/-- The register an ARG byte names; ids 5..255 name nothing (`41_parameter_commands.md` R130; `20_memory.md` R50). -/
def paramOfId (id : Byte) : Option ParamId :=
  if id = 0 then some .rate
  else if id = 1 then some .depth
  else if id = 2 then some .delay
  else if id = 3 then some .feedback
  else if id = 4 then some .mix
  else none

/-- `LO[i]` (`10_state.md` R21). -/
def ParamId.lo : ParamId → Word
  | .rate => posZero
  | .depth => posZero
  | .delay => one
  | .feedback => negOne
  | .mix => posZero

/-- `HI[i]` (`10_state.md` R21). -/
def ParamId.hi : ParamId → Word
  | .rate => hundred
  | .depth => one
  | .delay => hundred
  | .feedback => one
  | .mix => one

/-- Read of register `i` of `PARAM` or `SNAP` (`00_scope.md` R14). -/
def Params.get (p : Params) : ParamId → Word
  | .rate => p.rate
  | .depth => p.depth
  | .delay => p.delay
  | .feedback => p.feedback
  | .mix => p.mix

/-- Write of register `i` (`00_scope.md` R14). -/
def Params.set (p : Params) (i : ParamId) (v : Word) : Params :=
  match i with
  | .rate => { p with rate := v }
  | .depth => { p with depth := v }
  | .delay => { p with delay := v }
  | .feedback => { p with feedback := v }
  | .mix => { p with mix := v }

/-- The value a write of `v` to register `i` stores: `clamp(v, LO[i], HI[i])` (`41_parameter_commands.md` R131). -/
def clampParam (cfg : Config.Cfg) (i : ParamId) (v : Word) : Word := cfg.num.clamp v i.lo i.hi

/-- `mask[i]`: the mapping supplies a value for id `i` (`30_encoding.md` R74). -/
def maskBit (mask : Byte) (i : ParamId) : Bool := mask.getLsbD i.num

/-- The mask with bit `i` set (`41_parameter_commands.md` R133: `fail[i] <- 1`). -/
def setMaskBit (mask : Byte) (i : ParamId) : Byte := mask ||| (1 <<< i.num)

/-- An s32 operand (`00_scope.md` R13; `40_numerics.md` R113): the word in two's complement. -/
def s32 (w : Word) : Int := w.toInt

end Sys2Proof.Machine
end

