-- ==== Sys2Proof/Machine/Ops.lean ====
section
/-! DEFINITION. The named operations over the delay RAM, the responses, error entry, the ports and hardware reset. -/

namespace Sys2Proof.Machine

/-! ### The delay RAM (`20_memory.md` R50 to R54, R68) -/

/-- The word last written at an address; `none` if nothing has been written there since hardware reset. -/
def Memory.read : Memory → Nat → Option Word
  | [], _ => none
  | (b, v) :: m, a => if a = b then some v else Memory.read m a

/-- The RAM after `v` is written at an address: that word changes and no other (`20_memory.md` R53). -/
def Memory.write : Memory → Nat → Word → Memory
  | [], a, v => [(a, v)]
  | (b, u) :: m, a, v =>
    if a < b then (a, v) :: (b, u) :: m
    else if a = b then (a, v) :: m
    else (b, u) :: Memory.write m a v

/-- `count` cells of `+0.0` from an address up. -/
def zeroCells (a : Nat) : Nat → Memory
  | 0 => []
  | count + 1 => (a, posZero) :: zeroCells (a + 1) count

/-- The cells at addresses `n` and above. -/
def Memory.dropBelow (n : Nat) : Memory → Memory
  | [] => []
  | (b, v) :: m => if b < n then Memory.dropBelow n m else (b, v) :: m

/-- The RAM with `+0.0` at every address `0..n-1`, all else kept (`20_memory.md` R68). -/
def Memory.zeroFill (n : Nat) (m : Memory) : Memory := zeroCells 0 n ++ Memory.dropBelow n m

/-- `MemRead(c, a)` on the RAM of a channel, defined for `0 <= a < CAP` (`20_memory.md` R52). -/
def memRead (cap : Nat) (m : Memory) (a : Nat) : Except Fault Word :=
  if a < cap then
    match m.read a with
    | some v => .ok v
    | none => .error (.unwrittenWord a)
  else .error (.lineAddress a)

/-- `MemWrite(c, a, v)` on the RAM of a channel, defined for `0 <= a < CAP` (`20_memory.md` R53). -/
def memWrite (cap : Nat) (m : Memory) (a : Nat) (v : Word) : Except Fault Memory :=
  if a < cap then .ok (m.write a v) else .error (.lineAddress a)

/-- One line cleared: `+0.0` at `0..CAP-1` and the cursor at 0 (`45_engine_commands.md` R194). -/
def clearLine (cap : Nat) (l : Line) : Line := { w := 0, buf := l.buf.zeroFill cap }

/-- `clear_lines()` with the `CAP` in force: every line cleared and `PHASE <- 0` (`45_engine_commands.md` R194). -/
def clearLines (s : State) : State := { s with lines := s.lines.map (clearLine s.cap), phase := 0 }

/-! ### Responses and error entry (`30_encoding.md` R84; `60_exceptions.md` R222, R233) -/

/-- `resp(OK, 0, data...)`. -/
def respondOk (data : List Word) (s : State) : State := { s with response := okWord :: data }

/-- `raise E_X(info)` (`60_exceptions.md` R222, R233): the whole of "trap entry". The sticky flag of the code is set,
the response is the status word alone, and nothing else changes: `s` is the state whose writes are kept, which is
the state before the command, but for SETST with `E_MALFORMED` (R133). There is no return from it (R234). -/
def raiseError (e : ErrCode) (info : Byte) (s : State) : State :=
  { s with sticky := setSticky s.sticky e, response := errorResponse e info }

/-! ### The two ports (`20_memory.md` R60, R61) -/

/-- The command to execute next, the port it arrived on, and the state without it. Each port is served in its own
order; which port comes first when both hold a packet is the free value `Config.arbiter` (log entry 2). -/
def takeCommand (s : State) : Option (Port × Packet × State) :=
  match s.cpIn, s.apIn with
  | [], [] => none
  | c :: cs, [] => some (.cp, c, { s with cpIn := cs, turn := s.turn + 1 })
  | [], a :: as => some (.ap, a, { s with apIn := as, turn := s.turn + 1 })
  | c :: cs, a :: as =>
    match Config.arbiter s.turn with
    | .cp => some (.cp, c, { s with cpIn := cs, turn := s.turn + 1 })
    | .ap => some (.ap, a, { s with apIn := as, turn := s.turn + 1 })

/-- The finished response leaves on the port its command arrived on (`30_encoding.md` R84). -/
def deliver (p : Port) (s : State) : State :=
  match p with
  | .cp => { s with cpOut := s.cpOut ++ [s.response], response := [] }
  | .ap => { s with apOut := s.apOut ++ [s.response], response := [] }

/-- One command packet executed by `run`; an illegal packet ends in `raise E_ILLEGAL(0)` (`30_encoding.md` R78). -/
def runPacket (run : Instr → State → StepOutcome) (p : Port) (packet : Packet) (s : State) : StepOutcome :=
  match decode p packet with
  | .ok i => run i s
  | .error _ => .next (raiseError .illegal 0 s)

/-- One turn of the CORE: the next command is executed and answered; with no command the CORE is idle and keeps all
its state (`60_exceptions.md` R238; log entry 12). -/
def serveNext (run : Instr → State → StepOutcome) (s : State) : StepOutcome :=
  match takeCommand s with
  | none => .next s
  | some (p, packet, taken) =>
    match runPacket run p packet taken with
    | .next t => .next (deliver p t)
    | .fault f => .fault f
    | .refused r => .refused r

/-! ### Hardware reset (`70_reset_and_hazards.md` R250 to R252) -/

/-- The queue of a port after hardware reset: the command in progress, if it came from this port, is discarded
(`70_reset_and_hazards.md` R250). -/
def discardInProgress (p : Port) (inProgress : Option Port) (queue : List Packet) : List Packet :=
  if inProgress = some p then queue.tail else queue

/-- Hardware reset (`70_reset_and_hazards.md` R250, R251): every piece of state at its reset value, the command in
progress discarded without a response. What the ports have yet to deliver and the responses already sent are outside
the CORE and stay (log entry 3). -/
def hardwareReset (cfg : Config.Cfg) (inProgress : Option Port) (s : State) : State :=
  { State.resetUnder cfg with
    cpIn := discardInProgress .cp inProgress s.cpIn
    apIn := discardInProgress .ap inProgress s.apIn
    cpOut := s.cpOut
    apOut := s.apOut
    turn := s.turn }

/-- One step of a CORE with configuration `cfg` whose commands `run` executes: a requested hardware reset first, else the
next command. -/
def stepWith (cfg : Config.Cfg) (run : Instr → State → StepOutcome) (s : State) : StepOutcome :=
  match s.resetIn with
  | .asserted inProgress => .next (hardwareReset cfg inProgress s)
  | .released => serveNext run s

/-- A packet placed where the very next step takes it: first in its port's queue, the other queue empty, no reset
requested (log entry 4). -/
def placeCommand (p : Port) (packet : Packet) (s : State) : State :=
  match p with
  | .cp => { s with cpIn := packet :: s.cpIn, apIn := [], resetIn := .released }
  | .ap => { s with apIn := packet :: s.apIn, cpIn := [], resetIn := .released }

end Sys2Proof.Machine
end

