-- ==== Sys2Proof/Machine/DelayLine.lean ====
section
/-! DEFINITION. The interpolated delay line (`43_delay_line.md`): sizing, the delay length of a frame, the two taps,
the interpolated read, the write and the cursor's advance. -/

namespace Sys2Proof.Machine

/-! ### Sizing, done by PREPARE (R161, R162) -/

/-- `EXCS = ms_to_samples(EXC_MS)` (R161). -/
def excursionSamples (cfg : Config.Cfg) (fs : Word) : Word := cfg.num.msToSamples cfg.excMs fs

/-- `MAXD = ms_to_samples(fadd(100.0, EXC_MS))` (R161). -/
def maxDelaySamples (cfg : Config.Cfg) (fs : Word) : Word :=
  cfg.num.msToSamples (cfg.num.fadd hundred cfg.excMs) fs

/-- `CAP = ceil_int(MAXD) + MARGIN` (R162); `none` for a `MAXD` that is not finite (log entry 6). -/
def capacityOf (cfg : Config.Cfg) (maxd : Word) : Option Nat :=
  match cfg.num.ceilInt maxd with
  | some n => some (n.toNat + cfg.margin)
  | none => none

/-! ### Delay length, once per frame (R163 to R165) -/

/-- `centre = fdiv(fmul(SNAP[DELAY], FS), 1000.0)` (R163). -/
def centreSamples (cfg : Config.Cfg) (delay fs : Word) : Word := cfg.num.msToSamples delay fs

/-- `d_raw = fadd(centre, fmul(fmul(SNAP[DEPTH], EXCS), lfo))` (R163). -/
def rawDelay (cfg : Config.Cfg) (delay depth fs excs lfo : Word) : Word :=
  cfg.num.fadd (centreSamples cfg delay fs) (cfg.num.fmul (cfg.num.fmul depth excs) lfo)

/-- `hi = if MAXD >= 1.0 then MAXD else 1.0` (R164). -/
def delayCeiling (cfg : Config.Cfg) (maxd : Word) : Word := if cfg.num.fge maxd one then maxd else one

/-- `d = clamp(d_raw, 1.0, hi)` (R164). -/
def delayLength (cfg : Config.Cfg) (draw maxd : Word) : Word := cfg.num.clamp draw one (delayCeiling cfg maxd)

/-- `df = fsub(d, float(di))` (R165). -/
def delayFraction (cfg : Config.Cfg) (d : Word) (di : Nat) : Word := cfg.num.fsub d (cfg.num.floatOfNat di)

/-- The split of the delay into `di = floor_int(d)` and `df` (R165). The rule takes a finite `d`. -/
def splitDelay (cfg : Config.Cfg) (d : Word) : Except Fault (Nat × Word) :=
  match cfg.num.floorInt d with
  | some n => .ok (n.toNat, delayFraction cfg d n.toNat)
  | none => .error .nonFiniteConversion

/-! ### Taps, read, write (R166 to R168) -/

/-- `(W[c] - k) mod CAP` with the mathematical remainder (R166, `40_numerics.md` R112 (b)): the address of the word
written `k` frames ago (`20_memory.md` R54). -/
def tapAddress (w k cap : Nat) : Nat := (((w : Int) - (k : Int)) % (cap : Int)).toNat

/-- `(W[c] + 1) mod CAP` (R168, `40_numerics.md` R112 (c)). -/
def nextCursor (w cap : Nat) : Nat := (w + 1) % cap

/-- The interpolated read `delayed = blend(df, A, B)` with `A` at `a0` and `B` at `a1` (R166, R167). -/
def readDelayed (cfg : Config.Cfg) (cap di : Nat) (df : Word) (l : Line) : Except Fault Word :=
  match memRead cap l.buf (tapAddress l.w di cap) with
  | .error f => .error f
  | .ok a =>
    match memRead cap l.buf (tapAddress l.w (di + 1) cap) with
    | .error f => .error f
    | .ok b => .ok (cfg.num.blend df a b)

/-- `MemWrite(c, W[c], wv)` and the cursor's advance (R168). -/
def writeAdvance (cap : Nat) (wv : Word) (l : Line) : Except Fault Line :=
  match memWrite cap l.buf l.w wv with
  | .error f => .error f
  | .ok buf => .ok { w := nextCursor l.w cap, buf := buf }

end Sys2Proof.Machine
end

