-- ==== Sys2Proof/Machine/FeedbackMix.lean ====
section
/-! DEFINITION. The feedback and mix stage (`44_feedback_mix.md`): the last micro-operations of a FRAME. -/

namespace Sys2Proof.Machine

/-- `wv = fadd(x, fmul(SNAP[FEEDBACK], delayed))` (R181). -/
def feedbackValue (cfg : Config.Cfg) (feedback x delayed : Word) : Word :=
  cfg.num.fadd x (cfg.num.fmul feedback delayed)

/-- The output sample: the input word itself when `SNAP[MIX] == 0` (R183), else `blend(SNAP[MIX], x, delayed)`
(R182). -/
def mixOutput (cfg : Config.Cfg) (mix x delayed : Word) : Word :=
  if cfg.num.feq mix posZero then x else cfg.num.blend mix x delayed

end Sys2Proof.Machine
end

