-- ==== Sys2Proof/Machine/Oscillator.lean ====
section
/-! DEFINITION. The modulation oscillator (`42_oscillator.md`): the micro-operations that come first in a FRAME. -/

namespace Sys2Proof.Machine

/-- `lfo_inc(rate, fs)` with `q = fdiv(rate, fs)` (R151, `40_numerics.md` R112 (f)). The rule takes a finite `q`. -/
def phaseIncrement (cfg : Config.Cfg) (rate fs : Word) : Except Fault (BitVec 32) :=
  if cfg.num.isFinite (cfg.num.fdiv rate fs) then .ok (cfg.num.quotientIncrement (cfg.num.fdiv rate fs))
  else .error .nonFiniteConversion

/-- `PHASE <- (PHASE + INC) mod 2^32` (R152, `40_numerics.md` R112 (a)). -/
def advancePhase (phase inc : BitVec 32) : BitVec 32 := phase + inc

/-- `lfo = SINE(PHASE)` with the updated `PHASE` (R153). -/
def oscillatorValue (cfg : Config.Cfg) (phase : BitVec 32) : Word := cfg.sine phase

end Sys2Proof.Machine
end

