-- ==== Sys2Proof/Machine/Engine.lean ====
section
/-! DEFINITION. The engine commands NOP, STAT, PREPARE, RESET, BEGIN, FRAME (`45_engine_commands.md`). -/

namespace Sys2Proof.Machine

/-- NOP (R191). -/
def execNop (s : State) : StepOutcome := .next (respondOk [] s)

/-- STAT (R192): `STATUS` as it was before the command. -/
def execStat (s : State) : StepOutcome := .next (respondOk [statusRegister s] s)

/-! ### PREPARE (R193) -/

/-- The argument check of PREPARE, but for the capacity (R193). -/
def badConfig (cfg : Config.Cfg) (sampleRate maxBlockSize : Word) : Bool :=
  cfg.num.isNaN sampleRate || cfg.num.fle sampleRate posZero || cfg.num.feq sampleRate posInf ||
    cfg.num.flt sampleRate cfg.fsMin || decide (s32 maxBlockSize ≤ 0)

/-- The writes of a successful PREPARE (R193, R194). -/
def prepared (cfg : Config.Cfg) (sampleRate maxBlockSize : Word) (cap : Nat) (s : State) : State :=
  { clearLines
      { s with
        fs := sampleRate
        maxblk := maxBlockSize
        maxd := maxDelaySamples cfg sampleRate
        excs := excursionSamples cfg sampleRate
        cap := cap } with
    eng := .prepared }

/-- PREPARE (R193): `E_BUSY`, then `E_CONFIG` for the arguments and for a capacity above `BUFDEPTH`, then the
configuration. A `MAXD` too large for binary32 has no capacity that fits (log entry 6). -/
def prepareUnder (cfg : Config.Cfg) (sampleRate maxBlockSize : Word) (s : State) : StepOutcome :=
  if s.remain ≠ 0 then .next (raiseError .busy 0 s)
  else if badConfig cfg sampleRate maxBlockSize then .next (raiseError .config 0 s)
  else
    match capacityOf cfg (maxDelaySamples cfg sampleRate) with
    | none => .next (raiseError .config 0 s)
    | some cap =>
      if cap > cfg.bufdepth then .next (raiseError .config 0 s)
      else .next (respondOk [] (prepared cfg sampleRate maxBlockSize cap s))

/-- PREPARE on this hardware. -/
def execPrepare (sampleRate maxBlockSize : Word) (s : State) : StepOutcome :=
  prepareUnder Config.cfg sampleRate maxBlockSize s

/-- RESET (R195). -/
def execReset (s : State) : StepOutcome :=
  if s.remain ≠ 0 then .next (raiseError .busy 0 s)
  else .next (respondOk [] (clearLines s))

/-! ### BEGIN (R196, R197) -/

/-- The argument check of BEGIN (R196). -/
def badBlock (cfg : Config.Cfg) (numChannels : Byte) (numSamples : Word) (s : State) : Bool :=
  decide (numChannels.toNat = 0) || decide (numChannels.toNat > cfg.nch) || decide (s32 numSamples < 0) ||
    decide (s32 numSamples > s32 s.maxblk)

/-- The writes of a successful BEGIN; the five assignments `SNAP[i] <- PARAM[i]` happen together (R196, R197). -/
def blockOpened (numChannels : Byte) (numSamples : Word) (s : State) : State :=
  { s with
    snap := s.param
    blkch := numChannels.toNat
    remain := (s32 numSamples).toNat
    eng := .processing }

/-- BEGIN (R196): `E_STATE`, then `E_BUSY`, then `E_BADARG`, then the block. -/
def beginUnder (cfg : Config.Cfg) (numChannels : Byte) (numSamples : Word) (s : State) : StepOutcome :=
  if s.eng = .uninit then .next (raiseError .state 0 s)
  else if s.remain ≠ 0 then .next (raiseError .busy 0 s)
  else if badBlock cfg numChannels numSamples s then .next (raiseError .badArg 0 s)
  else .next (respondOk [] (blockOpened numChannels numSamples s))

/-- BEGIN on this hardware. -/
def execBegin (numChannels : Byte) (numSamples : Word) (s : State) : StepOutcome :=
  beginUnder Config.cfg numChannels numSamples s

/-! ### FRAME (R198, R199) -/

/-- What the channels of one frame share (R67, R199): the snapshot, `CAP`, and the split delay. -/
structure FrameShared where
  /-- `SNAP`. -/
  snap : Params
  /-- `CAP`. -/
  cap : Nat
  /-- `di`. -/
  di : Nat
  /-- `df`. -/
  df : Word
deriving DecidableEq, Repr

/-- The body of R199's loop for one channel: the interpolated read, the output, the feedback write. The read comes
before the write (`20_memory.md` R66). -/
def stepLine (cfg : Config.Cfg) (f : FrameShared) (x : Word) (l : Line) : Except Fault (Word × Line) :=
  match readDelayed cfg f.cap f.di f.df l with
  | .error e => .error e
  | .ok delayed =>
    match writeAdvance f.cap (feedbackValue cfg f.snap.feedback x delayed) l with
    | .error e => .error e
    | .ok l' => .ok (mixOutput cfg f.snap.mix x delayed, l')

/-- R199's loop over the channels of the frame, in ascending order (unobservable, `20_memory.md` R67). Lines beyond
the frame's samples are not touched (`43_delay_line.md` R168). -/
def stepLines (cfg : Config.Cfg) (f : FrameShared) : List Word → List Line → Except Fault (List Word × List Line)
  | [], ls => .ok ([], ls)
  | _ :: _, [] => .error .noSuchChannel
  | x :: xs, l :: ls =>
    match stepLine cfg f x l with
    | .error e => .error e
    | .ok (y, l') =>
      match stepLines cfg f xs ls with
      | .error e => .error e
      | .ok (ys, ls') => .ok (y :: ys, l' :: ls')

/-- The delay length `d` of a frame whose updated phase is `phase` (R199; `43_delay_line.md` R163, R164). -/
def frameDelay (cfg : Config.Cfg) (s : State) (phase : BitVec 32) : Word :=
  delayLength cfg (rawDelay cfg s.snap.delay s.snap.depth s.fs s.excs (oscillatorValue cfg phase)) s.maxd

/-- The oscillator and the delay length of a frame, once for all channels (R199): the updated `PHASE` and what the
channels share. -/
def frameShared (cfg : Config.Cfg) (s : State) : Except Fault (BitVec 32 × FrameShared) :=
  match phaseIncrement cfg s.snap.rate s.fs with
  | .error e => .error e
  | .ok inc =>
    match splitDelay cfg (frameDelay cfg s (advancePhase s.phase inc)) with
    | .error e => .error e
    | .ok (di, df) => .ok (advancePhase s.phase inc, { snap := s.snap, cap := s.cap, di := di, df := df })

/-- `frame_step` (R199): the output samples and the state with the new `PHASE`, lines and cursors. -/
def frameStep (cfg : Config.Cfg) (samples : List Word) (s : State) : Except Fault (List Word × State) :=
  match frameShared cfg s with
  | .error e => .error e
  | .ok (phase, f) =>
    match stepLines cfg f samples s.lines with
    | .error e => .error e
    | .ok (ys, lines) => .ok (ys, { s with phase := phase, lines := lines })

/-- FRAME (R198): `E_STATE`, then `E_BADARG`, then one sample instant. The faults of `frameStep` are calls the spec
gives no behaviour, in states no run reaches (`10_state.md` R40). -/
def frameUnder (cfg : Config.Cfg) (samples : List Word) (s : State) : StepOutcome :=
  if s.remain = 0 then .next (raiseError .state 0 s)
  else if samples.length ≠ s.blkch then .next (raiseError .badArg 0 s)
  else
    match frameStep cfg samples s with
    | .error f => .fault f
    | .ok (ys, t) => .next (respondOk ys { t with remain := s.remain - 1 })

/-- FRAME on this hardware. -/
def execFrame (samples : List Word) (s : State) : StepOutcome := frameUnder Config.cfg samples s

end Sys2Proof.Machine
end

