-- ==== Sys2Proof/Machine/Parameters.lean ====
section
/-! DEFINITION. The Parameter Store commands SETP, GETP, SETST, GETST (`41_parameter_commands.md`). -/

namespace Sys2Proof.Machine

/-- SETP (R131): `E_UNKNOWN`, then `E_MALFORMED`, then the clamped write. -/
def setpUnder (cfg : Config.Cfg) (id : Byte) (value : Word) (s : State) : StepOutcome :=
  match paramOfId id with
  | none => .next (raiseError .unknown 0 s)
  | some i =>
    if cfg.num.isNaN value then .next (raiseError .malformed 0 s)
    else .next (respondOk [] { s with param := s.param.set i (clampParam cfg i value) })

/-- SETP on this hardware. -/
def execSetp (id : Byte) (value : Word) (s : State) : StepOutcome := setpUnder Config.cfg id value s

/-- GETP (R132): the live register. -/
def execGetp (id : Byte) (s : State) : StepOutcome :=
  match paramOfId id with
  | none => .next (raiseError .unknown 0 s)
  | some i => .next (respondOk [s.param.get i] s)

/-- The loop of SETST over the keys (R133): a selected NaN marks its key failed, a selected number is clamped and
stored, a key that is not selected is left alone. The result is `PARAM` and the mask `fail`. -/
def applyKeys (cfg : Config.Cfg) (mask : Byte) : List (ParamId × Word) → Params → Byte → Params × Byte
  | [], p, failed => (p, failed)
  | (i, v) :: keys, p, failed =>
    if maskBit mask i then
      if cfg.num.isNaN v then applyKeys cfg mask keys p (setMaskBit failed i)
      else applyKeys cfg mask keys (p.set i (clampParam cfg i v)) failed
    else applyKeys cfg mask keys p failed

/-- `E_MALFORMED` with the mask of failed keys if there is one, else `OK` (R133): the one error that keeps the
command's writes (`60_exceptions.md` R222). -/
def finishSetst (s : State) (result : Params × Byte) : StepOutcome :=
  if result.2 ≠ 0 then .next (raiseError .malformed result.2 { s with param := result.1 })
  else .next (respondOk [] { s with param := result.1 })

/-- SETST (R133). -/
def setstUnder (cfg : Config.Cfg) (mask : Byte) (v0 v1 v2 v3 v4 : Word) (s : State) : StepOutcome :=
  finishSetst s
    (applyKeys cfg mask [(.rate, v0), (.depth, v1), (.delay, v2), (.feedback, v3), (.mix, v4)] s.param 0)

/-- SETST on this hardware. -/
def execSetst (mask : Byte) (v0 v1 v2 v3 v4 : Word) (s : State) : StepOutcome :=
  setstUnder Config.cfg mask v0 v1 v2 v3 v4 s

/-- GETST (R134): the five live registers in id order. -/
def execGetst (s : State) : StepOutcome := .next (respondOk (ParamId.all.map s.param.get) s)

end Sys2Proof.Machine
end

