-- ==== Sys2Proof/Machine/Dispatch.lean ====
section
/-! DEFINITION. The meaning of each command: one arm per constructor of `Instr`. -/

namespace Sys2Proof.Machine

/-- The execution of one decoded command (`30_encoding.md` R70). -/
def exec (i : Instr) (s : State) : Host.Outcome State Fault Refusal :=
  match i with
  | .nop => Sys2Proof.Machine.execNop s
  | .prepare sampleRate maxBlockSize => Sys2Proof.Machine.execPrepare sampleRate maxBlockSize s
  | .reset => Sys2Proof.Machine.execReset s
  | .setp id value => Sys2Proof.Machine.execSetp id value s
  | .getp id => Sys2Proof.Machine.execGetp id s
  | .setst mask v0 v1 v2 v3 v4 => Sys2Proof.Machine.execSetst mask v0 v1 v2 v3 v4 s
  | .getst => Sys2Proof.Machine.execGetst s
  | .stat => Sys2Proof.Machine.execStat s
  | .begin numChannels numSamples => Sys2Proof.Machine.execBegin numChannels numSamples s
  | .frame samples => Sys2Proof.Machine.execFrame samples s

end Sys2Proof.Machine
end

