-- ==== Sys2Proof/Machine/Step.lean ====
section
/-! DEFINITION. One step of the CORE, and the placing of a table word where the next step takes it. -/

namespace Sys2Proof.Machine

/-- One step of this hardware (`20_memory.md` R60; `70_reset_and_hazards.md` R250): a requested hardware reset, else the
next command in the execution order, else nothing. -/
def step (s : State) : Host.Outcome State Fault Refusal := stepWith Config.cfg exec s

/-- `s` with the packet of a table word as the command the next step executes: placed on the opcode's home port, with
the other port empty and no reset requested (log entry 4). -/
def State.withFetchWord (s : State) (nbits w : Nat) : State :=
  placeCommand (tablePacket nbits w).1 (tablePacket nbits w).2 s

end Sys2Proof.Machine
end

