-- ==== Sys2Proof/Machine/AnyConfig.lean ====
section
/-! DEFINITION. The step function with its parameter, the configuration `CFG` (`10_state.md` R39; `92_eei_decisions.md`: "A
model takes `CFG` as an argument"). `exec` and `step`, whose types the host fixes, are these at `Config.cfg`. -/

namespace Sys2Proof.Machine

/-- The execution of one decoded command on a CORE with configuration `cfg` (`30_encoding.md` R70). -/
def execUnder (cfg : Config.Cfg) (i : Instr) (s : State) : StepOutcome :=
  match i with
  | .nop => execNop s
  | .prepare sampleRate maxBlockSize => prepareUnder cfg sampleRate maxBlockSize s
  | .reset => execReset s
  | .setp id value => setpUnder cfg id value s
  | .getp id => execGetp id s
  | .setst mask v0 v1 v2 v3 v4 => setstUnder cfg mask v0 v1 v2 v3 v4 s
  | .getst => execGetst s
  | .stat => execStat s
  | .begin numChannels numSamples => beginUnder cfg numChannels numSamples s
  | .frame samples => frameUnder cfg samples s

/-- One step of a CORE with configuration `cfg`. -/
def stepUnder (cfg : Config.Cfg) (s : State) : StepOutcome := stepWith cfg (execUnder cfg) s

end Sys2Proof.Machine
end

