-- ==== Sys2Proof/Machine/Assembler.lean ====
section
/-! DEFINITION. The pseudo-commands of `30_encoding.md` R88 and the textual syntax of R87. Nothing of the CORE depends
on this file: it is the host's notation for command sequences (log entry 10). -/

namespace Sys2Proof.Machine

/-! ### Pseudo-commands (R88) -/

/-- The FRAME commands of a block of `n` frames of `nch` samples, given frame by frame (R88 (a)). -/
def blockFrames (nch : Nat) : Nat → List Word → List Instr
  | 0, _ => []
  | n + 1, samples => .frame (samples.take nch) :: blockFrames nch n (samples.drop nch)

/-- `PROCESS nch, n, samples...` (R88 (a)); `none` unless there are `nch * n` samples and `n` is an s32. -/
def pseudoProcess (nch : Byte) (n : Nat) (samples : List Word) : Option (List Instr) :=
  if samples.length = nch.toNat * n ∧ n < 2 ^ 31 then
    some (.begin nch (BitVec.ofNat 32 n) :: blockFrames nch.toNat n samples)
  else none

/-- The value a mapping gives a known name, the last one if it is given twice; `none` stands for an unknown name. -/
def givenValue (i : ParamId) : List (Option ParamId × Word) → Option Word
  | [] => none
  | (name, v) :: rest =>
    match givenValue i rest with
    | some u => some u
    | none => if name = some i then some v else none

/-- The mask of a mapping: bit `i` for each known name given, bit 5 if an unknown name was given (R88 (b)). -/
def mappingMask : List (Option ParamId × Word) → Byte
  | [] => 0
  | (some i, _) :: rest => setMaskBit (mappingMask rest) i
  | (none, _) :: rest => mappingMask rest ||| 0x20

/-- `SETSTATE name=value, ...` (R88 (b)): one SETST, `+0.0` in the operand words of names not given. -/
def pseudoSetState (mapping : List (Option ParamId × Word)) : Instr :=
  let v := fun i => (givenValue i mapping).getD posZero
  .setst (mappingMask mapping) (v .rate) (v .depth) (v .delay) (v .feedback) (v .mix)

/-- `GETSTATE` (R88 (c)). -/
def pseudoGetState : Instr := .getst

/-- The labels of GETSTATE's five data words (R88 (c)). -/
def stateLabels : List String := ["rate", "depth", "delay", "feedback", "mix"]

/-- The id a name is sent with: 255 for a name that is not one of the five (R88 (d)). -/
def idOfName (name : Option ParamId) : Byte :=
  match name with
  | some i => BitVec.ofNat 8 i.num
  | none => 255

/-- `SETPARAMETER name, value` (R88 (d)). -/
def pseudoSetParameter (name : Option ParamId) (value : Word) : Instr := .setp (idOfName name) value

/-- `GETPARAMETER name` (R88 (d)). -/
def pseudoGetParameter (name : Option ParamId) : Instr := .getp (idOfName name)

/-! ### Text (R87), on lists of characters -/

/-- The pieces of a text between separators. -/
def splitText (sep : Char) : List Char → List (List Char)
  | [] => [[]]
  | c :: cs =>
    if c = sep then [] :: splitText sep cs
    else
      match splitText sep cs with
      | [] => [[c]]
      | piece :: rest => (c :: piece) :: rest

/-- A text without its leading spaces. -/
def trimLeft : List Char → List Char
  | [] => []
  | c :: cs => if c = ' ' then trimLeft cs else c :: cs

/-- A text without its leading and trailing spaces. -/
def trimText (t : List Char) : List Char := (trimLeft (trimLeft t).reverse).reverse

/-- The value of a digit, 0..9 or a..f in either case. -/
def digitValue (c : Char) : Option Nat :=
  if '0' ≤ c ∧ c ≤ '9' then some (c.toNat - '0'.toNat)
  else if 'a' ≤ c ∧ c ≤ 'f' then some (c.toNat - 'a'.toNat + 10)
  else if 'A' ≤ c ∧ c ≤ 'F' then some (c.toNat - 'A'.toNat + 10)
  else none

/-- The number whose digits in a base follow the number read so far. -/
def readDigits (base : Nat) : Nat → List Char → Option Nat
  | n, [] => some n
  | n, c :: cs =>
    match digitValue c with
    | some d => if d < base then readDigits base (n * base + d) cs else none
    | none => none

/-- A non-empty decimal numeral. -/
def readDecimal (t : List Char) : Option Nat := if t = [] then none else readDigits 10 0 t

/-- The digits after `0x`, if a text has that form. -/
def hexDigits : List Char → Option (List Char)
  | '0' :: 'x' :: ds => some ds
  | _ => none

/-- The exact pattern `0x` with eight hex digits (R87). -/
def readPattern (t : List Char) : Option Word :=
  match hexDigits t with
  | some ds => if ds.length = 8 then (readDigits 16 0 ds).map (BitVec.ofNat 32) else none
  | none => none

/-- A sign and the rest. -/
def readSign : List Char → Bool × List Char
  | '-' :: t => (true, t)
  | t => (false, t)

/-- A decimal literal, rounded to the nearest binary32 (R87); its integer part and its fraction part. DESIGN CHOICE (log
entry 10): R87 gives no grammar of a decimal literal; the model takes digits, or digits, a point and digits. -/
def readLiteral (negative : Bool) (parts : List (List Char)) : Option Word :=
  match parts with
  | [whole] => (readDecimal whole).map fun n => roundTo negative (n * unitsPerOne) 1
  | [whole, frac] =>
    match readDecimal whole, readDecimal frac with
    | some n, some m => some (roundTo negative ((n * 10 ^ frac.length + m) * unitsPerOne) (10 ^ frac.length))
    | _, _ => none
  | _ => none

/-- A float operand (R87). DESIGN CHOICE (log entry 10): the only sign of a decimal literal is one leading `-`. -/
def readFloat (t : List Char) : Option Word :=
  match readPattern t with
  | some w => some w
  | none => readLiteral (readSign t).1 (splitText '.' (readSign t).2)

/-- An integer operand that fits an s32 (R87, `00_scope.md` R13). DESIGN CHOICE (log entry 10): digits with at most one
leading `-`. -/
def readS32 (t : List Char) : Option Word :=
  match readSign t with
  | (true, u) => (readDecimal u).bind fun n => if n ≤ 2 ^ 31 then some (BitVec.ofInt 32 (-(n : Int))) else none
  | (false, u) => (readDecimal u).bind fun n => if n < 2 ^ 31 then some (BitVec.ofNat 32 n) else none

/-- An integer operand that fits ARG, in decimal or, as the mask is written in the spec's own examples, after `0x`
(R87; DESIGN CHOICE, log entry 10). -/
def readByte (t : List Char) : Option Byte :=
  let n := match hexDigits t with
    | some ds => if ds = [] then none else readDigits 16 0 ds
    | none => readDecimal t
  n.bind fun n => if n < 256 then some (BitVec.ofNat 8 n) else none

/-- The parameter a name of `10_state.md` R21 stands for. -/
def readName (t : List Char) : Option ParamId :=
  if t = ['r', 'a', 't', 'e'] then some .rate
  else if t = ['d', 'e', 'p', 't', 'h'] then some .depth
  else if t = ['d', 'e', 'l', 'a', 'y'] then some .delay
  else if t = ['f', 'e', 'e', 'd', 'b', 'a', 'c', 'k'] then some .feedback
  else if t = ['m', 'i', 'x'] then some .mix
  else none

/-- A parameter written by id or by name (R87). -/
def readParam (t : List Char) : Option Byte :=
  match readName t with
  | some i => some (idOfName (some i))
  | none => readByte t

/-- Every operand read as a float. -/
def readFloats : List (List Char) → Option (List Word)
  | [] => some []
  | t :: ts =>
    match readFloat t, readFloats ts with
    | some v, some vs => some (v :: vs)
    | _, _ => none

/-- A mapping `name=value, ...` (R88 (b)). -/
def readMapping : List (List Char) → Option (List (Option ParamId × Word))
  | [] => some []
  | t :: ts =>
    match splitText '=' t with
    | [name, value] =>
      match readFloat (trimText value), readMapping ts with
      | some v, some rest => some ((readName (trimText name), v) :: rest)
      | _, _ => none
    | _ => none

/-- The commands of a mnemonic with its operands (R87, R88); `none` where the line is not of the syntax. -/
def readCommand (mnemonic : String) (ops : List (List Char)) : Option (List Instr) :=
  if mnemonic = "NOP" then if ops = [] then some [.nop] else none
  else if mnemonic = "RESET" then if ops = [] then some [.reset] else none
  else if mnemonic = "GETST" then if ops = [] then some [.getst] else none
  else if mnemonic = "GETSTATE" then if ops = [] then some [pseudoGetState] else none
  else if mnemonic = "STAT" then if ops = [] then some [.stat] else none
  else if mnemonic = "FRAME" then
    (readFloats ops).bind fun xs => if xs = [] ∨ xs.length > 255 then none else some [.frame xs]
  else if mnemonic = "SETSTATE" then (readMapping ops).map fun m => [pseudoSetState m]
  else
    match ops with
    | [a] =>
      if mnemonic = "GETP" then (readParam a).map fun id => [.getp id]
      else if mnemonic = "GETPARAMETER" then some [pseudoGetParameter (readName a)]
      else none
    | [a, b] =>
      if mnemonic = "PREPARE" then
        (readFloat a).bind fun r => (readS32 b).map fun m => [.prepare r m]
      else if mnemonic = "SETP" then (readParam a).bind fun id => (readFloat b).map fun v => [.setp id v]
      else if mnemonic = "SETPARAMETER" then (readFloat b).map fun v => [pseudoSetParameter (readName a) v]
      else if mnemonic = "BEGIN" then (readByte a).bind fun c => (readS32 b).map fun n => [.begin c n]
      else if mnemonic = "PROCESS" then
        (readByte a).bind fun c => (readDecimal b).bind fun n => pseudoProcess c n []
      else none
    | a :: b :: rest =>
      if mnemonic = "SETST" then
        match readByte a, readFloats (b :: rest) with
        | some mask, some [v0, v1, v2, v3, v4] => some [.setst mask v0 v1 v2 v3 v4]
        | _, _ => none
      else if mnemonic = "PROCESS" then
        (readByte a).bind fun c => (readDecimal b).bind fun n => (readFloats rest).bind fun xs => pseudoProcess c n xs
      else none
    | [] => none

/-- The characters up to the first space, and the rest. -/
def firstWord : List Char → List Char × List Char
  | [] => ([], [])
  | c :: cs => if c = ' ' then ([], cs) else ((c :: (firstWord cs).1), (firstWord cs).2)

/-- The operands of a command: none if nothing follows the mnemonic, else the texts between commas. -/
def operandTexts (t : List Char) : List (List Char) :=
  if trimText t = [] then [] else (splitText ',' t).map trimText

/-- The port a line names and the line without the name (R87). -/
def readPrefix : List Char → Option Port × List Char
  | 'C' :: 'P' :: ':' :: t => (some .cp, trimText t)
  | 'A' :: 'P' :: ':' :: t => (some .ap, trimText t)
  | t => (none, t)

/-- A line without its comment (R87: `#` starts a comment) and its outer spaces. -/
def lineText (line : List Char) : List Char := trimText ((splitText '#' line).headD [])

/-- One line of assembler text as commands, each with the port it is issued on: the port named, else the command's
home port (R87). A blank line is no command; `none` where the line is not of the syntax. -/
def assembleLine (line : List Char) : Option (List (Port × Instr)) :=
  let (port, text) := readPrefix (lineText line)
  if text = [] then some []
  else
    (readCommand (String.ofList (firstWord text).1) (operandTexts (firstWord text).2)).map fun is =>
      is.map fun i => (port.getD i.opcode.homePort, i)

end Sys2Proof.Machine
end

