-- ==== Sys2Proof/Safety.lean ====
section
/-! DEFINITION. The terms claims about a safe run use: the invariants of `10_state.md` R40 and R22, what a response
says, and what "no error recorded" means. -/

namespace Sys2Proof.Machine

/-- `LO[i] <= v <= HI[i]`, hence no NaN and no infinity, and never `-0` but for `feedback` (`10_state.md` R22). -/
def paramInRange (i : ParamId) (v : Word) : Bool :=
  fle i.lo v && fle v i.hi && (decide (i = .feedback) || decide (v ≠ negZero))

/-- The range invariant of a register file (`10_state.md` R22, R40 (a)). -/
def Params.inRange (p : Params) : Bool := ParamId.all.all fun i => paramInRange i (p.get i)

/-- What holds once a PREPARE has succeeded (`10_state.md` R40 (d) with R25 to R31, R34). -/
structure State.Configured (s : State) : Prop where
  /-- `2 <= CAP`. -/
  two_le_cap : 2 ≤ s.cap
  /-- `CAP <= BUFDEPTH`. -/
  cap_le_depth : s.cap ≤ Config.cfg.bufdepth
  /-- `CAP = ceil_int(MAXD) + MARGIN`. -/
  cap_eq : capacityOf Config.cfg s.maxd = some s.cap
  /-- `EXCS` is the excursion at `FS` (R27). -/
  excs_eq : s.excs = excursionSamples Config.cfg s.fs
  /-- `MAXD` is the maximum delay at `FS` (R28). -/
  maxd_eq : s.maxd = maxDelaySamples Config.cfg s.fs
  /-- `FS_MIN <= FS`. -/
  fsMin_le : fle Config.cfg.fsMin s.fs = true
  /-- `FS < +infinity`. -/
  fs_finite : isFinite s.fs = true
  /-- `MAXBLK >= 1`. -/
  one_le_maxblk : 1 ≤ s32 s.maxblk
  /-- `REMAIN <= MAXBLK`. -/
  remain_le : (s.remain : Int) ≤ s32 s.maxblk
  /-- `W[c] < CAP` for every `c`. -/
  cursor_lt : ∀ l ∈ s.lines, l.w < s.cap
  /-- Every `BUF[c][a]` with `a < CAP` holds a word. -/
  written : ∀ l ∈ s.lines, ∀ a < s.cap, (l.buf.read a).isSome = true

/-- The invariants that hold after hardware reset and after every command (`10_state.md` R40), with the widths of
R20 and the canonical form of the delay RAM. -/
structure State.Inv (s : State) : Prop where
  /-- R40 (a) for `PARAM`. -/
  param_inRange : s.param.inRange = true
  /-- R40 (a) for `SNAP`. -/
  snap_inRange : s.snap.inRange = true
  /-- There are `NCH` lines. -/
  lines_length : s.lines.length = Config.cfg.nch
  /-- Every delay RAM has its canonical form. -/
  memory_wf : ∀ l ∈ s.lines, l.buf.wf = true
  /-- Every delay RAM cell has an address in `0..BUFDEPTH-1`. -/
  memory_depth : ∀ l ∈ s.lines, ∀ cell ∈ l.buf, cell.1 < Config.cfg.bufdepth
  /-- Every cursor is in `0..BUFDEPTH-1`. -/
  cursor_depth : ∀ l ∈ s.lines, l.w < Config.cfg.bufdepth
  /-- `BLKCH` is in `0..NCH` (R33). -/
  blkch_le : s.blkch ≤ Config.cfg.nch
  /-- R40 (c). -/
  uninit : s.eng = .uninit → s.cap = 0 ∧ s.remain = 0 ∧ s.fs = posZero
  /-- R40 (d). -/
  configured : s.eng ≠ .uninit → s.Configured
  /-- R40 (e). -/
  block_open : s.remain ≠ 0 → 1 ≤ s.blkch ∧ s.blkch ≤ Config.cfg.nch ∧ s.eng = .processing

/-- `CODE` of a response: bits 7:0 of its first word (`30_encoding.md` R84); `none` for no response. -/
def responseCode (r : Packet) : Option Byte :=
  match r with
  | [] => none
  | status :: _ => some (status.extractLsb' 0 8)

/-- The response says `OK` (`30_encoding.md` R85). -/
def succeeded (r : Packet) : Prop := responseCode r = some 0

/-- "no error has occurred since reset": `STATUS[14:8] = 0` (`10_state.md` R35, `60_exceptions.md` R223). -/
def State.noErrorRecorded (s : State) : Prop := s.sticky = 0

/-- The word at an address of channel `c`'s delay RAM; `none` where nothing has been written or there is no channel. -/
def State.ram (s : State) (c a : Nat) : Option Word := (s.lines[c]?).bind fun l => l.buf.read a

/-- The write cursor `W[c]`; `none` where there is no channel. -/
def State.cursor (s : State) (c : Nat) : Option Nat := (s.lines[c]?).map Line.w

/-! ### Rounding and the waveform, as statements about them say it -/

/-- `r` is `RN` of the real number `n / d` units of `2^-149` with a sign (`40_numerics.md` R101): it has the sign; it is
an infinity exactly from `2^128 - 2^103 = (2^25 - 1) * 2^103` up; and else it is finite, no finite value is nearer, and
where another magnitude is as near its own fraction bit 0 is 0. -/
def IsRounding (r : Word) (negative : Bool) (n d : Nat) : Prop :=
  signBit r = negative ∧
  (isInf r = true ↔ (2 ^ 25 - 1) * 2 ^ 252 * d ≤ n) ∧
  (n < (2 ^ 25 - 1) * 2 ^ 252 * d →
    isFinite r = true ∧
    ∀ v : Word, isFinite v = true →
      ((n : Int) - magUnits r * d).natAbs ≤ ((n : Int) - magUnits v * d).natAbs ∧
      (((n : Int) - magUnits v * d).natAbs = ((n : Int) - magUnits r * d).natAbs →
        magUnits v ≠ magUnits r → r.getLsbD 0 = false))

/-- `Q[0..64]` copied once more from the table of `42_oscillator.md` R155, one list for each of its four columns, so
that a statement about the waveform does not read the model's own table. -/
def writtenQuarterWave : List Word :=
  [0x00000000, 0x3CC90AB0, 0x3D48FB30, 0x3D96A905, 0x3DC8BD36, 0x3DFAB273, 0x3E164083, 0x3E2F10A2, 0x3E47C5C2,
   0x3E605C13, 0x3E78CFCC, 0x3E888E93, 0x3E94A031, 0x3EA09AE5, 0x3EAC7CD4, 0x3EB8442A, 0x3EC3EF15] ++
  [0x3ECF7BCA, 0x3EDAE880, 0x3EE63375, 0x3EF15AEA, 0x3EFC5D27, 0x3F039C3D, 0x3F08F59B, 0x3F0E39DA, 0x3F13682A,
   0x3F187FC0, 0x3F1D7FD1, 0x3F226799, 0x3F273656, 0x3F2BEB4A, 0x3F3085BB, 0x3F3504F3, 0x3F396842] ++
  [0x3F3DAEF9, 0x3F41D870, 0x3F45E403, 0x3F49D112, 0x3F4D9F02, 0x3F514D3D, 0x3F54DB31, 0x3F584853, 0x3F5B941A,
   0x3F5EBE05, 0x3F61C598, 0x3F64AA59, 0x3F676BD8, 0x3F6A09A7, 0x3F6C835E, 0x3F6ED89E, 0x3F710908] ++
  [0x3F731447, 0x3F74FA0B, 0x3F76BA07, 0x3F7853F8, 0x3F79C79D, 0x3F7B14BE, 0x3F7C3B28, 0x3F7D3AAC, 0x3F7E1324,
   0x3F7EC46D, 0x3F7F4E6D, 0x3F7FB10F, 0x3F7FEC43, 0x3F800000]

/-! ### Which error a command ends with (`60_exceptions.md` R221, R224) -/

/-- The causes of `E_STATE` (R221). -/
def stateError (i : Instr) (s : State) : Bool :=
  match i with
  | .begin _ _ => decide (s.eng = .uninit)
  | .frame _ => decide (s.remain = 0)
  | .nop => false
  | .prepare _ _ => false
  | .reset => false
  | .setp _ _ => false
  | .getp _ => false
  | .setst _ _ _ _ _ _ => false
  | .getst => false
  | .stat => false

/-- The causes of `E_BUSY` (R221). -/
def busyError (i : Instr) (s : State) : Bool :=
  match i with
  | .prepare _ _ => decide (s.remain ≠ 0)
  | .reset => decide (s.remain ≠ 0)
  | .begin _ _ => decide (s.remain ≠ 0)
  | .nop => false
  | .setp _ _ => false
  | .getp _ => false
  | .setst _ _ _ _ _ _ => false
  | .getst => false
  | .stat => false
  | .frame _ => false

/-- `ceil_int(maxd) + MARGIN > BUFDEPTH` at a sample rate (R221, `45_engine_commands.md` R193); a `maxd` too large for
binary32 exceeds every depth. -/
def exceedsDepth (sampleRate : Word) : Bool :=
  match ceilInt (msToSamples (fadd hundred Config.cfg.excMs) sampleRate) with
  | some n => decide (n + Config.cfg.margin > Config.cfg.bufdepth)
  | none => true

/-- The argument check that fails first (R221, R224 (4)). -/
def argumentError (i : Instr) (s : State) : Option ErrCode :=
  match i with
  | .prepare sampleRate maxBlockSize =>
    if isNaN sampleRate ∨ fle sampleRate posZero ∨ sampleRate = posInf ∨ flt sampleRate Config.cfg.fsMin ∨
        maxBlockSize.toInt ≤ 0 ∨ exceedsDepth sampleRate then some .config
    else none
  | .begin numChannels numSamples =>
    if numChannels.toNat = 0 ∨ Config.cfg.nch < numChannels.toNat ∨ numSamples.toInt < 0 ∨
        s.maxblk.toInt < numSamples.toInt then some .badArg
    else none
  | .frame samples => if samples.length ≠ s.blkch then some .badArg else none
  | .setp id value => if 4 < id.toNat then some .unknown else if isNaN value then some .malformed else none
  | .getp id => if 4 < id.toNat then some .unknown else none
  | .setst mask v0 v1 v2 v3 v4 =>
    if (mask.getLsbD 0 ∧ isNaN v0) ∨ (mask.getLsbD 1 ∧ isNaN v1) ∨ (mask.getLsbD 2 ∧ isNaN v2) ∨
        (mask.getLsbD 3 ∧ isNaN v3) ∨ (mask.getLsbD 4 ∧ isNaN v4) then some .malformed
    else none
  | .nop => none
  | .reset => none
  | .getst => none
  | .stat => none

/-- The one code a command reports, the checks made in the order of R224: `E_ILLEGAL`, `E_STATE`, `E_BUSY`, then the
arguments. -/
def firstError (p : Port) (packet : Packet) (s : State) : Option ErrCode :=
  match decode p packet with
  | .error _ => some .illegal
  | .ok i => if stateError i s then some .state else if busyError i s then some .busy else argumentError i s

/-! ### Sequences of commands -/

/-- The state after a list of commands executed one after another; `none` if one of them stops. -/
def execAll : List Instr → State → Option State
  | [], s => some s
  | i :: is, s =>
    match exec i s with
    | .next t => execAll is t
    | .fault _ => none
    | .refused _ => none

/-- The value a command writes to parameter `i`, before the clamp: SETP of the id, or SETST with `mask[i] = 1`, with a
non-NaN value (`41_parameter_commands.md` R135). -/
def acceptedWrite (i : ParamId) : Instr → Option Word
  | .setp id value => if id.toNat = i.num ∧ isNaN value = false then some value else none
  | .setst mask v0 v1 v2 v3 v4 =>
    let v := (Params.mk v0 v1 v2 v3 v4).get i
    if mask.getLsbD i.num = true ∧ isNaN v = false then some v else none
  | .nop => none
  | .prepare _ _ => none
  | .reset => none
  | .getp _ => none
  | .getst => none
  | .stat => none
  | .begin _ _ => none
  | .frame _ => none

/-- The value of the last accepted write to parameter `i` in a list of commands (`41_parameter_commands.md` R135). -/
def lastAccepted (i : ParamId) : List Instr → Option Word
  | [] => none
  | c :: cs =>
    match lastAccepted i cs with
    | some v => some v
    | none => acceptedWrite i c

end Sys2Proof.Machine
end

