-- ==== Sys2Proof/Certificates/Slice0/Obligations.lean ====
section
/-! DEFINITION. The statements about the model. Each docstring names the rule of spec/ it formalises. Status words and
flags are written as the numbers the rules give: `0x04` is `E_CONFIG` with INFO 0, `1 <<< 3` its sticky flag. -/

open Sys2Proof Sys2Proof.Machine

/-! ### Configuration -/

/-- `00_scope.md` R9: the members of `CFG` have the values for this hardware, which meet the constraints of R9 and of the
last table of `92_eei_decisions.md`; and the machine is the one that takes `CFG` as an argument, at those values. -/
def Obligations.ConfigurationOfThisHardware : Prop :=
  (Config.cfg.nch = 2 ∧ Config.cfg.bufdepth = 32768 ∧ Config.cfg.excMs = 0x41200000 ∧ Config.cfg.margin = 1 ∧
    Config.cfg.fsMin = 0x3F800000 ∧ Config.cfg.sine = sineTable ∧ Config.cfg.num = binary32) ∧
  Config.cfg.Valid ∧
  (∀ (i : Instr) (s : State), exec i s = execUnder Config.cfg i s) ∧
  (∀ s : State, step s = stepUnder Config.cfg s) ∧
  State.reset = State.resetUnder Config.cfg

/-! ### Encoding -/

/-- `30_encoding.md` R81 with R72: `decode(home port, encode(cmd)) = cmd`, `encode(decode(port, p)) = p`, and the
header is `ARG * 2^8 + OPC` with `RSV = 0`. -/
def Obligations.DecodeEncodeRoundTrip : Prop :=
  (∀ (i : Instr) (p : Port), i.wf = true → p ∈ i.opcode.homePorts → decode p (encode i) = .ok i) ∧
  (∀ (i : Instr) (p : Port) (packet : Packet), decode p packet = .ok i → encode i = packet ∧ i.wf = true) ∧
  (∀ i : Instr, ∃ h, encode i = h :: i.operands ∧ h.toNat = i.arg.toNat * 2 ^ 8 + i.opcode.byte.toNat)

/-- `30_encoding.md` R78: the checks (a) to (f) in their order, and what an illegal packet does. -/
def Obligations.IllegalPacketChecks : Prop :=
  (∀ p, decode p [] = .error .emptyPacket) ∧
  (∀ (p : Port) (h : Word) (ops : List Word),
    (h.extractLsb' 16 16 ≠ 0 → decode p (h :: ops) = .error .reservedHeaderBits) ∧
    (h.extractLsb' 16 16 = 0 →
      (h.extractLsb' 0 8 ∉ [0x00#8, 0x01#8, 0x02#8, 0x03#8, 0x04#8, 0x05#8, 0x06#8, 0x07#8, 0x10#8, 0x11#8] →
        decode p (h :: ops) = .error .reservedOpcode) ∧
      (∀ o : Opcode, h.extractLsb' 0 8 = o.byte →
        (p ∉ o.homePorts → decode p (h :: ops) = .error .wrongPort) ∧
        (p ∈ o.homePorts →
          (ops.length ≠ o.nops (h.extractLsb' 8 8) → decode p (h :: ops) = .error .operandCount) ∧
          (ops.length = o.nops (h.extractLsb' 8 8) →
            (o ∈ [.nop, .prepare, .reset, .getst, .stat] → h.extractLsb' 8 8 ≠ 0 →
              decode p (h :: ops) = .error .argumentNotZero) ∧
            ((o ∈ [.nop, .prepare, .reset, .getst, .stat] → h.extractLsb' 8 8 = 0) →
              ∃ i, decode p (h :: ops) = .ok i ∧ i.opcode = o)))))) ∧
  (∀ (p : Port) (packet : Packet) (s : State) (e : Illegal), decode p packet = .error e →
    runPacket exec p packet s =
      .next { s with sticky := s.sticky ||| (1 <<< 0), response := [0x00000001] })

/-- `30_encoding.md` R72 to R77: packets written out from the encoding tables decode to the commands they stand for. -/
def Obligations.WrittenOutPacketsDecode : Prop :=
  decode .ap [0x00000000] = .ok .nop ∧
  decode .cp [0x00000001, 0x473B8000, 0x00000200] = .ok (.prepare 0x473B8000 0x00000200) ∧
  decode .cp [0x00000002] = .ok .reset ∧
  decode .cp [0x00000403, 0x3FC00000] = .ok (.setp 4 0x3FC00000) ∧
  decode .cp [0x00000204] = .ok (.getp 2) ∧
  decode .cp [0x00001305, 0x40000000, 0x3F000000, 0x00000000, 0x00000000, 0x7FC00001] =
    .ok (.setst 0x13 0x40000000 0x3F000000 0x00000000 0x00000000 0x7FC00001) ∧
  decode .cp [0x00000006] = .ok .getst ∧
  decode .cp [0x00000007] = .ok .stat ∧
  decode .ap [0x00000210, 0x00000200] = .ok (.begin 2 0x00000200) ∧
  decode .ap [0x00000211, 0x3F000000, 0xBE800000] = .ok (.frame [0x3F000000, 0xBE800000])

/-- `20_memory.md` R55: a word is serialised into bytes bits 7:0 first, the words of a packet in their order; and the
bytes are read back as the same packet. That there is a function that reads bytes back, and that the four bytes of each
word follow each other without framing, is the model's choice (log entry 11). -/
def Obligations.TransportRoundTrip : Prop :=
  (∀ w : Word, packetBytes [w] = [w.extractLsb' 0 8, w.extractLsb' 8 8, w.extractLsb' 16 8, w.extractLsb' 24 8]) ∧
  (∀ (w : Word) (rest : Packet), packetBytes (w :: rest) = packetBytes [w] ++ packetBytes rest) ∧
  (∀ packet : Packet, packetOfBytes (packetBytes packet) = some packet ∧
    (packetBytes packet).length = 4 * packet.length)

/-- `30_encoding.md` R88 (a): `PROCESS nch, n, samples` is one BEGIN and `n` FRAMEs of `nch` samples that carry the
samples in the order given. -/
def Obligations.ProcessExpandsToBlock : Prop :=
  ∀ (nch : Byte) (n : Nat) (samples : List Word), samples.length = nch.toNat * n → n < 2 ^ 31 →
    ∃ frames : List (List Word), pseudoProcess nch n samples =
        some (.begin nch (BitVec.ofNat 32 n) :: frames.map Instr.frame) ∧
      frames.length = n ∧ (∀ f ∈ frames, f.length = nch.toNat) ∧ frames.flatten = samples

/-! ### Numerics -/

/-- `40_numerics.md` R100: the fields of a word, its class, and its value: the signed fraction for `e = 0`, and
`(2^23 + m) * 2^(e-150)` for `1 <= e <= 254`, both in units of `2^-149`. -/
def Obligations.FloatFormat : Prop :=
  ∀ w : Word,
    signBit w = w.getLsbD 31 ∧
    (isNaN w = true ↔ w.toNat / 2 ^ 23 % 2 ^ 8 = 255 ∧ w.toNat % 2 ^ 23 ≠ 0) ∧
    (isInf w = true ↔ w = 0x7F800000 ∨ w = 0xFF800000) ∧
    (isZero w = true ↔ w = 0x00000000 ∨ w = 0x80000000) ∧
    (isFinite w = true ↔ w.toNat / 2 ^ 23 % 2 ^ 8 ≠ 255) ∧
    (w.toNat / 2 ^ 23 % 2 ^ 8 = 0 → magUnits w = w.toNat % 2 ^ 23) ∧
    (1 ≤ w.toNat / 2 ^ 23 % 2 ^ 8 → w.toNat / 2 ^ 23 % 2 ^ 8 ≤ 254 →
      magUnits w * 2 = (2 ^ 23 + w.toNat % 2 ^ 23) * 2 ^ (w.toNat / 2 ^ 23 % 2 ^ 8)) ∧
    units w = (if w.getLsbD 31 then -1 else 1) * (magUnits w : Int)

/-- `40_numerics.md` R107: the comparisons compare values, an infinity's lying beyond every finite one; both zeros are
equal; a comparison with a NaN is false; and what `isfinite` tests. -/
def Obligations.ComparisonsCompareValues : Prop :=
  (∀ a b : Word,
    (flt a b = true ↔ isNaN a = false ∧ isNaN b = false ∧ units a < units b) ∧
    (fle a b = true ↔ isNaN a = false ∧ isNaN b = false ∧ units a ≤ units b) ∧
    (fgt a b = true ↔ isNaN a = false ∧ isNaN b = false ∧ units b < units a) ∧
    (fge a b = true ↔ isNaN a = false ∧ isNaN b = false ∧ units b ≤ units a) ∧
    (feq a b = true ↔ isNaN a = false ∧ isNaN b = false ∧ units a = units b)) ∧
  (∀ x : Word, isFinite x = true → units 0xFF800000 < units x ∧ units x < units 0x7F800000) ∧
  feq 0x00000000 0x80000000 = true ∧ fle 0x00000000 0x80000000 = true ∧
  (∀ a b : Word, isNaN a = true ∨ isNaN b = true →
    flt a b = false ∧ fle a b = false ∧ fgt a b = false ∧ fge a b = false ∧ feq a b = false) ∧
  (∀ w : Word, isFinite w = true ↔ w.extractLsb' 23 8 ≠ 255)

/-- `40_numerics.md` R101: `RN` of `n / d` units of `2^-149` is the nearest binary32 value, the even pattern on a tie,
the infinity exactly from `2^128 - 2^103 = (2^25 - 1) * 2^103` up, with the sign given, a result of zero included
(`IsRounding`). -/
def Obligations.RoundingIsNearestEven : Prop :=
  ∀ (negative : Bool) (n d : Nat), 0 < d → IsRounding (roundTo negative n d) negative n d

/-- `40_numerics.md` R102, R103: `fadd` of two finite values is the exact real sum, rounded once; an exact sum of zero is
`+0` but for two zeros `-0`; a NaN operand and infinities of unlike sign give the canonical NaN, an infinity and a finite
value or the same infinity give that infinity. `neg` flips bit 31, and `fsub` adds the negation. -/
def Obligations.AdditionRoundsExactSum : Prop :=
  (∀ a b : Word, isNaN a = true ∨ isNaN b = true → fadd a b = 0x7FC00000) ∧
  fadd 0x7F800000 0xFF800000 = 0x7FC00000 ∧ fadd 0xFF800000 0x7F800000 = 0x7FC00000 ∧
  (∀ i x : Word, isInf i = true → isFinite x = true ∨ x = i → fadd i x = i ∧ fadd x i = i) ∧
  (∀ a b : Word, isFinite a = true → isFinite b = true →
    (units a + units b ≠ 0 →
      IsRounding (fadd a b) (decide (units a + units b < 0)) (units a + units b).natAbs 1) ∧
    (units a + units b = 0 →
      fadd a b = if a = 0x80000000 ∧ b = 0x80000000 then 0x80000000 else 0x00000000)) ∧
  (∀ x : Word, isNaN x = false →
    (x ≠ 0x80000000 → fadd x 0x00000000 = x) ∧ fadd x 0x80000000 = x ∧ neg x = x ^^^ 0x80000000) ∧
  (∀ x : Word, isNaN x = true → neg x = 0x7FC00000) ∧
  (∀ x : Word, isFinite x = true → fadd x (neg x) = 0x00000000 ∧ fsub x x = 0x00000000) ∧
  (∀ a b : Word, fsub a b = fadd a (neg b)) ∧ fsub 0x3F800000 0x00000000 = 0x3F800000

/-- `40_numerics.md` R104: `fmul` of two finite values is the exact real product, rounded once, with the exclusive or of
the signs; a NaN operand and zero times infinity give the canonical NaN, infinity times another value is infinity. -/
def Obligations.MultiplicationRoundsExactProduct : Prop :=
  (∀ a b : Word, isNaN a = true ∨ isNaN b = true → fmul a b = 0x7FC00000) ∧
  (∀ a b : Word, isZero a = true → isInf b = true → fmul a b = 0x7FC00000 ∧ fmul b a = 0x7FC00000) ∧
  (∀ a b : Word, isInf a = true → isNaN b = false → isZero b = false →
    isInf (fmul a b) = true ∧ signBit (fmul a b) = (signBit a ^^ signBit b) ∧
    isInf (fmul b a) = true ∧ signBit (fmul b a) = (signBit a ^^ signBit b)) ∧
  (∀ a b : Word, isFinite a = true → isFinite b = true →
    IsRounding (fmul a b) (signBit a ^^ signBit b) (magUnits a * magUnits b) (2 ^ 149)) ∧
  (∀ x : Word, isNaN x = false →
    fmul 0x3F800000 x = x ∧ fmul x 0x3F800000 = x ∧ fmul 0xBF800000 x = neg x) ∧
  (∀ x : Word, isFinite x = true →
    fmul 0x00000000 x = if signBit x then 0x80000000 else 0x00000000)

/-- `40_numerics.md` R105: `fdiv` of a finite value by a finite non-zero value is the exact real quotient, rounded once,
with the exclusive or of the signs; a NaN operand, `0 / 0` and `inf / inf` give the canonical NaN; a non-zero value over
zero is an infinity, a finite value over infinity a zero. That an infinity over a finite non-zero value is an infinity is
the model's reading of R105's last clause (log entry 5). -/
def Obligations.DivisionRoundsExactQuotient : Prop :=
  (∀ a b : Word, isNaN a = true ∨ isNaN b = true → fdiv a b = 0x7FC00000) ∧
  (∀ a b : Word, isZero a = true → isZero b = true → fdiv a b = 0x7FC00000) ∧
  (∀ a b : Word, isInf a = true → isInf b = true → fdiv a b = 0x7FC00000) ∧
  (∀ a b : Word, isNaN a = false → isZero a = false → isZero b = true →
    isInf (fdiv a b) = true ∧ signBit (fdiv a b) = (signBit a ^^ signBit b)) ∧
  (∀ a b : Word, isFinite a = true → isInf b = true →
    isZero (fdiv a b) = true ∧ signBit (fdiv a b) = (signBit a ^^ signBit b)) ∧
  (∀ a b : Word, isFinite a = true → isFinite b = true → isZero b = false →
    IsRounding (fdiv a b) (signBit a ^^ signBit b) (magUnits a * 2 ^ 149) (magUnits b)) ∧
  (∀ a b : Word, isInf a = true → isFinite b = true →
    isInf (fdiv a b) = true ∧ signBit (fdiv a b) = (signBit a ^^ signBit b))

/-- `40_numerics.md` R106: whatever NaN an operation produces is 0x7FC00000. -/
def Obligations.ProducedNaNsAreCanonical : Prop :=
  ∀ a b c : Word,
    (isNaN (fadd a b) = true → fadd a b = 0x7FC00000) ∧
    (isNaN (fsub a b) = true → fsub a b = 0x7FC00000) ∧
    (isNaN (fmul a b) = true → fmul a b = 0x7FC00000) ∧
    (isNaN (fdiv a b) = true → fdiv a b = 0x7FC00000) ∧
    (isNaN (neg a) = true → neg a = 0x7FC00000) ∧
    (isNaN (blend a b c) = true → blend a b c = 0x7FC00000)

/-- `40_numerics.md` R114 (L1) to (L4), with R102's and R104's consequences for `neg`. -/
def Obligations.ArithmeticLaws : Prop :=
  (∀ x : Word, isNaN x = false →
    fmul 0x3F800000 x = x ∧ fmul x 0x3F800000 = x ∧ fmul 0xBF800000 x = neg x ∧ fadd x 0x80000000 = x ∧
    (x ≠ 0x80000000 → fadd x 0x00000000 = x)) ∧
  (∀ x : Word, isFinite x = true → fsub x x = 0x00000000) ∧
  fsub 0x3F800000 0x00000000 = 0x3F800000 ∧
  (∀ b : Word, isFinite b = true → flt 0x00000000 b = true → fdiv 0x00000000 b = 0x00000000)

/-- `40_numerics.md` R108, R114 (L6): the result of `clamp` lies within the bounds, is the bound's own pattern where
`v` is at or beyond it, is `v` otherwise, and grows with `v`. -/
def Obligations.ClampStaysWithinBounds : Prop :=
  ∀ v u lo hi : Word, isNaN v = false → isNaN u = false → isFinite lo = true → isFinite hi = true →
    fle lo hi = true →
    fle lo (clamp v lo hi) = true ∧ fle (clamp v lo hi) hi = true ∧
    (units v ≤ units lo → clamp v lo hi = lo) ∧
    (units lo < units v → units hi ≤ units v → clamp v lo hi = hi) ∧
    (units lo < units v → units v < units hi → clamp v lo hi = v) ∧
    (fle v u = true → fle (clamp v lo hi) (clamp u lo hi) = true)

/-- `40_numerics.md` R109: the facts about `blend` at the weights 0 and 1 and on an empty line. -/
def Obligations.BlendAtItsEnds : Prop :=
  (∀ p q : Word, isFinite p = true → isFinite q = true →
    blend 0x00000000 p q = (if p = 0x80000000 ∧ signBit q = false then 0x00000000 else p) ∧
    blend 0x3F800000 p q = (if q = 0x80000000 ∧ signBit p = false then 0x00000000 else q)) ∧
  (∀ w : Word, isFinite w = true → blend w 0x00000000 0x00000000 = 0x00000000) ∧
  (∀ p q : Word, isFinite q = false → blend 0x00000000 p q = 0x7FC00000)

/-- `40_numerics.md` R110: `floor_int` and `ceil_int` bracket their argument, `float(n)` and `frac24(n)` are exact. -/
def Obligations.IntegerConversionsAreExact : Prop :=
  (∀ v : Word, isFinite v = true → ∃ lo hi : Int, floorInt v = some lo ∧ ceilInt v = some hi ∧
    lo * 2 ^ 149 ≤ units v ∧ units v < (lo + 1) * 2 ^ 149 ∧ (hi - 1) * 2 ^ 149 < units v ∧ units v ≤ hi * 2 ^ 149) ∧
  (∀ n : Nat, n < 2 ^ 24 →
    isFinite (floatOfNat n) = true ∧ units (floatOfNat n) = (n : Int) * 2 ^ 149 ∧
    isFinite (frac24 n) = true ∧ units (frac24 n) * 2 ^ 24 = (n : Int) * 2 ^ 149)

/-- `40_numerics.md` R114 (L5), `43_delay_line.md` R165: `fsub(d, float(floor_int(d)))` is exact and lies in [0, 1). -/
def Obligations.DelaySplitIsExact : Prop :=
  ∀ d : Word, isFinite d = true → fle 0x3F800000 d = true → units d < 2 ^ 24 * 2 ^ 149 →
    ∃ (di : Nat) (df : Word), splitDelay Config.cfg d = .ok (di, df) ∧ 1 ≤ di ∧ isFinite df = true ∧
      units d = (di : Int) * 2 ^ 149 + units df ∧ 0 ≤ units df ∧ units df < 2 ^ 149

/-! ### Oscillator -/

/-- `42_oscillator.md` R153 (S2), (S3), R154, R155: the waveform stays in [-1, 1] and is no NaN, is `+0` at phase 0 and
exact at the quarter points; at every phase `k * 2^24` it is `S(k)`, the table of R155 mirrored and negated as R154 says;
and between two such phases it is their interpolation by the low 24 bits of the phase, with the four roundings of
`40_numerics.md` R109, clamped to [-1, 1]. -/
def Obligations.SineKeepsItsContract : Prop :=
  (∀ p : BitVec 32, isNaN (Config.cfg.sine p) = false ∧ fle 0xBF800000 (Config.cfg.sine p) = true ∧
    fle (Config.cfg.sine p) 0x3F800000 = true) ∧
  Config.cfg.sine 0x00000000 = 0x00000000 ∧ Config.cfg.sine 0x40000000 = 0x3F800000 ∧
  Config.cfg.sine 0x80000000 = 0x00000000 ∧ Config.cfg.sine 0xC0000000 = 0xBF800000 ∧
  (∀ k : Nat,
    (k ≤ 64 → Config.cfg.sine (BitVec.ofNat 32 (k * 2 ^ 24)) = writtenQuarterWave.getD k 0) ∧
    (64 < k → k ≤ 128 → Config.cfg.sine (BitVec.ofNat 32 (k * 2 ^ 24)) = writtenQuarterWave.getD (128 - k) 0) ∧
    (128 < k → k ≤ 192 → Config.cfg.sine (BitVec.ofNat 32 (k * 2 ^ 24)) =
      writtenQuarterWave.getD (k - 128) 0 ^^^ 0x80000000) ∧
    (192 < k → k ≤ 255 → Config.cfg.sine (BitVec.ofNat 32 (k * 2 ^ 24)) =
      writtenQuarterWave.getD (256 - k) 0 ^^^ 0x80000000)) ∧
  (∀ (k m : Nat) (f v : Word), k < 2 ^ 8 → m < 2 ^ 24 → isFinite f = true → signBit f = false →
    units f * 2 ^ 24 = (m : Int) * 2 ^ 149 →
    v = fadd (fmul (fsub 0x3F800000 f) (Config.cfg.sine (BitVec.ofNat 32 (k * 2 ^ 24))))
      (fmul f (Config.cfg.sine (BitVec.ofNat 32 ((k + 1) % 256 * 2 ^ 24)))) →
    Config.cfg.sine (BitVec.ofNat 32 (k * 2 ^ 24 + m)) =
      if fge v 0x3F800000 then 0x3F800000 else if fle v 0xBF800000 then 0xBF800000 else v)

/-- `42_oscillator.md` R154 with R155: at a phase between two entries of the waveform's table the value lies between the
values at the two entries, although each of the four operations of `blend` may round. -/
def Obligations.SineLiesBetweenItsEntries : Prop :=
  ∀ k m : Nat, k < 2 ^ 8 → m < 2 ^ 24 →
    let v := Config.cfg.sine (BitVec.ofNat 32 (k * 2 ^ 24 + m))
    let here := Config.cfg.sine (BitVec.ofNat 32 (k * 2 ^ 24))
    let next := Config.cfg.sine (BitVec.ofNat 32 ((k + 1) % 2 ^ 8 * 2 ^ 24))
    (fle here v = true ∧ fle v next = true) ∨ (fle next v = true ∧ fle v here = true)

/-- `42_oscillator.md` R151, R152: for a rate in range and an accepted sample rate the increment exists and is
`floor(q * 2^32) mod 2^32` of the rounded quotient, and the quotient lies in [0, 100]. -/
def Obligations.PhaseIncrementIsTruncatedQuotient : Prop :=
  ∀ rate fs : Word, paramInRange .rate rate = true → isFinite fs = true → fle 0x3F800000 fs = true →
    ∃ inc : BitVec 32, phaseIncrement Config.cfg rate fs = .ok inc ∧
      fle 0x00000000 (fdiv rate fs) = true ∧ fle (fdiv rate fs) 0x42C80000 = true ∧
      (inc.toNat : Int) = units (fdiv rate fs) * 2 ^ 32 / 2 ^ 149 % 2 ^ 32 ∧
      (rate = 0x00000000 → inc = 0)

/-- `42_oscillator.md` R156: with `SNAP[RATE] = +0` no frame moves the phase. -/
def Obligations.ZeroRateHoldsPhase : Prop :=
  ∀ (s t : State) (xs : List Word), s.Inv → s.snap.rate = 0x00000000 → exec (.frame xs) s = .next t →
    t.phase = s.phase

/-! ### Delay line -/

/-- `43_delay_line.md` R163: with `SNAP[DEPTH] = +0` the raw delay is the centre delay, whatever the oscillator. -/
def Obligations.ZeroDepthGivesCentreDelay : Prop :=
  ∀ s : State, s.Inv → s.eng ≠ .uninit → s.snap.depth = 0x00000000 → ∀ phase : BitVec 32,
    rawDelay Config.cfg s.snap.delay s.snap.depth s.fs s.excs (oscillatorValue Config.cfg phase) =
      fdiv (fmul s.snap.delay s.fs) 0x447A0000

/-- `43_delay_line.md` R169: for every frame `1 <= di` and `di + 1 <= CAP`; `a0 != W[c]`, and `a1 = W[c]` exactly when
`di + 1 = CAP`. -/
def Obligations.TapsStayInsideTheLine : Prop :=
  ∀ s : State, s.Inv → s.eng ≠ .uninit →
    ∃ (phase : BitVec 32) (f : FrameShared), frameShared Config.cfg s = .ok (phase, f) ∧
      1 ≤ f.di ∧ f.di + 1 ≤ s.cap ∧
      ∀ w < s.cap, tapAddress w f.di s.cap < s.cap ∧ tapAddress w (f.di + 1) s.cap < s.cap ∧
        tapAddress w f.di s.cap ≠ w ∧ (tapAddress w (f.di + 1) s.cap = w ↔ f.di + 1 = s.cap)

/-- `20_memory.md` R54: the word written `k` frames ago is at `(W[c] - k) mod CAP`: after `k` advances of the cursor
from `w`, the tap `k` back is at `w`. -/
def Obligations.TapFindsKthLastWord : Prop :=
  ∀ w k cap : Nat, w < cap → 1 ≤ k → k ≤ cap → tapAddress ((fun v => nextCursor v cap)^[k] w) k cap = w

/-- `45_engine_commands.md` R194, `20_memory.md` R68: `clear_lines` is the loop of `MemWrite(c, a, +0.0)` over
`a in 0..CAP-1` with `W[c] <- 0` for every channel, then `PHASE <- 0`. -/
def Obligations.ClearLinesIsTheWriteLoop : Prop :=
  ∀ s : State, (∀ l ∈ s.lines, l.buf.wf = true) →
    clearLines s =
      { s with
        lines := s.lines.map fun l =>
          { w := 0, buf := (List.range s.cap).foldl (fun m a => m.write a 0x00000000) l.buf }
        phase := 0 }

/-! ### Parameter Store commands -/

/-- `10_state.md` R21: the ranges and defaults of the five registers, in binary32. -/
def Obligations.ParameterTable : Prop :=
  ParamId.all.map (fun i => (i.num, i.lo, i.hi, State.reset.param.get i)) =
    [(0, 0x00000000, 0x42C80000, 0x00000000), (1, 0x00000000, 0x3F800000, 0x00000000),
     (2, 0x3F800000, 0x42C80000, 0x3F800000), (3, 0xBF800000, 0x3F800000, 0x00000000),
     (4, 0x00000000, 0x3F800000, 0x00000000)]

/-- `41_parameter_commands.md` R131: SETP, its encoding, its three outcomes and its corner cases. -/
def Obligations.SetpStoresClampedValue : Prop :=
  (∀ (id : Byte) (v : Word), encode (.setp id v) = [BitVec.ofNat 32 (3 + id.toNat * 2 ^ 8), v] ∧
    ∀ p, decode p (encode (.setp id v)) = .ok (.setp id v) ↔ p = .cp) ∧
  (∀ (id : Byte) (v : Word) (s : State),
    (4 < id.toNat → exec (.setp id v) s =
      .next { s with sticky := s.sticky ||| (1 <<< 5), response := [0x00000006] }) ∧
    (id.toNat ≤ 4 → isNaN v = true → exec (.setp id v) s =
      .next { s with sticky := s.sticky ||| (1 <<< 6), response := [0x00000007] }) ∧
    (∀ i : ParamId, id.toNat = i.num → isNaN v = false → exec (.setp id v) s =
      .next { s with param := s.param.set i (clamp v i.lo i.hi), response := [0x00000000] })) ∧
  (∀ i : ParamId, clamp 0x7F800000 i.lo i.hi = i.hi ∧ clamp 0xFF800000 i.lo i.hi = i.lo ∧
    clamp i.lo i.lo i.hi = i.lo ∧ clamp i.hi i.lo i.hi = i.hi ∧
    clamp 0x80000000 i.lo i.hi = (if i = .feedback then 0x80000000 else i.lo))

/-- `41_parameter_commands.md` R132: GETP reads the live register. -/
def Obligations.GetpReadsLiveRegister : Prop :=
  (∀ id : Byte, encode (.getp id) = [BitVec.ofNat 32 (4 + id.toNat * 2 ^ 8)] ∧
    ∀ p, decode p (encode (.getp id)) = .ok (.getp id) ↔ p = .cp) ∧
  (∀ (id : Byte) (s : State),
    (4 < id.toNat → exec (.getp id) s =
      .next { s with sticky := s.sticky ||| (1 <<< 5), response := [0x00000006] }) ∧
    (∀ i : ParamId, id.toNat = i.num → exec (.getp id) s =
      .next { s with response := [0x00000000, s.param.get i] })) ∧
  (∀ (s : State) (i : ParamId), s.Inv → fle i.lo (s.param.get i) = true ∧ fle (s.param.get i) i.hi = true ∧
    isNaN (s.param.get i) = false)

/-- `41_parameter_commands.md` R133: SETST applies each selected key on its own and reports the keys that failed. -/
def Obligations.SetstAppliesEachKey : Prop :=
  (∀ (mask : Byte) (v0 v1 v2 v3 v4 : Word), encode (.setst mask v0 v1 v2 v3 v4) =
    [BitVec.ofNat 32 (5 + mask.toNat * 2 ^ 8), v0, v1, v2, v3, v4] ∧
    ∀ p, decode p (encode (.setst mask v0 v1 v2 v3 v4)) = .ok (.setst mask v0 v1 v2 v3 v4) ↔ p = .cp) ∧
  (∀ (mask : Byte) (v0 v1 v2 v3 v4 : Word) (s : State),
    ∃ (t : State) (failed : Byte), exec (.setst mask v0 v1 v2 v3 v4) s = .next t ∧
      (∀ i : ParamId,
        failed.getLsbD i.num = (mask.getLsbD i.num && isNaN ((Params.mk v0 v1 v2 v3 v4).get i)) ∧
        t.param.get i =
          (if mask.getLsbD i.num = true ∧ isNaN ((Params.mk v0 v1 v2 v3 v4).get i) = false then
            clamp ((Params.mk v0 v1 v2 v3 v4).get i) i.lo i.hi
          else s.param.get i)) ∧
      failed.toNat < 2 ^ 5 ∧
      (failed = 0 → t = { s with param := t.param, response := [0x00000000] }) ∧
      (failed ≠ 0 → t =
        { s with
          param := t.param
          sticky := s.sticky ||| (1 <<< 6)
          response := [BitVec.ofNat 32 (7 + failed.toNat * 2 ^ 8)] }))

/-- `41_parameter_commands.md` R134: GETST exports the five live registers in id order. -/
def Obligations.GetstExportsParameters : Prop :=
  encode .getst = [0x00000006] ∧ (∀ p, decode p [0x00000006] = .ok .getst ↔ p = .cp) ∧
  (∀ s : State, exec .getst s =
    .next { s with response :=
      [0x00000000, s.param.rate, s.param.depth, s.param.delay, s.param.feedback, s.param.mix] }) ∧
  (∃ t, exec .getst State.reset = .next t ∧ t.response = [0, 0, 0, 0x3F800000, 0, 0])

/-- `41_parameter_commands.md` R134 (round trip): feeding GETST's five words back with `SETST 0x1F` leaves every
register bit-identical and reports `OK`. -/
def Obligations.StateRoundTrip : Prop :=
  ∀ s : State, s.Inv →
    exec (.setst 0x1F s.param.rate s.param.depth s.param.delay s.param.feedback s.param.mix) s =
      .next { s with response := [0x00000000] }

/-- `41_parameter_commands.md` R135: after any sequence of commands a register holds the clamp of the last accepted
write, or what it held before; from reset that is its default. -/
def Obligations.LastAcceptedWriteIsRead : Prop :=
  (∀ (cmds : List Instr) (s t : State) (i : ParamId), execAll cmds s = some t →
    t.param.get i = (match lastAccepted i cmds with
      | some v => clamp v i.lo i.hi
      | none => s.param.get i)) ∧
  (∀ (cmds : List Instr) (t : State) (i : ParamId) (id : Byte), id.toNat = i.num →
    execAll cmds State.reset = some t →
    ∃ u, exec (.getp id) t = .next u ∧ u.response =
      [0x00000000, match lastAccepted i cmds with
        | some v => clamp v i.lo i.hi
        | none => Params.defaults.get i])

/-! ### Engine commands -/

/-- `45_engine_commands.md` R191: NOP does nothing, on either port, in every state. -/
def Obligations.NopDoesNothing : Prop :=
  encode .nop = [0x00000000] ∧ (∀ p, decode p [0x00000000] = .ok .nop) ∧
  (∀ s : State, exec .nop s = .next { s with response := [0x00000000] })

/-- `45_engine_commands.md` R192, `10_state.md` R35: STAT answers STATUS, every bit of it, and changes nothing. -/
def Obligations.StatReadsStatus : Prop :=
  encode .stat = [0x00000007] ∧ (∀ p, decode p [0x00000007] = .ok .stat) ∧
  (∀ s : State, ∃ st : Word, exec .stat s = .next { s with response := [0x00000000, st] } ∧
    st.extractLsb' 0 2 = (match s.eng with | .uninit => 0#2 | .prepared => 1#2 | .processing => 2#2) ∧
    st.getLsbD 2 = decide (s.remain ≠ 0) ∧
    st.extractLsb' 3 5 = 0 ∧ st.extractLsb' 8 7 = s.sticky ∧ st.extractLsb' 15 17 = 0)

/-- `45_engine_commands.md` R193: PREPARE, its refusals in their order, what it writes, and the sample rates at the
ends of its range. Through `exceedsDepth` the refusals take in a sample rate whose `MAXD` overflows to an infinity: that
`E_CONFIG` answers it is the model's reading (log entry 6, with 5), for R110 and R193 give `ceil_int` no value there; the
largest accepted rate R193 names, far below it, supports the reading. -/
def Obligations.PrepareConfigures : Prop :=
  (∀ sr mb : Word, encode (.prepare sr mb) = [0x00000001, sr, mb] ∧
    ∀ p, decode p (encode (.prepare sr mb)) = .ok (.prepare sr mb) ↔ p = .cp) ∧
  (∀ (sr mb : Word) (s : State),
    (s.remain ≠ 0 → exec (.prepare sr mb) s =
      .next { s with sticky := s.sticky ||| (1 <<< 2), response := [0x00000003] }) ∧
    (s.remain = 0 →
      isNaN sr = true ∨ fle sr 0x00000000 = true ∨ sr = 0x7F800000 ∨ flt sr 0x3F800000 = true ∨ mb.toInt ≤ 0 ∨
          exceedsDepth sr = true →
      exec (.prepare sr mb) s = .next { s with sticky := s.sticky ||| (1 <<< 3), response := [0x00000004] }) ∧
    (s.remain = 0 → isFinite sr = true → fle 0x3F800000 sr = true → 0 < mb.toInt → exceedsDepth sr = false →
      ∃ (t : State) (n : Int), exec (.prepare sr mb) s = .next t ∧
        ceilInt (fdiv (fmul (fadd 0x42C80000 0x41200000) sr) 0x447A0000) = some n ∧
        t = { s with
          fs := sr
          maxblk := mb
          maxd := fdiv (fmul (fadd 0x42C80000 0x41200000) sr) 0x447A0000
          excs := fdiv (fmul 0x41200000 sr) 0x447A0000
          cap := (n + 1).toNat
          phase := 0
          lines := t.lines
          eng := .prepared
          response := [0x00000000] } ∧
        t.lines.length = s.lines.length ∧
        ∀ c < s.lines.length, t.cursor c = some 0 ∧
          (∀ a < t.cap, t.ram c a = some 0x00000000) ∧ ∀ a, t.cap ≤ a → t.ram c a = s.ram c a)) ∧
  exceedsDepth 0x3F800000 = false ∧ exceedsDepth 0x4891733A = false ∧ exceedsDepth 0x4891733B = true ∧
  capacityOf Config.cfg (maxDelaySamples Config.cfg 0x3F800000) = some 2 ∧
  capacityOf Config.cfg (maxDelaySamples Config.cfg 0x4891733A) = some 32768

/-- `45_engine_commands.md` R195: RESET clears the audio history and keeps everything else. -/
def Obligations.ResetClearsHistory : Prop :=
  encode .reset = [0x00000002] ∧ (∀ p, decode p [0x00000002] = .ok .reset ↔ p = .cp) ∧
  (∀ s : State,
    (s.remain ≠ 0 → exec .reset s =
      .next { s with sticky := s.sticky ||| (1 <<< 2), response := [0x00000003] }) ∧
    (s.remain = 0 → ∃ t, exec .reset s = .next t ∧
      t = { s with phase := 0, lines := t.lines, response := [0x00000000] } ∧
      t.lines.length = s.lines.length ∧
      ∀ c < s.lines.length, t.cursor c = some 0 ∧
        (∀ a < s.cap, t.ram c a = some 0x00000000) ∧ ∀ a, s.cap ≤ a → t.ram c a = s.ram c a))

/-- `45_engine_commands.md` R196, R197: BEGIN, its refusals in their order, and the block it opens. -/
def Obligations.BeginOpensBlock : Prop :=
  (∀ (nch : Byte) (ns : Word), encode (.begin nch ns) = [BitVec.ofNat 32 (0x10 + nch.toNat * 2 ^ 8), ns] ∧
    ∀ p, decode p (encode (.begin nch ns)) = .ok (.begin nch ns) ↔ p = .ap) ∧
  (∀ (nch : Byte) (ns : Word) (s : State),
    (s.eng = .uninit → exec (.begin nch ns) s =
      .next { s with sticky := s.sticky ||| (1 <<< 1), response := [0x00000002] }) ∧
    (s.eng ≠ .uninit → s.remain ≠ 0 → exec (.begin nch ns) s =
      .next { s with sticky := s.sticky ||| (1 <<< 2), response := [0x00000003] }) ∧
    (s.eng ≠ .uninit → s.remain = 0 →
      nch.toNat = 0 ∨ 2 < nch.toNat ∨ ns.toInt < 0 ∨ s.maxblk.toInt < ns.toInt →
      exec (.begin nch ns) s = .next { s with sticky := s.sticky ||| (1 <<< 4), response := [0x00000005] }) ∧
    (s.eng ≠ .uninit → s.remain = 0 → 1 ≤ nch.toNat → nch.toNat ≤ 2 → 0 ≤ ns.toInt →
      ns.toInt ≤ s.maxblk.toInt →
      exec (.begin nch ns) s =
        .next { s with
          snap := s.param
          blkch := nch.toNat
          remain := ns.toNat
          eng := .processing
          response := [0x00000000] }))

/-- `45_engine_commands.md` R198, `30_encoding.md` R77, `60_exceptions.md` R224: FRAME's encoding and port; on port CP it
is illegal whatever the state; with no block open, or with another number of samples than the block's, it does nothing
but report. -/
def Obligations.FrameRefusals : Prop :=
  (∀ xs : List Word, xs.length ≤ 255 →
    encode (.frame xs) = BitVec.ofNat 32 (0x11 + xs.length * 2 ^ 8) :: xs ∧
    (∀ p, decode p (encode (.frame xs)) = .ok (.frame xs) ↔ p = .ap) ∧
    ∀ s : State, runPacket exec .cp (encode (.frame xs)) s =
      .next { s with sticky := s.sticky ||| (1 <<< 0), response := [0x00000001] }) ∧
  (∀ (xs : List Word) (s : State),
    (s.remain = 0 → exec (.frame xs) s =
      .next { s with sticky := s.sticky ||| (1 <<< 1), response := [0x00000002] }) ∧
    (s.remain ≠ 0 → xs.length ≠ s.blkch → exec (.frame xs) s =
      .next { s with sticky := s.sticky ||| (1 <<< 4), response := [0x00000005] }))

/-- `45_engine_commands.md` R198, R199 (with `42_oscillator.md` R151 to R153, `43_delay_line.md` R163 to R168,
`44_feedback_mix.md` R181 to R183): a FRAME of an open block always completes, with the phase, the delay, the two taps,
the output, the stored word and the cursor of each channel that the rules give, and everything else unchanged. -/
def Obligations.FrameComputesEachChannel : Prop :=
  ∀ (s : State) (xs : List Word), s.Inv → s.remain ≠ 0 → xs.length = s.blkch →
    ∃ (t : State) (d df : Word) (di : Nat) (ys : List Word),
      exec (.frame xs) s = .next t ∧
      (t.phase.toNat : Int) =
        (s.phase.toNat + units (fdiv s.snap.rate s.fs) * 2 ^ 32 / 2 ^ 149) % 2 ^ 32 ∧
      d = clamp
        (fadd (fdiv (fmul s.snap.delay s.fs) 0x447A0000)
          (fmul (fmul s.snap.depth s.excs) (Config.cfg.sine t.phase)))
        0x3F800000 (if fge s.maxd 0x3F800000 then s.maxd else 0x3F800000) ∧
      floorInt d = some (di : Int) ∧ df = fsub d (floatOfNat di) ∧
      t.response = 0x00000000 :: ys ∧ ys.length = xs.length ∧ t.remain + 1 = s.remain ∧
      (∀ (c : Nat) (x : Word), xs[c]? = some x →
        ∃ (w : Nat) (a b : Word), s.cursor c = some w ∧
          s.ram c (((w : Int) - di) % s.cap).toNat = some a ∧
          s.ram c (((w : Int) - di - 1) % s.cap).toNat = some b ∧
          ys[c]? = some (if feq s.snap.mix 0x00000000 then x else blend s.snap.mix x (blend df a b)) ∧
          t.ram c w = some (fadd x (fmul s.snap.feedback (blend df a b))) ∧
          (∀ e, e ≠ w → t.ram c e = s.ram c e) ∧
          t.cursor c = some ((w + 1) % s.cap)) ∧
      (∀ c, xs.length ≤ c → t.lines[c]? = s.lines[c]?) ∧
      t = { s with phase := t.phase, lines := t.lines, remain := t.remain, response := t.response }

/-- `43_delay_line.md` R170, `70_reset_and_hazards.md` R257, `20_memory.md` R68: after a zero-fill a channel starts from
silence: a FRAME on cleared lines sees a delayed value of `+0` in every channel, whatever the delay. -/
def Obligations.ClearedLinesAreSilent : Prop :=
  ∀ (s : State) (xs : List Word), s.Inv → s.remain ≠ 0 → xs.length = s.blkch →
    (∀ c < xs.length, ∀ a < s.cap, s.ram c a = some 0x00000000) →
    ∃ (t : State) (ys : List Word), exec (.frame xs) s = .next t ∧ t.response = 0x00000000 :: ys ∧
      ∀ (c : Nat) (x : Word), xs[c]? = some x →
        ys[c]? = some (if feq s.snap.mix 0x00000000 then x else blend s.snap.mix x 0x00000000) ∧
        ∃ w, s.cursor c = some w ∧ t.ram c w = some (fadd x (fmul s.snap.feedback 0x00000000))

/-- `44_feedback_mix.md` R183: when `SNAP[MIX] == 0` the output words are the input words, all 32 bits, and the bypass
affects only them: the phase and the lines come out as at any other mix. -/
def Obligations.DryBypassIsBitExact : Prop :=
  ∀ (s t : State) (xs : List Word), s.snap.mix = 0x00000000 → s.remain ≠ 0 → xs.length = s.blkch →
    exec (.frame xs) s = .next t →
    t.response = 0x00000000 :: xs ∧
    ∀ m : Word, ∃ u, exec (.frame xs) { s with snap := { s.snap with mix := m } } = .next u ∧
      u.phase = t.phase ∧ u.lines = t.lines

/-- `45_engine_commands.md` R202: no sample and no line of another channel enters a channel's output, line or cursor. -/
def Obligations.ChannelsAreIndependent : Prop :=
  (∀ (s s' t t' : State) (xs xs' : List Word) (c : Nat),
    s.remain ≠ 0 → s'.remain ≠ 0 → xs.length = s.blkch → xs'.length = s'.blkch →
    s.snap = s'.snap → s.phase = s'.phase → s.fs = s'.fs → s.excs = s'.excs → s.maxd = s'.maxd → s.cap = s'.cap →
    s.lines[c]? = s'.lines[c]? → xs[c]? = xs'[c]? →
    exec (.frame xs) s = .next t → exec (.frame xs') s' = .next t' →
    t.response[c + 1]? = t'.response[c + 1]? ∧ t.lines[c]? = t'.lines[c]?) ∧
  (∀ (s t : State) (xs : List Word) (c e : Nat),
    s.remain ≠ 0 → xs.length = s.blkch → c < xs.length → e < xs.length →
    s.lines[c]? = s.lines[e]? → xs[c]? = xs[e]? → exec (.frame xs) s = .next t →
    t.response[c + 1]? = t.response[e + 1]? ∧ t.lines[c]? = t.lines[e]?)

/-- `20_memory.md` R62, `45_engine_commands.md` R197: a FRAME does not see the live parameters: whatever they are, it
does the same to everything else. -/
def Obligations.OpenBlockIgnoresLiveParameters : Prop :=
  ∀ (s t : State) (xs : List Word) (p : Params), exec (.frame xs) s = .next t →
    exec (.frame xs) { s with param := p } = .next { t with param := p } ∧ t.param = s.param ∧ t.snap = s.snap

/-- `45_engine_commands.md` R200: a block runs to completion: `REMAIN` well-formed FRAMEs bring `REMAIN` to 0, and the
engine stays PROCESSING. -/
def Obligations.BlockRunsToCompletion : Prop :=
  ∀ (s : State) (frames : List (List Word)), s.Inv → s.remain ≠ 0 → frames.length = s.remain →
    (∀ f ∈ frames, f.length = s.blkch) →
    ∃ t, execAll (frames.map Instr.frame) s = some t ∧ t.remain = 0 ∧ t.eng = .processing ∧ t.sticky = s.sticky

/-! ### Errors -/

/-- `60_exceptions.md` R222: an error sets its sticky flag, answers the status word alone and changes nothing else; the
one exception is SETST, which keeps the parameters it wrote. -/
def Obligations.ErrorsChangeOnlyTheirFlag : Prop :=
  ∀ (p : Port) (packet : Packet) (s t : State), runPacket exec p packet s = .next t → ¬ succeeded t.response →
    ∃ (e : ErrCode) (info : Byte),
      t.response = [BitVec.ofNat 32 (e.num + info.toNat * 2 ^ 8)] ∧
      t = { s with
        param := t.param
        sticky := s.sticky ||| (1 <<< (e.num - 1))
        response := t.response } ∧
      (t.param ≠ s.param → e = .malformed ∧ ∃ i, decode p packet = .ok i ∧ i.opcode = .setst)

/-- `60_exceptions.md` R221, R224: the code a command reports is that of the first check that fails, in the order
`E_ILLEGAL`, `E_STATE`, `E_BUSY`, arguments; it reports OK when none fails. The order is R224's. Among the checks
`exceedsDepth` counts a PREPARE whose `MAXD` is infinite as `E_CONFIG`: that is the model's reading (log entry 6, with
5), not the words of R221 or R224. -/
def Obligations.FirstFailingCheckDecides : Prop :=
  ∀ (p : Port) (packet : Packet) (s t : State), runPacket exec p packet s = .next t →
    responseCode t.response = some (match firstError p packet s with
      | some e => BitVec.ofNat 8 e.num
      | none => 0)

/-- `60_exceptions.md` R223, `10_state.md` R40 (f): no command clears a sticky flag, hardware reset clears them all,
and the flags change nothing but what STAT answers. -/
def Obligations.StickyFlagsAreARecord : Prop :=
  (∀ (p : Port) (packet : Packet) (s t : State), runPacket exec p packet s = .next t →
    s.sticky &&& t.sticky = s.sticky) ∧
  (∀ (s : State) (inProgress : Option Port), s.resetIn = .asserted inProgress →
    ∃ t, step s = .next t ∧ t.sticky = 0) ∧
  (∀ (i : Instr) (s t : State) (flags : BitVec 7), exec i s = .next t →
    ∃ u, exec i { s with sticky := flags } = .next u ∧
      u = { t with sticky := u.sticky, response := u.response } ∧ (i ≠ .stat → u.response = t.response))

/-- `45_engine_commands.md` R204: the transitions of `ENG`. -/
def Obligations.EngineTransitions : Prop :=
  (∀ (i : Instr) (s t : State), exec i s = .next t →
    (i.opcode = .prepare → succeeded t.response → s.remain = 0 ∧ t.eng = .prepared) ∧
    (i.opcode = .begin → succeeded t.response → s.eng ≠ .uninit ∧ t.eng = .processing) ∧
    (i.opcode ≠ .prepare → i.opcode ≠ .begin → t.eng = s.eng) ∧
    (¬ succeeded t.response → t.eng = s.eng)) ∧
  (∀ (s : State) (inProgress : Option Port), s.resetIn = .asserted inProgress →
    ∃ t, step s = .next t ∧ t.eng = .uninit)

/-- `10_state.md` R22 to R34, `41_parameter_commands.md` R136, `70_reset_and_hazards.md` R254: which commands write
which state; everything a command is not named for it leaves unchanged, the ports included. -/
def Obligations.WritersOfEachPieceOfState : Prop :=
  ∀ (i : Instr) (s t : State), exec i s = .next t →
    (i.opcode ∉ [.setp, .setst] → t.param = s.param) ∧
    (i.opcode ≠ .begin → t.snap = s.snap ∧ t.blkch = s.blkch) ∧
    (i.opcode ∉ [.prepare, .reset, .frame] → t.phase = s.phase ∧ t.lines = s.lines) ∧
    (i.opcode ≠ .prepare →
      t.fs = s.fs ∧ t.maxblk = s.maxblk ∧ t.excs = s.excs ∧ t.maxd = s.maxd ∧ t.cap = s.cap) ∧
    (i.opcode ∉ [.prepare, .begin] → t.eng = s.eng) ∧
    (i.opcode ∉ [.begin, .frame] → t.remain = s.remain) ∧
    (t.cpIn = s.cpIn ∧ t.apIn = s.apIn ∧ t.cpOut = s.cpOut ∧ t.apOut = s.apOut ∧ t.resetIn = s.resetIn ∧
      t.turn = s.turn)

/-- `30_encoding.md` R84 to R86: the response of every command: one status word with bits 31:16 zero and a code up to
7, no data on an error, and on success `INFO = 0` and the data words of R86. -/
def Obligations.ResponsesHaveTheirForm : Prop :=
  ∀ (p : Port) (packet : Packet) (s t : State), runPacket exec p packet s = .next t →
    ∃ (status : Word) (data : List Word), t.response = status :: data ∧
      status.extractLsb' 16 16 = 0 ∧ (status.extractLsb' 0 8).toNat ≤ 7 ∧
      (status.extractLsb' 0 8 ≠ 0 → data = []) ∧
      (status.extractLsb' 8 8 ≠ 0 → status.extractLsb' 0 8 = 7 ∧ ∃ i, decode p packet = .ok i ∧ i.opcode = .setst) ∧
      (status.extractLsb' 0 8 = 0 → ∃ i, decode p packet = .ok i ∧
        (i.opcode ∈ [.nop, .prepare, .reset, .setp, .setst, .begin] → data = []) ∧
        (∀ id, i = .getp id → ∃ q : ParamId, id.toNat = q.num ∧ data = [s.param.get q]) ∧
        (i = .getst → data = [s.param.rate, s.param.depth, s.param.delay, s.param.feedback, s.param.mix]) ∧
        (i = .stat → data = [statusRegister s]) ∧
        (∀ xs, i = .frame xs → data.length = xs.length))

/-! ### Steps, ports, reset, invariants -/

/-- `20_memory.md` R60, R61, `30_encoding.md` R78, R84: when a port's oldest packet decodes to a command and it is that
port's turn, one step is `exec` of that command on the state without the packet, and its response leaves on the same
port; when the packet does not decode, the step sets the sticky flag of `E_ILLEGAL`, answers the one word 1 on that port
and changes nothing else. The queues and `Config.arbiter` are the model's form of R61 (log entries 2, 3). -/
def Obligations.StepRunsDecodedCommand : Prop :=
  ∀ (s : State) (packet : Packet) (rest : List Packet), s.resetIn = .released →
    (s.cpIn = packet :: rest → (s.apIn = [] ∨ Config.arbiter s.turn = .cp) →
      (∀ i, decode .cp packet = .ok i →
        step s = (match exec i { s with cpIn := rest, turn := s.turn + 1 } with
          | .next t => .next { t with cpOut := t.cpOut ++ [t.response], response := [] }
          | .fault f => .fault f
          | .refused r => .refused r)) ∧
      (∀ e, decode .cp packet = .error e →
        step s = .next { s with
          cpIn := rest
          turn := s.turn + 1
          sticky := s.sticky ||| (1 <<< 0)
          cpOut := s.cpOut ++ [[0x00000001]]
          response := [] })) ∧
    (s.apIn = packet :: rest → (s.cpIn = [] ∨ Config.arbiter s.turn = .ap) →
      (∀ i, decode .ap packet = .ok i →
        step s = (match exec i { s with apIn := rest, turn := s.turn + 1 } with
          | .next t => .next { t with apOut := t.apOut ++ [t.response], response := [] }
          | .fault f => .fault f
          | .refused r => .refused r)) ∧
      (∀ e, decode .ap packet = .error e →
        step s = .next { s with
          apIn := rest
          turn := s.turn + 1
          sticky := s.sticky ||| (1 <<< 0)
          apOut := s.apOut ++ [[0x00000001]]
          response := [] }))

/-- `20_memory.md` R61, `30_encoding.md` R84: a step that serves a command takes the oldest packet of one port, answers
it with one response on that port, and leaves the other port alone. The queues are the model's form of the ports (log
entry 3). -/
def Obligations.OneResponseOnTheCommandsPort : Prop :=
  ∀ s t : State, s.resetIn = .released → s.cpIn ≠ [] ∨ s.apIn ≠ [] → step s = .next t →
    ∃ r : Packet, r ≠ [] ∧
      ((∃ packet, s.cpIn = packet :: t.cpIn ∧ t.cpOut = s.cpOut ++ [r] ∧ t.apIn = s.apIn ∧ t.apOut = s.apOut) ∨
       (∃ packet, s.apIn = packet :: t.apIn ∧ t.apOut = s.apOut ++ [r] ∧ t.cpIn = s.cpIn ∧ t.cpOut = s.cpOut))

/-- `60_exceptions.md` R238: between commands the CORE is idle and keeps all its state. -/
def Obligations.IdleCoreKeepsItsState : Prop :=
  ∀ s : State, s.resetIn = .released → s.cpIn = [] → s.apIn = [] → step s = .next s

/-- `70_reset_and_hazards.md` R251, `10_state.md` R41: the state after hardware reset, from any state. -/
def Obligations.HardwareResetValues : Prop :=
  ∀ (s : State) (inProgress : Option Port), s.resetIn = .asserted inProgress →
    ∃ t, step s = .next t ∧
      t.param = Params.mk 0x00000000 0x00000000 0x3F800000 0x00000000 0x00000000 ∧
      t.snap = Params.mk 0x00000000 0x00000000 0x3F800000 0x00000000 0x00000000 ∧
      t.phase = 0 ∧ t.fs = 0x00000000 ∧ t.maxblk = 0 ∧ t.excs = 0x00000000 ∧ t.maxd = 0x00000000 ∧ t.cap = 0 ∧
      t.cursor 0 = some 0 ∧ t.cursor 1 = some 0 ∧ t.lines.length = 2 ∧
      t.eng = .uninit ∧ t.blkch = 0 ∧ t.remain = 0 ∧ t.sticky = 0

/-- `70_reset_and_hazards.md` R250: hardware reset discards the command in progress without a response and leaves the
CORE ready for its first command: the request has ended and no response is under way, whichever command, if any, was in
progress. The reset input and the response field are the model's form (log entries 3, 7); that the command in progress
is its port's oldest packet, and that the packets behind it stay, is the model's choice (log entry 3). -/
def Obligations.ResetDiscardsCommandInProgress : Prop :=
  (∀ (s : State) (inProgress : Option Port), s.resetIn = .asserted inProgress →
    ∃ t, step s = .next t ∧ t.resetIn = .released ∧ t.response = [] ∧ t.cpOut = s.cpOut ∧ t.apOut = s.apOut ∧
      (inProgress ≠ some .cp → t.cpIn = s.cpIn) ∧ (inProgress ≠ some .ap → t.apIn = s.apIn) ∧
      (inProgress = some .cp → s.cpIn = [] → t.cpIn = []) ∧ (inProgress = some .ap → s.apIn = [] → t.apIn = [])) ∧
  (∀ (s : State) (packet : Packet) (rest : List Packet),
    (s.resetIn = .asserted (some .cp) → s.cpIn = packet :: rest →
      ∃ t, step s = .next t ∧ t.resetIn = .released ∧ t.cpIn = rest ∧ t.apIn = s.apIn ∧ t.cpOut = s.cpOut ∧
        t.apOut = s.apOut) ∧
    (s.resetIn = .asserted (some .ap) → s.apIn = packet :: rest →
      ∃ t, step s = .next t ∧ t.resetIn = .released ∧ t.apIn = rest ∧ t.cpIn = s.cpIn ∧ t.cpOut = s.cpOut ∧
        t.apOut = s.apOut))

/-- `10_state.md` R40: the invariants hold right after hardware reset. -/
def Obligations.InvariantsHoldAtReset : Prop := State.reset.Inv

/-- `10_state.md` R40: the invariants hold after every command and after hardware reset, if they held before; a
command's sticky flags only gain bits. -/
def Obligations.EveryStepKeepsTheInvariants : Prop :=
  ∀ s t : State, s.Inv → step s = .next t →
    t.Inv ∧ (s.resetIn = .released → s.sticky &&& t.sticky = s.sticky)

/-- `45_engine_commands.md` R205 with R199: where the invariants hold, every step completes: no delay-RAM access
outside the line, no unwritten word read, no conversion of a non-finite value; a command is answered. -/
def Obligations.EveryStepCompletes : Prop :=
  ∀ s : State, s.Inv → ∃ t, step s = .next t ∧
    (s.resetIn = .released → s.cpIn ≠ [] ∨ s.apIn ≠ [] →
      t.cpOut.length + t.apOut.length = s.cpOut.length + s.apOut.length + 1)
end

