-- ==== Sys2Proof/Laws/Numerics.lean ====
section
/-! SUPPORT. Rounding and the binary32 format: the fields of a packed word, the order of the patterns, exactness and
monotonicity of `roundMag`. Bounds on results of the operations follow from these. -/

namespace Sys2Proof.Machine

/-! ### The fields as arithmetic of the pattern -/

/-- Bits 30:0 of a word. -/
def magBits (w : Word) : Nat := w.toNat % 2 ^ 31

/-- The magnitude, in units of `2^-149`, that bits 30:0 stand for. -/
def magOfBits (b : Nat) : Nat := if b / 2 ^ 23 = 0 then b else (2 ^ 23 + b % 2 ^ 23) * 2 ^ (b / 2 ^ 23 - 1)

/-- Bits 30:0 of the infinities. -/
def infBits : Nat := 0x7F800000

theorem expField_eq (w : Word) : expField w = magBits w / 2 ^ 23 := by
  have h := w.isLt
  simp only [expField, magBits, BitVec.extractLsb'_toNat, Nat.shiftRight_eq_div_pow]
  omega

theorem fracField_eq (w : Word) : fracField w = magBits w % 2 ^ 23 := by
  simp only [fracField, magBits, BitVec.extractLsb'_toNat, Nat.shiftRight_eq_div_pow]
  omega

theorem signBit_eq (w : Word) : signBit w = decide (2 ^ 31 ≤ w.toNat) := by
  have h := w.isLt
  rw [signBit, BitVec.getLsbD, Nat.testBit_eq_decide_div_mod_eq]
  rw [decide_eq_decide]
  omega

theorem magBits_lt (w : Word) : magBits w < 2 ^ 31 := Nat.mod_lt _ (by decide)

theorem magUnits_eq (w : Word) : magUnits w = magOfBits (magBits w) := by
  simp only [magUnits, magOfBits, expField_eq, fracField_eq]
  split
  · omega
  · rfl

theorem isNaN_iff (w : Word) : isNaN w = true ↔ infBits < magBits w := by
  have h := magBits_lt w
  simp only [isNaN, expField_eq, fracField_eq, infBits, Bool.and_eq_true, beq_iff_eq, bne_iff_ne, ne_eq]
  omega

theorem isNaN_eq_false_iff (w : Word) : isNaN w = false ↔ magBits w ≤ infBits := by
  rw [← Bool.not_eq_true, isNaN_iff, Nat.not_lt]

theorem isInf_iff (w : Word) : isInf w = true ↔ magBits w = infBits := by
  have h := magBits_lt w
  simp only [isInf, expField_eq, fracField_eq, infBits, Bool.and_eq_true, beq_iff_eq]
  omega

theorem isFinite_iff (w : Word) : isFinite w = true ↔ magBits w < infBits := by
  have h := magBits_lt w
  simp only [isFinite, expField_eq, infBits, bne_iff_ne, ne_eq]
  omega

theorem isZero_iff (w : Word) : isZero w = true ↔ magBits w = 0 := by
  have h := magBits_lt w
  simp only [isZero, expField_eq, fracField_eq, Bool.and_eq_true, beq_iff_eq]
  omega

/-- A word is its sign and bits 30:0. -/
theorem word_ext {a b : Word} (hs : signBit a = signBit b) (hm : magBits a = magBits b) : a = b := by
  have ha := a.isLt
  have hb := b.isLt
  simp only [signBit_eq, decide_eq_decide] at hs
  simp only [magBits] at hm
  exact BitVec.eq_of_toNat_eq (by omega)

/-! ### Packing -/

theorem packSign_toNat {negative : Bool} {mag : Nat} (h : mag < 2 ^ 31) :
    (packSign negative mag).toNat = mag + if negative then 2 ^ 31 else 0 := by
  simp only [packSign, BitVec.toNat_ofNat]
  cases negative <;> (simp; omega)

theorem signBit_packSign {negative : Bool} {mag : Nat} (h : mag < 2 ^ 31) :
    signBit (packSign negative mag) = negative := by
  rw [signBit_eq, packSign_toNat h]
  cases negative
  · simp
    omega
  · simp

theorem magBits_packSign {negative : Bool} {mag : Nat} (h : mag < 2 ^ 31) :
    magBits (packSign negative mag) = mag := by
  rw [magBits, packSign_toNat h]
  cases negative <;> simp <;> omega

/-- Packing a word's own sign and bits gives the word. -/
theorem packSign_self (w : Word) : packSign (signBit w) (magBits w) = w :=
  word_ext (signBit_packSign (magBits_lt w)) (magBits_packSign (magBits_lt w))

/-! ### The order of the patterns is the order of the magnitudes -/

theorem magOfBits_lt_succ (b : Nat) : magOfBits b < magOfBits (b + 1) := by
  unfold magOfBits
  by_cases h0 : b / 2 ^ 23 = 0
  · rw [if_pos h0]
    by_cases h1 : (b + 1) / 2 ^ 23 = 0
    · rw [if_pos h1]; omega
    · rw [if_neg h1]
      have : (b + 1) / 2 ^ 23 = 1 := by omega
      rw [this]
      simp only [Nat.sub_self, Nat.pow_zero, Nat.mul_one]
      omega
  · rw [if_neg h0]
    have h1 : (b + 1) / 2 ^ 23 ≠ 0 := by omega
    rw [if_neg h1]
    by_cases hm : (b + 1) / 2 ^ 23 = b / 2 ^ 23
    · rw [hm]
      exact Nat.mul_lt_mul_of_pos_right (by omega) (Nat.two_pow_pos _)
    · have he : (b + 1) / 2 ^ 23 = b / 2 ^ 23 + 1 := by omega
      have hp : 2 ^ ((b + 1) / 2 ^ 23 - 1) = 2 * 2 ^ (b / 2 ^ 23 - 1) := by
        rw [he, show b / 2 ^ 23 + 1 - 1 = b / 2 ^ 23 - 1 + 1 by omega, Nat.pow_succ, Nat.mul_comm]
      rw [hp, ← Nat.mul_assoc]
      exact Nat.mul_lt_mul_of_pos_right (by omega) (Nat.two_pow_pos _)

theorem magOfBits_strictMono : StrictMono magOfBits := strictMono_nat_of_lt_succ magOfBits_lt_succ

theorem magOfBits_le_iff {a b : Nat} : magOfBits a ≤ magOfBits b ↔ a ≤ b := magOfBits_strictMono.le_iff_le

theorem magOfBits_lt_iff {a b : Nat} : magOfBits a < magOfBits b ↔ a < b := magOfBits_strictMono.lt_iff_lt

@[simp] theorem magOfBits_zero : magOfBits 0 = 0 := rfl

/-! ### Rounding to an integer -/

theorem roundHalfEven_le (n d : Nat) : roundHalfEven n d ≤ n / d + 1 := by
  unfold roundHalfEven
  split <;> omega

theorem le_roundHalfEven (n d : Nat) : n / d ≤ roundHalfEven n d := by
  unfold roundHalfEven
  split <;> omega

/-- A multiple of the divisor rounds to its quotient. -/
theorem roundHalfEven_exact (k : Nat) {d : Nat} (hd : 0 < d) : roundHalfEven (k * d) d = k := by
  unfold roundHalfEven
  rw [Nat.mul_mod_left, Nat.mul_div_cancel _ hd, if_neg (by omega)]

/-- A larger quotient rounds to no smaller integer. -/
theorem roundHalfEven_mono {n₁ d₁ n₂ d₂ : Nat} (h₁ : 0 < d₁) (h₂ : 0 < d₂) (h : n₁ * d₂ ≤ n₂ * d₁) :
    roundHalfEven n₁ d₁ ≤ roundHalfEven n₂ d₂ := by
  have hq : n₁ / d₁ ≤ n₂ / d₂ := by
    rw [Nat.le_div_iff_mul_le h₂]
    have := Nat.div_mul_le_self n₁ d₁
    refine Nat.le_of_mul_le_mul_right ?_ h₁
    calc n₁ / d₁ * d₂ * d₁ = n₁ / d₁ * d₁ * d₂ := by ring
      _ ≤ n₁ * d₂ := Nat.mul_le_mul_right _ this
      _ ≤ n₂ * d₁ := h
  rcases Nat.lt_or_eq_of_le hq with hlt | heq
  · exact (roundHalfEven_le n₁ d₁).trans (hlt.trans_le (le_roundHalfEven n₂ d₂))
  · have hr : n₁ % d₁ * d₂ ≤ n₂ % d₂ * d₁ := by
      have e₁ := Nat.div_add_mod n₁ d₁
      have e₂ := Nat.div_add_mod n₂ d₂
      rw [heq] at e₁
      nlinarith
    unfold roundHalfEven
    rw [heq]
    split
    · rename_i hc
      rw [if_pos]
      rcases hc with hc | ⟨hc, hodd⟩
      · left
        by_contra hn
        nlinarith
      · by_cases hn : d₂ < 2 * (n₂ % d₂)
        · exact .inl hn
        · right
          refine ⟨?_, hodd⟩
          have : d₂ ≤ 2 * (n₂ % d₂) := by
            by_contra hlt
            nlinarith
          omega
    · split <;> omega

/-! ### Rounding to binary32 -/

/-- Before the cut at infinity. -/
def roundRaw (n d : Nat) : Nat := roundShift n d * 2 ^ 23 + roundHalfEven n (d * 2 ^ roundShift n d)

theorem roundMag_eq_min (n d : Nat) : roundMag n d = min infBits (roundRaw n d) := rfl

theorem roundMag_le_inf (n d : Nat) : roundMag n d ≤ infBits := Nat.min_le_left _ _

theorem roundMag_lt (n d : Nat) : roundMag n d < 2 ^ 31 := Nat.lt_of_le_of_lt (roundMag_le_inf n d) (by decide)

/-- Below the scaled significand's upper bound. -/
theorem roundQuotient_lt (n d : Nat) : n / (d * 2 ^ roundShift n d) < 2 ^ 24 := by
  rw [← Nat.div_div_eq_div_mul, Nat.div_lt_iff_lt_mul (Nat.two_pow_pos _), ← Nat.pow_add, roundShift]
  by_cases h0 : n / d = 0
  · rw [h0]; exact Nat.two_pow_pos _
  · refine Nat.lt_of_lt_of_le Nat.lt_log2_self (Nat.pow_le_pow_right (by decide) ?_)
    omega

/-- Above a shift of 0 the scaled significand has its top bit. -/
theorem le_roundQuotient {n d : Nat} (hs : 0 < roundShift n d) :
    2 ^ 23 ≤ n / (d * 2 ^ roundShift n d) := by
  rw [← Nat.div_div_eq_div_mul, Nat.le_div_iff_mul_le (Nat.two_pow_pos _), ← Nat.pow_add]
  simp only [roundShift] at hs ⊢
  have h0 : n / d ≠ 0 := by
    intro h
    simp [h] at hs
  refine le_trans (Nat.pow_le_pow_right (by decide) ?_) (Nat.log2_self_le h0)
  omega

theorem roundRaw_mono {n₁ d₁ n₂ d₂ : Nat} (h₁ : 0 < d₁) (h₂ : 0 < d₂) (h : n₁ * d₂ ≤ n₂ * d₁) :
    roundRaw n₁ d₁ ≤ roundRaw n₂ d₂ := by
  have hq : n₁ / d₁ ≤ n₂ / d₂ := by
    rw [Nat.le_div_iff_mul_le h₂]
    refine Nat.le_of_mul_le_mul_right ?_ h₁
    calc n₁ / d₁ * d₂ * d₁ = n₁ / d₁ * d₁ * d₂ := by ring
      _ ≤ n₁ * d₂ := Nat.mul_le_mul_right _ (Nat.div_mul_le_self n₁ d₁)
      _ ≤ n₂ * d₁ := h
  have hs : roundShift n₁ d₁ ≤ roundShift n₂ d₂ := by
    have : Nat.log2 (n₁ / d₁) ≤ Nat.log2 (n₂ / d₂) := by
      by_cases h0 : n₁ / d₁ = 0
      · rw [h0]; simp
      · have hpos : 0 < n₁ / d₁ := Nat.pos_of_ne_zero h0
        rw [Nat.le_log2 (by omega)]
        exact (Nat.log2_self_le h0).trans hq
    unfold roundShift
    omega
  unfold roundRaw
  rcases Nat.lt_or_eq_of_le hs with hlt | heq
  · have hup := roundHalfEven_le n₁ (d₁ * 2 ^ roundShift n₁ d₁)
    have hlt24 := roundQuotient_lt n₁ d₁
    have hge := le_roundQuotient (n := n₂) (d := d₂) (by omega)
    have hle := le_roundHalfEven n₂ (d₂ * 2 ^ roundShift n₂ d₂)
    omega
  · rw [← heq]
    refine Nat.add_le_add_left (roundHalfEven_mono ?_ ?_ ?_) _
    · exact Nat.mul_pos h₁ (Nat.two_pow_pos _)
    · exact Nat.mul_pos h₂ (Nat.two_pow_pos _)
    · calc n₁ * (d₂ * 2 ^ roundShift n₁ d₁) = n₁ * d₂ * 2 ^ roundShift n₁ d₁ := by ring
        _ ≤ n₂ * d₁ * 2 ^ roundShift n₁ d₁ := Nat.mul_le_mul_right _ h
        _ = n₂ * (d₁ * 2 ^ roundShift n₁ d₁) := by ring

/-- Rounding is monotone: a larger magnitude rounds to no smaller pattern. -/
theorem roundMag_mono {n₁ d₁ n₂ d₂ : Nat} (h₁ : 0 < d₁) (h₂ : 0 < d₂) (h : n₁ * d₂ ≤ n₂ * d₁) :
    roundMag n₁ d₁ ≤ roundMag n₂ d₂ := by
  rw [roundMag_eq_min, roundMag_eq_min]
  have := roundRaw_mono h₁ h₂ h
  omega

/-- A magnitude that is a pattern's own rounds to that pattern. -/
theorem roundRaw_exact (b : Nat) {d : Nat} (hd : 0 < d) : roundRaw (magOfBits b * d) d = b := by
  unfold roundRaw
  have hs : roundShift (magOfBits b * d) d = b / 2 ^ 23 - 1 := by
    rw [roundShift, Nat.mul_div_cancel _ hd]
    unfold magOfBits
    split
    · rename_i h0
      have : Nat.log2 b < 24 := by
        by_cases hb0 : b = 0
        · simp [hb0]
        · exact (Nat.log2_lt hb0).mpr (by omega)
      omega
    · rename_i h0
      have hm := Nat.mod_lt b (show 0 < 2 ^ 23 by decide)
      have hlog : Nat.log2 ((2 ^ 23 + b % 2 ^ 23) * 2 ^ (b / 2 ^ 23 - 1)) = 23 + (b / 2 ^ 23 - 1) := by
        have hne : (2 ^ 23 + b % 2 ^ 23) * 2 ^ (b / 2 ^ 23 - 1) ≠ 0 := by positivity
        rw [Nat.log2_eq_iff hne]
        constructor
        · rw [Nat.pow_add]
          exact Nat.mul_le_mul_right _ (by omega)
        · rw [show 23 + (b / 2 ^ 23 - 1) + 1 = 24 + (b / 2 ^ 23 - 1) by omega, Nat.pow_add]
          exact Nat.mul_lt_mul_of_pos_right (by omega) (Nat.two_pow_pos _)
      rw [hlog]
      omega
  rw [hs]
  unfold magOfBits
  split
  · rename_i h0
    rw [h0]
    simp only [Nat.zero_sub, Nat.pow_zero, Nat.mul_one]
    rw [roundHalfEven_exact _ hd]
    omega
  · rename_i h0
    rw [Nat.mul_assoc, Nat.mul_comm (2 ^ (b / 2 ^ 23 - 1)) d,
      roundHalfEven_exact _ (Nat.mul_pos hd (Nat.two_pow_pos _))]
    omega

/-- The same after the cut at infinity. -/
theorem roundMag_exact {b d : Nat} (hb : b ≤ infBits) (hd : 0 < d) : roundMag (magOfBits b * d) d = b := by
  rw [roundMag_eq_min, roundRaw_exact b hd]
  exact Nat.min_eq_right hb

/-- A magnitude of at most a pattern's rounds to at most that pattern. -/
theorem roundMag_le {n d b : Nat} (hd : 0 < d) (hb : b ≤ infBits) (h : n ≤ magOfBits b * d) :
    roundMag n d ≤ b := by
  rw [← roundMag_exact hb hd]
  exact roundMag_mono hd hd (Nat.mul_le_mul_right _ h)

/-- A magnitude of at least a pattern's rounds to at least that pattern. -/
theorem le_roundMag {n d b : Nat} (hd : 0 < d) (hb : b ≤ infBits) (h : magOfBits b * d ≤ n) :
    b ≤ roundMag n d := by
  rw [← roundMag_exact hb hd]
  exact roundMag_mono hd hd (Nat.mul_le_mul_right _ h)

/-! ### What a rounded word is -/

theorem signBit_roundTo (negative : Bool) (n d : Nat) : signBit (roundTo negative n d) = negative :=
  signBit_packSign (roundMag_lt n d)

theorem magBits_roundTo (negative : Bool) (n d : Nat) : magBits (roundTo negative n d) = roundMag n d :=
  magBits_packSign (roundMag_lt n d)

/-- Rounding never makes a NaN. -/
theorem isNaN_roundTo (negative : Bool) (n d : Nat) : isNaN (roundTo negative n d) = false := by
  rw [isNaN_eq_false_iff, magBits_roundTo]
  exact roundMag_le_inf n d

/-- A word's own exact value rounds to the word. -/
theorem roundTo_self {w : Word} {d : Nat} (hw : isNaN w = false) (hd : 0 < d) :
    roundTo (signBit w) (magUnits w * d) d = w := by
  rw [roundTo, magUnits_eq, roundMag_exact ((isNaN_eq_false_iff w).mp hw) hd, packSign_self]

end Sys2Proof.Machine
end

