-- ==== Sys2Proof/Laws/Bounds.lean ====
section
/-! SUPPORT. What the four operations answer on finite operands, the order of the results' magnitudes, and the
comparisons and the clamp in terms of patterns. -/

namespace Sys2Proof.Machine

/-! ### Finite words -/

theorem isNaN_of_isFinite {w : Word} (h : isFinite w = true) : isNaN w = false :=
  (isNaN_eq_false_iff w).mpr (Nat.le_of_lt ((isFinite_iff w).mp h))

theorem isInf_of_isFinite {w : Word} (h : isFinite w = true) : isInf w = false := by
  rw [← Bool.not_eq_true, isInf_iff]
  have := (isFinite_iff w).mp h
  omega

/-- A word that is neither a NaN nor an infinity is finite. -/
theorem isFinite_of_not {w : Word} (h1 : isNaN w = false) (h2 : isInf w = false) : isFinite w = true := by
  rw [← Bool.not_eq_true, isInf_iff] at h2
  rw [isNaN_eq_false_iff] at h1
  rw [isFinite_iff]
  omega

theorem magUnits_pos {w : Word} (h : isZero w = false) : 0 < magUnits w := by
  rw [← Bool.not_eq_true, isZero_iff] at h
  rw [magUnits_eq, ← magOfBits_zero, magOfBits_lt_iff]
  omega

theorem magUnits_eq_zero_iff (w : Word) : magUnits w = 0 ↔ isZero w = true := by
  rw [isZero_iff, magUnits_eq]
  constructor
  · intro h
    by_contra hne
    have := magOfBits_lt_iff.mpr (Nat.pos_of_ne_zero hne)
    rw [magOfBits_zero] at this
    omega
  · intro h
    rw [h, magOfBits_zero]

theorem units_of_pos {w : Word} (h : signBit w = false) : units w = magUnits w := by simp [units, h]

theorem units_of_neg {w : Word} (h : signBit w = true) : units w = -(magUnits w : Int) := by simp [units, h]

/-- A word is finite if its magnitude is at most that of a finite word. -/
theorem isFinite_of_magBits_le {a b : Word} (h : magBits a ≤ magBits b) (hb : isFinite b = true) : isFinite a = true := by
  rw [isFinite_iff] at *
  omega

/-- A word that is no NaN and whose value lies within `2^51` is finite. -/
theorem isFinite_of_units {v : Word} (hn : isNaN v = false) (h1 : -(2 : Int) ^ 200 ≤ units v) (h2 : units v ≤ 2 ^ 200) :
    isFinite v = true := by
  apply isFinite_of_not hn
  rw [← Bool.not_eq_true, isInf_iff]
  intro h
  have hm : magUnits v = 2 ^ 23 * 2 ^ 254 := by
    rw [magUnits_eq, h]
    decide
  unfold units at h1 h2
  rw [hm] at h1 h2
  split at h1
  · norm_num at h1
  · rename_i hs
    rw [if_neg hs] at h2
    norm_num at h2

theorem signBit_of_units_pos {a : Word} (h : 0 < units a) : signBit a = false := by
  cases hs : signBit a with
  | false => rfl
  | true =>
    rw [units_of_neg hs] at h
    omega

/-- A word of value at least 0 other than `-0` has no sign. -/
theorem signBit_of_units_nonneg {v : Word} (h : 0 ≤ units v) (hz : v ≠ negZero) : signBit v = false := by
  cases hs : signBit v with
  | false => rfl
  | true =>
    rw [units_of_neg hs] at h
    have hm : magUnits v = 0 := by omega
    rw [magUnits_eq_zero_iff, isZero_iff] at hm
    exact absurd (word_ext (hs.trans (by decide)) (hm.trans (by decide))) hz

/-! ### `neg` (R103) -/

theorem signBit_neg {a : Word} (h : isNaN a = false) : signBit (neg a) = !signBit a := by
  simp [neg, h, signBit]

theorem magBits_neg {a : Word} (h : isNaN a = false) : magBits (neg a) = magBits a := by
  unfold neg magBits
  rw [h, if_neg (by decide), BitVec.toNat_xor, Nat.xor_mod_two_pow]
  simp

/-! ### The operations on finite operands (R102 to R105) -/

theorem fadd_of_finite {a b : Word} (ha : isFinite a = true) (hb : isFinite b = true) :
    fadd a b =
      if units a + units b = 0 then (if isZero a && isZero b && signBit a && signBit b then negZero else posZero)
      else roundTo (decide (units a + units b < 0)) (units a + units b).natAbs 1 := by
  simp [fadd, isNaN_of_isFinite ha, isNaN_of_isFinite hb, isInf_of_isFinite ha, isInf_of_isFinite hb]

theorem fmul_of_finite {a b : Word} (ha : isFinite a = true) (hb : isFinite b = true) :
    fmul a b = roundTo (xorSign a b) (magUnits a * magUnits b) unitsPerOne := by
  simp [fmul, isNaN_of_isFinite ha, isNaN_of_isFinite hb, isInf_of_isFinite ha, isInf_of_isFinite hb]

theorem fdiv_of_finite {a b : Word} (ha : isFinite a = true) (hb : isFinite b = true) (hz : isZero b = false) :
    fdiv a b = roundTo (xorSign a b) (magUnits a * unitsPerOne) (magUnits b) := by
  simp [fdiv, isNaN_of_isFinite ha, isNaN_of_isFinite hb, isInf_of_isFinite ha, isInf_of_isFinite hb, hz]

theorem magBits_fmul {a b : Word} (ha : isFinite a = true) (hb : isFinite b = true) :
    magBits (fmul a b) = roundMag (magUnits a * magUnits b) unitsPerOne := by
  rw [fmul_of_finite ha hb, magBits_roundTo]

theorem magBits_fdiv {a b : Word} (ha : isFinite a = true) (hb : isFinite b = true) (hz : isZero b = false) :
    magBits (fdiv a b) = roundMag (magUnits a * unitsPerOne) (magUnits b) := by
  rw [fdiv_of_finite ha hb hz, magBits_roundTo]

/-- The magnitude of a product of finite words grows with the magnitudes of the factors. -/
theorem magBits_fmul_mono {a b a' b' : Word} (ha : isFinite a = true) (hb : isFinite b = true)
    (ha' : isFinite a' = true) (hb' : isFinite b' = true) (h1 : magBits a ≤ magBits a') (h2 : magBits b ≤ magBits b') :
    magBits (fmul a b) ≤ magBits (fmul a' b') := by
  rw [magBits_fmul ha hb, magBits_fmul ha' hb']
  refine roundMag_mono (by decide) (by decide) (Nat.mul_le_mul_right _ (Nat.mul_le_mul ?_ ?_))
  · rw [magUnits_eq, magUnits_eq, magOfBits_le_iff]; exact h1
  · rw [magUnits_eq, magUnits_eq, magOfBits_le_iff]; exact h2

/-- The magnitude of a quotient grows with the dividend's magnitude and falls with the divisor's. -/
theorem magBits_fdiv_mono {a b a' b' : Word} (ha : isFinite a = true) (hb : isFinite b = true) (hz : isZero b = false)
    (ha' : isFinite a' = true) (hb' : isFinite b' = true) (hz' : isZero b' = false)
    (h1 : magBits a ≤ magBits a') (h2 : magBits b' ≤ magBits b) : magBits (fdiv a b) ≤ magBits (fdiv a' b') := by
  rw [magBits_fdiv ha hb hz, magBits_fdiv ha' hb' hz']
  refine roundMag_mono (magUnits_pos hz) (magUnits_pos hz') (Nat.mul_le_mul (Nat.mul_le_mul_right _ ?_) ?_)
  · rw [magUnits_eq, magUnits_eq, magOfBits_le_iff]; exact h1
  · rw [magUnits_eq, magUnits_eq, magOfBits_le_iff]; exact h2

theorem signBit_fmul {a b : Word} (ha : isFinite a = true) (hb : isFinite b = true) :
    signBit (fmul a b) = xorSign a b := by rw [fmul_of_finite ha hb, signBit_roundTo]

theorem signBit_fdiv {a b : Word} (ha : isFinite a = true) (hb : isFinite b = true) (hz : isZero b = false) :
    signBit (fdiv a b) = xorSign a b := by rw [fdiv_of_finite ha hb hz, signBit_roundTo]

/-- A product of finite words is no NaN. -/
theorem isNaN_fmul {a b : Word} (ha : isFinite a = true) (hb : isFinite b = true) : isNaN (fmul a b) = false := by
  rw [fmul_of_finite ha hb]; exact isNaN_roundTo _ _ _

theorem isNaN_fdiv {a b : Word} (ha : isFinite a = true) (hb : isFinite b = true) (hz : isZero b = false) :
    isNaN (fdiv a b) = false := by
  rw [fdiv_of_finite ha hb hz]; exact isNaN_roundTo _ _ _

/-- A sum of a finite word and a word that is no NaN is no NaN. -/
theorem isNaN_fadd {a b : Word} (ha : isFinite a = true) (hb : isNaN b = false) : isNaN (fadd a b) = false := by
  unfold fadd
  simp only [isNaN_of_isFinite ha, hb, isInf_of_isFinite ha, Bool.or_self, Bool.false_eq_true, ↓reduceIte]
  split
  · exact hb
  · split
    · split <;> rfl
    · exact isNaN_roundTo _ _ _

/-! ### Comparisons (R107) and the clamp (R108) in terms of patterns -/

theorem fle_iff {a b : Word} : fle a b = true ↔ isNaN a = false ∧ isNaN b = false ∧ units a ≤ units b := by
  simp [fle, and_assoc]

theorem flt_iff {a b : Word} : flt a b = true ↔ isNaN a = false ∧ isNaN b = false ∧ units a < units b := by
  simp [flt, and_assoc]

theorem feq_iff {a b : Word} : feq a b = true ↔ isNaN a = false ∧ isNaN b = false ∧ units a = units b := by
  simp [feq, and_assoc]

/-- Words without a sign are ordered as their patterns. -/
theorem units_le_iff_of_pos {a b : Word} (ha : signBit a = false) (hb : signBit b = false) :
    units a ≤ units b ↔ magBits a ≤ magBits b := by
  rw [units_of_pos ha, units_of_pos hb, magUnits_eq, magUnits_eq, Int.ofNat_le, magOfBits_le_iff]

/-- The value of a word determines it, but for the sign of a zero. -/
theorem eq_of_units_eq {a b : Word} (h : units a = units b) (hz : isZero a = false) : a = b := by
  have hpa := magUnits_pos hz
  have key : ∀ {x y : Word}, magUnits x = magUnits y → magBits x = magBits y := by
    intro x y hxy
    rw [magUnits_eq, magUnits_eq] at hxy
    exact magOfBits_strictMono.injective hxy
  cases hsa : signBit a <;> cases hsb : signBit b
  · rw [units_of_pos hsa, units_of_pos hsb] at h
    exact word_ext (hsa.trans hsb.symm) (key (by omega))
  · rw [units_of_pos hsa, units_of_neg hsb] at h
    omega
  · rw [units_of_neg hsa, units_of_pos hsb] at h
    omega
  · rw [units_of_neg hsa, units_of_neg hsb] at h
    exact word_ext (hsa.trans hsb.symm) (key (by omega))

/-- The clamp answers the lower bound, the upper bound or its argument (R108). -/
theorem clamp_cases {v lo hi : Word} (hv : isNaN v = false) (hlo : isNaN lo = false) (hhi : isNaN hi = false) :
    (units v ≤ units lo ∧ clamp v lo hi = lo) ∨
    (units lo < units v ∧ units hi ≤ units v ∧ clamp v lo hi = hi) ∨
    (units lo < units v ∧ units v < units hi ∧ clamp v lo hi = v) := by
  unfold clamp fge
  by_cases h1 : units v ≤ units lo
  · exact .inl ⟨h1, if_pos (fle_iff.mpr ⟨hv, hlo, h1⟩)⟩
  · have h1' : ¬ fle v lo = true := fun h => h1 (fle_iff.mp h).2.2
    rw [if_neg h1']
    by_cases h2 : units hi ≤ units v
    · exact .inr (.inl ⟨not_le.mp h1, h2, if_pos (fle_iff.mpr ⟨hhi, hv, h2⟩)⟩)
    · exact .inr (.inr ⟨not_le.mp h1, not_le.mp h2, if_neg fun h => h2 (fle_iff.mp h).2.2⟩)

/-- `floor_int` of a finite word (R110). -/
theorem floorInt_of_finite {v : Word} (h : isFinite v = true) : floorInt v = some (units v / (unitsPerOne : Int)) :=
  if_pos h

/-- `ceil_int` of a finite word (R110). -/
theorem ceilInt_of_finite {v : Word} (h : isFinite v = true) : ceilInt v = some (-(-units v / (unitsPerOne : Int))) :=
  if_pos h

end Sys2Proof.Machine
end

