-- ==== Sys2Proof/Laws/Config.lean ====
section
/-! SUPPORT. This hardware's configuration, member by member, and the meanings of this hardware as the parametric ones at
that configuration. -/

namespace Sys2Proof.Machine

/-! ### The members of `CFG` (`00_scope.md` R9) -/

@[simp] theorem cfg_nch : Config.cfg.nch = 2 := rfl
@[simp] theorem cfg_bufdepth : Config.cfg.bufdepth = 32768 := rfl
@[simp] theorem cfg_margin : Config.cfg.margin = 1 := rfl
@[simp] theorem cfg_excMs : Config.cfg.excMs = 0x41200000 := rfl
@[simp] theorem cfg_fsMin : Config.cfg.fsMin = one := rfl
@[simp] theorem cfg_num : Config.cfg.num = binary32 := rfl

/-! ### The members of `NUM` -/

@[simp] theorem binary32_isNaN (w : Word) : binary32.isNaN w = isNaN w := rfl
@[simp] theorem binary32_isFinite (w : Word) : binary32.isFinite w = isFinite w := rfl
@[simp] theorem binary32_fadd (a b : Word) : binary32.fadd a b = fadd a b := rfl
@[simp] theorem binary32_neg (a : Word) : binary32.neg a = neg a := rfl
@[simp] theorem binary32_fsub (a b : Word) : binary32.fsub a b = fsub a b := rfl
@[simp] theorem binary32_fmul (a b : Word) : binary32.fmul a b = fmul a b := rfl
@[simp] theorem binary32_fdiv (a b : Word) : binary32.fdiv a b = fdiv a b := rfl
@[simp] theorem binary32_flt (a b : Word) : binary32.flt a b = flt a b := rfl
@[simp] theorem binary32_fle (a b : Word) : binary32.fle a b = fle a b := rfl
@[simp] theorem binary32_fgt (a b : Word) : binary32.fgt a b = fgt a b := rfl
@[simp] theorem binary32_fge (a b : Word) : binary32.fge a b = fge a b := rfl
@[simp] theorem binary32_feq (a b : Word) : binary32.feq a b = feq a b := rfl
@[simp] theorem binary32_clamp (v lo hi : Word) : binary32.clamp v lo hi = clamp v lo hi := rfl
@[simp] theorem binary32_blend (w p q : Word) : binary32.blend w p q = blend w p q := rfl
@[simp] theorem binary32_floorInt (v : Word) : binary32.floorInt v = floorInt v := rfl
@[simp] theorem binary32_ceilInt (v : Word) : binary32.ceilInt v = ceilInt v := rfl
@[simp] theorem binary32_floatOfNat (n : Nat) : binary32.floatOfNat n = floatOfNat n := rfl
@[simp] theorem binary32_frac24 (n : Nat) : binary32.frac24 n = frac24 n := rfl
@[simp] theorem binary32_quotientIncrement (q : Word) : binary32.quotientIncrement q = quotientIncrement q := rfl
@[simp] theorem binary32_msToSamples (ms fs : Word) : binary32.msToSamples ms fs = msToSamples ms fs := rfl

/-! ### The composite operations of the rules, at this hardware's configuration -/

theorem clampParam_cfg (i : ParamId) (v : Word) : clampParam Config.cfg i v = clamp v i.lo i.hi := rfl

theorem excursionSamples_cfg (fs : Word) : excursionSamples Config.cfg fs = msToSamples 0x41200000 fs := rfl

theorem maxDelaySamples_cfg (fs : Word) :
    maxDelaySamples Config.cfg fs = msToSamples (fadd 0x42C80000 0x41200000) fs := rfl

theorem capacityOf_cfg (maxd : Word) : capacityOf Config.cfg maxd =
    match ceilInt maxd with
    | some n => some (n.toNat + 1)
    | none => none := rfl

theorem splitDelay_cfg (d : Word) : splitDelay Config.cfg d =
    match floorInt d with
    | some n => .ok (n.toNat, fsub d (floatOfNat n.toNat))
    | none => .error .nonFiniteConversion := rfl

theorem phaseIncrement_cfg (rate fs : Word) : phaseIncrement Config.cfg rate fs =
    if isFinite (fdiv rate fs) then .ok (quotientIncrement (fdiv rate fs)) else .error .nonFiniteConversion := rfl

theorem feedbackValue_cfg (feedback x delayed : Word) :
    feedbackValue Config.cfg feedback x delayed = fadd x (fmul feedback delayed) := rfl

theorem mixOutput_cfg (mix x delayed : Word) :
    mixOutput Config.cfg mix x delayed = if feq mix posZero then x else blend mix x delayed := rfl

theorem rawDelay_cfg (delay depth fs excs lfo : Word) : rawDelay Config.cfg delay depth fs excs lfo =
    fadd (fdiv (fmul delay fs) thousand) (fmul (fmul depth excs) lfo) := rfl

theorem delayLength_cfg (draw maxd : Word) : delayLength Config.cfg draw maxd =
    clamp draw one (if fge maxd one then maxd else one) := rfl

/-! ### Execution at this hardware's configuration -/

theorem execPrepare_eq (sr mb : Word) (s : State) : execPrepare sr mb s = prepareUnder Config.cfg sr mb s := rfl

theorem execSetp_eq (id : Byte) (v : Word) (s : State) : execSetp id v s = setpUnder Config.cfg id v s := rfl

theorem execSetst_eq (mask : Byte) (v0 v1 v2 v3 v4 : Word) (s : State) :
    execSetst mask v0 v1 v2 v3 v4 s = setstUnder Config.cfg mask v0 v1 v2 v3 v4 s := rfl

theorem execBegin_eq (nch : Byte) (ns : Word) (s : State) : execBegin nch ns s = beginUnder Config.cfg nch ns s := rfl

theorem execFrame_eq (xs : List Word) (s : State) : execFrame xs s = frameUnder Config.cfg xs s := rfl

end Sys2Proof.Machine
end

