-- ==== Sys2Proof/Laws/State.lean ====
section
/-! SUPPORT. The small lemmas of the state record: what each update leaves in each field. -/

namespace Sys2Proof.Machine

/-! ### `respondOk`: only the response -/

@[simp] theorem respondOk_param (data : List Word) (s : State) : (respondOk data s).param = s.param := rfl
@[simp] theorem respondOk_snap (data : List Word) (s : State) : (respondOk data s).snap = s.snap := rfl
@[simp] theorem respondOk_phase (data : List Word) (s : State) : (respondOk data s).phase = s.phase := rfl
@[simp] theorem respondOk_fs (data : List Word) (s : State) : (respondOk data s).fs = s.fs := rfl
@[simp] theorem respondOk_maxblk (data : List Word) (s : State) : (respondOk data s).maxblk = s.maxblk := rfl
@[simp] theorem respondOk_excs (data : List Word) (s : State) : (respondOk data s).excs = s.excs := rfl
@[simp] theorem respondOk_maxd (data : List Word) (s : State) : (respondOk data s).maxd = s.maxd := rfl
@[simp] theorem respondOk_cap (data : List Word) (s : State) : (respondOk data s).cap = s.cap := rfl
@[simp] theorem respondOk_lines (data : List Word) (s : State) : (respondOk data s).lines = s.lines := rfl
@[simp] theorem respondOk_eng (data : List Word) (s : State) : (respondOk data s).eng = s.eng := rfl
@[simp] theorem respondOk_blkch (data : List Word) (s : State) : (respondOk data s).blkch = s.blkch := rfl
@[simp] theorem respondOk_remain (data : List Word) (s : State) : (respondOk data s).remain = s.remain := rfl
@[simp] theorem respondOk_sticky (data : List Word) (s : State) : (respondOk data s).sticky = s.sticky := rfl
@[simp] theorem respondOk_response (data : List Word) (s : State) : (respondOk data s).response = okWord :: data := rfl
@[simp] theorem respondOk_cpIn (data : List Word) (s : State) : (respondOk data s).cpIn = s.cpIn := rfl
@[simp] theorem respondOk_apIn (data : List Word) (s : State) : (respondOk data s).apIn = s.apIn := rfl
@[simp] theorem respondOk_cpOut (data : List Word) (s : State) : (respondOk data s).cpOut = s.cpOut := rfl
@[simp] theorem respondOk_apOut (data : List Word) (s : State) : (respondOk data s).apOut = s.apOut := rfl
@[simp] theorem respondOk_resetIn (data : List Word) (s : State) : (respondOk data s).resetIn = s.resetIn := rfl
@[simp] theorem respondOk_turn (data : List Word) (s : State) : (respondOk data s).turn = s.turn := rfl

/-! ### `raiseError`: the sticky flag and the response -/

@[simp] theorem raiseError_param (e : ErrCode) (info : Byte) (s : State) : (raiseError e info s).param = s.param := rfl
@[simp] theorem raiseError_snap (e : ErrCode) (info : Byte) (s : State) : (raiseError e info s).snap = s.snap := rfl
@[simp] theorem raiseError_phase (e : ErrCode) (info : Byte) (s : State) : (raiseError e info s).phase = s.phase := rfl
@[simp] theorem raiseError_fs (e : ErrCode) (info : Byte) (s : State) : (raiseError e info s).fs = s.fs := rfl
@[simp] theorem raiseError_maxblk (e : ErrCode) (info : Byte) (s : State) : (raiseError e info s).maxblk = s.maxblk := rfl
@[simp] theorem raiseError_excs (e : ErrCode) (info : Byte) (s : State) : (raiseError e info s).excs = s.excs := rfl
@[simp] theorem raiseError_maxd (e : ErrCode) (info : Byte) (s : State) : (raiseError e info s).maxd = s.maxd := rfl
@[simp] theorem raiseError_cap (e : ErrCode) (info : Byte) (s : State) : (raiseError e info s).cap = s.cap := rfl
@[simp] theorem raiseError_lines (e : ErrCode) (info : Byte) (s : State) : (raiseError e info s).lines = s.lines := rfl
@[simp] theorem raiseError_eng (e : ErrCode) (info : Byte) (s : State) : (raiseError e info s).eng = s.eng := rfl
@[simp] theorem raiseError_blkch (e : ErrCode) (info : Byte) (s : State) : (raiseError e info s).blkch = s.blkch := rfl
@[simp] theorem raiseError_remain (e : ErrCode) (info : Byte) (s : State) : (raiseError e info s).remain = s.remain := rfl
@[simp] theorem raiseError_sticky (e : ErrCode) (info : Byte) (s : State) : (raiseError e info s).sticky = setSticky s.sticky e := rfl
@[simp] theorem raiseError_response (e : ErrCode) (info : Byte) (s : State) : (raiseError e info s).response = errorResponse e info := rfl
@[simp] theorem raiseError_cpIn (e : ErrCode) (info : Byte) (s : State) : (raiseError e info s).cpIn = s.cpIn := rfl
@[simp] theorem raiseError_apIn (e : ErrCode) (info : Byte) (s : State) : (raiseError e info s).apIn = s.apIn := rfl
@[simp] theorem raiseError_cpOut (e : ErrCode) (info : Byte) (s : State) : (raiseError e info s).cpOut = s.cpOut := rfl
@[simp] theorem raiseError_apOut (e : ErrCode) (info : Byte) (s : State) : (raiseError e info s).apOut = s.apOut := rfl
@[simp] theorem raiseError_resetIn (e : ErrCode) (info : Byte) (s : State) : (raiseError e info s).resetIn = s.resetIn := rfl
@[simp] theorem raiseError_turn (e : ErrCode) (info : Byte) (s : State) : (raiseError e info s).turn = s.turn := rfl

/-! ### `clearLines`: the lines, the cursors and the phase -/

@[simp] theorem clearLines_param (s : State) : (clearLines s).param = s.param := rfl
@[simp] theorem clearLines_snap (s : State) : (clearLines s).snap = s.snap := rfl
@[simp] theorem clearLines_phase (s : State) : (clearLines s).phase = 0 := rfl
@[simp] theorem clearLines_fs (s : State) : (clearLines s).fs = s.fs := rfl
@[simp] theorem clearLines_maxblk (s : State) : (clearLines s).maxblk = s.maxblk := rfl
@[simp] theorem clearLines_excs (s : State) : (clearLines s).excs = s.excs := rfl
@[simp] theorem clearLines_maxd (s : State) : (clearLines s).maxd = s.maxd := rfl
@[simp] theorem clearLines_cap (s : State) : (clearLines s).cap = s.cap := rfl
@[simp] theorem clearLines_lines (s : State) : (clearLines s).lines = s.lines.map (clearLine s.cap) := rfl
@[simp] theorem clearLines_eng (s : State) : (clearLines s).eng = s.eng := rfl
@[simp] theorem clearLines_blkch (s : State) : (clearLines s).blkch = s.blkch := rfl
@[simp] theorem clearLines_remain (s : State) : (clearLines s).remain = s.remain := rfl
@[simp] theorem clearLines_sticky (s : State) : (clearLines s).sticky = s.sticky := rfl
@[simp] theorem clearLines_response (s : State) : (clearLines s).response = s.response := rfl
@[simp] theorem clearLines_cpIn (s : State) : (clearLines s).cpIn = s.cpIn := rfl
@[simp] theorem clearLines_apIn (s : State) : (clearLines s).apIn = s.apIn := rfl
@[simp] theorem clearLines_cpOut (s : State) : (clearLines s).cpOut = s.cpOut := rfl
@[simp] theorem clearLines_apOut (s : State) : (clearLines s).apOut = s.apOut := rfl
@[simp] theorem clearLines_resetIn (s : State) : (clearLines s).resetIn = s.resetIn := rfl
@[simp] theorem clearLines_turn (s : State) : (clearLines s).turn = s.turn := rfl

/-! ### `prepared`: what a successful PREPARE writes -/

@[simp] theorem prepared_param (cfg : Config.Cfg) (sampleRate maxBlockSize : Word) (cap : Nat) (s : State) :
    (prepared cfg sampleRate maxBlockSize cap s).param = s.param := rfl
@[simp] theorem prepared_snap (cfg : Config.Cfg) (sampleRate maxBlockSize : Word) (cap : Nat) (s : State) :
    (prepared cfg sampleRate maxBlockSize cap s).snap = s.snap := rfl
@[simp] theorem prepared_phase (cfg : Config.Cfg) (sampleRate maxBlockSize : Word) (cap : Nat) (s : State) :
    (prepared cfg sampleRate maxBlockSize cap s).phase = 0 := rfl
@[simp] theorem prepared_fs (cfg : Config.Cfg) (sampleRate maxBlockSize : Word) (cap : Nat) (s : State) :
    (prepared cfg sampleRate maxBlockSize cap s).fs = sampleRate := rfl
@[simp] theorem prepared_maxblk (cfg : Config.Cfg) (sampleRate maxBlockSize : Word) (cap : Nat) (s : State) :
    (prepared cfg sampleRate maxBlockSize cap s).maxblk = maxBlockSize := rfl
@[simp] theorem prepared_excs (cfg : Config.Cfg) (sampleRate maxBlockSize : Word) (cap : Nat) (s : State) :
    (prepared cfg sampleRate maxBlockSize cap s).excs = excursionSamples cfg sampleRate := rfl
@[simp] theorem prepared_maxd (cfg : Config.Cfg) (sampleRate maxBlockSize : Word) (cap : Nat) (s : State) :
    (prepared cfg sampleRate maxBlockSize cap s).maxd = maxDelaySamples cfg sampleRate := rfl
@[simp] theorem prepared_cap (cfg : Config.Cfg) (sampleRate maxBlockSize : Word) (cap : Nat) (s : State) :
    (prepared cfg sampleRate maxBlockSize cap s).cap = cap := rfl
@[simp] theorem prepared_lines (cfg : Config.Cfg) (sampleRate maxBlockSize : Word) (cap : Nat) (s : State) :
    (prepared cfg sampleRate maxBlockSize cap s).lines = s.lines.map (clearLine cap) := rfl
@[simp] theorem prepared_eng (cfg : Config.Cfg) (sampleRate maxBlockSize : Word) (cap : Nat) (s : State) :
    (prepared cfg sampleRate maxBlockSize cap s).eng = .prepared := rfl
@[simp] theorem prepared_blkch (cfg : Config.Cfg) (sampleRate maxBlockSize : Word) (cap : Nat) (s : State) :
    (prepared cfg sampleRate maxBlockSize cap s).blkch = s.blkch := rfl
@[simp] theorem prepared_remain (cfg : Config.Cfg) (sampleRate maxBlockSize : Word) (cap : Nat) (s : State) :
    (prepared cfg sampleRate maxBlockSize cap s).remain = s.remain := rfl
@[simp] theorem prepared_sticky (cfg : Config.Cfg) (sampleRate maxBlockSize : Word) (cap : Nat) (s : State) :
    (prepared cfg sampleRate maxBlockSize cap s).sticky = s.sticky := rfl
@[simp] theorem prepared_response (cfg : Config.Cfg) (sampleRate maxBlockSize : Word) (cap : Nat) (s : State) :
    (prepared cfg sampleRate maxBlockSize cap s).response = s.response := rfl
@[simp] theorem prepared_cpIn (cfg : Config.Cfg) (sampleRate maxBlockSize : Word) (cap : Nat) (s : State) :
    (prepared cfg sampleRate maxBlockSize cap s).cpIn = s.cpIn := rfl
@[simp] theorem prepared_apIn (cfg : Config.Cfg) (sampleRate maxBlockSize : Word) (cap : Nat) (s : State) :
    (prepared cfg sampleRate maxBlockSize cap s).apIn = s.apIn := rfl
@[simp] theorem prepared_cpOut (cfg : Config.Cfg) (sampleRate maxBlockSize : Word) (cap : Nat) (s : State) :
    (prepared cfg sampleRate maxBlockSize cap s).cpOut = s.cpOut := rfl
@[simp] theorem prepared_apOut (cfg : Config.Cfg) (sampleRate maxBlockSize : Word) (cap : Nat) (s : State) :
    (prepared cfg sampleRate maxBlockSize cap s).apOut = s.apOut := rfl
@[simp] theorem prepared_resetIn (cfg : Config.Cfg) (sampleRate maxBlockSize : Word) (cap : Nat) (s : State) :
    (prepared cfg sampleRate maxBlockSize cap s).resetIn = s.resetIn := rfl
@[simp] theorem prepared_turn (cfg : Config.Cfg) (sampleRate maxBlockSize : Word) (cap : Nat) (s : State) :
    (prepared cfg sampleRate maxBlockSize cap s).turn = s.turn := rfl

/-! ### `blockOpened`: what a successful BEGIN writes -/

@[simp] theorem blockOpened_param (numChannels : Byte) (numSamples : Word) (s : State) : (blockOpened numChannels numSamples s).param = s.param := rfl
@[simp] theorem blockOpened_snap (numChannels : Byte) (numSamples : Word) (s : State) : (blockOpened numChannels numSamples s).snap = s.param := rfl
@[simp] theorem blockOpened_phase (numChannels : Byte) (numSamples : Word) (s : State) : (blockOpened numChannels numSamples s).phase = s.phase := rfl
@[simp] theorem blockOpened_fs (numChannels : Byte) (numSamples : Word) (s : State) : (blockOpened numChannels numSamples s).fs = s.fs := rfl
@[simp] theorem blockOpened_maxblk (numChannels : Byte) (numSamples : Word) (s : State) : (blockOpened numChannels numSamples s).maxblk = s.maxblk := rfl
@[simp] theorem blockOpened_excs (numChannels : Byte) (numSamples : Word) (s : State) : (blockOpened numChannels numSamples s).excs = s.excs := rfl
@[simp] theorem blockOpened_maxd (numChannels : Byte) (numSamples : Word) (s : State) : (blockOpened numChannels numSamples s).maxd = s.maxd := rfl
@[simp] theorem blockOpened_cap (numChannels : Byte) (numSamples : Word) (s : State) : (blockOpened numChannels numSamples s).cap = s.cap := rfl
@[simp] theorem blockOpened_lines (numChannels : Byte) (numSamples : Word) (s : State) : (blockOpened numChannels numSamples s).lines = s.lines := rfl
@[simp] theorem blockOpened_eng (numChannels : Byte) (numSamples : Word) (s : State) : (blockOpened numChannels numSamples s).eng = .processing := rfl
@[simp] theorem blockOpened_blkch (numChannels : Byte) (numSamples : Word) (s : State) : (blockOpened numChannels numSamples s).blkch = numChannels.toNat := rfl
@[simp] theorem blockOpened_remain (numChannels : Byte) (numSamples : Word) (s : State) : (blockOpened numChannels numSamples s).remain = (s32 numSamples).toNat := rfl
@[simp] theorem blockOpened_sticky (numChannels : Byte) (numSamples : Word) (s : State) : (blockOpened numChannels numSamples s).sticky = s.sticky := rfl
@[simp] theorem blockOpened_response (numChannels : Byte) (numSamples : Word) (s : State) : (blockOpened numChannels numSamples s).response = s.response := rfl
@[simp] theorem blockOpened_cpIn (numChannels : Byte) (numSamples : Word) (s : State) : (blockOpened numChannels numSamples s).cpIn = s.cpIn := rfl
@[simp] theorem blockOpened_apIn (numChannels : Byte) (numSamples : Word) (s : State) : (blockOpened numChannels numSamples s).apIn = s.apIn := rfl
@[simp] theorem blockOpened_cpOut (numChannels : Byte) (numSamples : Word) (s : State) : (blockOpened numChannels numSamples s).cpOut = s.cpOut := rfl
@[simp] theorem blockOpened_apOut (numChannels : Byte) (numSamples : Word) (s : State) : (blockOpened numChannels numSamples s).apOut = s.apOut := rfl
@[simp] theorem blockOpened_resetIn (numChannels : Byte) (numSamples : Word) (s : State) : (blockOpened numChannels numSamples s).resetIn = s.resetIn := rfl
@[simp] theorem blockOpened_turn (numChannels : Byte) (numSamples : Word) (s : State) : (blockOpened numChannels numSamples s).turn = s.turn := rfl

/-! ### `deliver`: the response leaves on CP -/

@[simp] theorem deliver_cp_param (s : State) : (deliver .cp s).param = s.param := rfl
@[simp] theorem deliver_cp_snap (s : State) : (deliver .cp s).snap = s.snap := rfl
@[simp] theorem deliver_cp_phase (s : State) : (deliver .cp s).phase = s.phase := rfl
@[simp] theorem deliver_cp_fs (s : State) : (deliver .cp s).fs = s.fs := rfl
@[simp] theorem deliver_cp_maxblk (s : State) : (deliver .cp s).maxblk = s.maxblk := rfl
@[simp] theorem deliver_cp_excs (s : State) : (deliver .cp s).excs = s.excs := rfl
@[simp] theorem deliver_cp_maxd (s : State) : (deliver .cp s).maxd = s.maxd := rfl
@[simp] theorem deliver_cp_cap (s : State) : (deliver .cp s).cap = s.cap := rfl
@[simp] theorem deliver_cp_lines (s : State) : (deliver .cp s).lines = s.lines := rfl
@[simp] theorem deliver_cp_eng (s : State) : (deliver .cp s).eng = s.eng := rfl
@[simp] theorem deliver_cp_blkch (s : State) : (deliver .cp s).blkch = s.blkch := rfl
@[simp] theorem deliver_cp_remain (s : State) : (deliver .cp s).remain = s.remain := rfl
@[simp] theorem deliver_cp_sticky (s : State) : (deliver .cp s).sticky = s.sticky := rfl
@[simp] theorem deliver_cp_response (s : State) : (deliver .cp s).response = [] := rfl
@[simp] theorem deliver_cp_cpIn (s : State) : (deliver .cp s).cpIn = s.cpIn := rfl
@[simp] theorem deliver_cp_apIn (s : State) : (deliver .cp s).apIn = s.apIn := rfl
@[simp] theorem deliver_cp_cpOut (s : State) : (deliver .cp s).cpOut = s.cpOut ++ [s.response] := rfl
@[simp] theorem deliver_cp_apOut (s : State) : (deliver .cp s).apOut = s.apOut := rfl
@[simp] theorem deliver_cp_resetIn (s : State) : (deliver .cp s).resetIn = s.resetIn := rfl
@[simp] theorem deliver_cp_turn (s : State) : (deliver .cp s).turn = s.turn := rfl

/-! ### `deliver`: the response leaves on AP -/

@[simp] theorem deliver_ap_param (s : State) : (deliver .ap s).param = s.param := rfl
@[simp] theorem deliver_ap_snap (s : State) : (deliver .ap s).snap = s.snap := rfl
@[simp] theorem deliver_ap_phase (s : State) : (deliver .ap s).phase = s.phase := rfl
@[simp] theorem deliver_ap_fs (s : State) : (deliver .ap s).fs = s.fs := rfl
@[simp] theorem deliver_ap_maxblk (s : State) : (deliver .ap s).maxblk = s.maxblk := rfl
@[simp] theorem deliver_ap_excs (s : State) : (deliver .ap s).excs = s.excs := rfl
@[simp] theorem deliver_ap_maxd (s : State) : (deliver .ap s).maxd = s.maxd := rfl
@[simp] theorem deliver_ap_cap (s : State) : (deliver .ap s).cap = s.cap := rfl
@[simp] theorem deliver_ap_lines (s : State) : (deliver .ap s).lines = s.lines := rfl
@[simp] theorem deliver_ap_eng (s : State) : (deliver .ap s).eng = s.eng := rfl
@[simp] theorem deliver_ap_blkch (s : State) : (deliver .ap s).blkch = s.blkch := rfl
@[simp] theorem deliver_ap_remain (s : State) : (deliver .ap s).remain = s.remain := rfl
@[simp] theorem deliver_ap_sticky (s : State) : (deliver .ap s).sticky = s.sticky := rfl
@[simp] theorem deliver_ap_response (s : State) : (deliver .ap s).response = [] := rfl
@[simp] theorem deliver_ap_cpIn (s : State) : (deliver .ap s).cpIn = s.cpIn := rfl
@[simp] theorem deliver_ap_apIn (s : State) : (deliver .ap s).apIn = s.apIn := rfl
@[simp] theorem deliver_ap_cpOut (s : State) : (deliver .ap s).cpOut = s.cpOut := rfl
@[simp] theorem deliver_ap_apOut (s : State) : (deliver .ap s).apOut = s.apOut ++ [s.response] := rfl
@[simp] theorem deliver_ap_resetIn (s : State) : (deliver .ap s).resetIn = s.resetIn := rfl
@[simp] theorem deliver_ap_turn (s : State) : (deliver .ap s).turn = s.turn := rfl

/-! ### `hardwareReset`: the reset values, the ports kept -/

@[simp] theorem hardwareReset_param (cfg : Config.Cfg) (inProgress : Option Port) (s : State) :
    (hardwareReset cfg inProgress s).param = (State.resetUnder cfg).param := rfl
@[simp] theorem hardwareReset_snap (cfg : Config.Cfg) (inProgress : Option Port) (s : State) :
    (hardwareReset cfg inProgress s).snap = (State.resetUnder cfg).snap := rfl
@[simp] theorem hardwareReset_phase (cfg : Config.Cfg) (inProgress : Option Port) (s : State) :
    (hardwareReset cfg inProgress s).phase = (State.resetUnder cfg).phase := rfl
@[simp] theorem hardwareReset_fs (cfg : Config.Cfg) (inProgress : Option Port) (s : State) :
    (hardwareReset cfg inProgress s).fs = (State.resetUnder cfg).fs := rfl
@[simp] theorem hardwareReset_maxblk (cfg : Config.Cfg) (inProgress : Option Port) (s : State) :
    (hardwareReset cfg inProgress s).maxblk = (State.resetUnder cfg).maxblk := rfl
@[simp] theorem hardwareReset_excs (cfg : Config.Cfg) (inProgress : Option Port) (s : State) :
    (hardwareReset cfg inProgress s).excs = (State.resetUnder cfg).excs := rfl
@[simp] theorem hardwareReset_maxd (cfg : Config.Cfg) (inProgress : Option Port) (s : State) :
    (hardwareReset cfg inProgress s).maxd = (State.resetUnder cfg).maxd := rfl
@[simp] theorem hardwareReset_cap (cfg : Config.Cfg) (inProgress : Option Port) (s : State) :
    (hardwareReset cfg inProgress s).cap = (State.resetUnder cfg).cap := rfl
@[simp] theorem hardwareReset_lines (cfg : Config.Cfg) (inProgress : Option Port) (s : State) :
    (hardwareReset cfg inProgress s).lines = (State.resetUnder cfg).lines := rfl
@[simp] theorem hardwareReset_eng (cfg : Config.Cfg) (inProgress : Option Port) (s : State) :
    (hardwareReset cfg inProgress s).eng = (State.resetUnder cfg).eng := rfl
@[simp] theorem hardwareReset_blkch (cfg : Config.Cfg) (inProgress : Option Port) (s : State) :
    (hardwareReset cfg inProgress s).blkch = (State.resetUnder cfg).blkch := rfl
@[simp] theorem hardwareReset_remain (cfg : Config.Cfg) (inProgress : Option Port) (s : State) :
    (hardwareReset cfg inProgress s).remain = (State.resetUnder cfg).remain := rfl
@[simp] theorem hardwareReset_sticky (cfg : Config.Cfg) (inProgress : Option Port) (s : State) :
    (hardwareReset cfg inProgress s).sticky = (State.resetUnder cfg).sticky := rfl
@[simp] theorem hardwareReset_response (cfg : Config.Cfg) (inProgress : Option Port) (s : State) :
    (hardwareReset cfg inProgress s).response = (State.resetUnder cfg).response := rfl
@[simp] theorem hardwareReset_cpIn (cfg : Config.Cfg) (inProgress : Option Port) (s : State) :
    (hardwareReset cfg inProgress s).cpIn = discardInProgress .cp inProgress s.cpIn := rfl
@[simp] theorem hardwareReset_apIn (cfg : Config.Cfg) (inProgress : Option Port) (s : State) :
    (hardwareReset cfg inProgress s).apIn = discardInProgress .ap inProgress s.apIn := rfl
@[simp] theorem hardwareReset_cpOut (cfg : Config.Cfg) (inProgress : Option Port) (s : State) :
    (hardwareReset cfg inProgress s).cpOut = s.cpOut := rfl
@[simp] theorem hardwareReset_apOut (cfg : Config.Cfg) (inProgress : Option Port) (s : State) :
    (hardwareReset cfg inProgress s).apOut = s.apOut := rfl
@[simp] theorem hardwareReset_resetIn (cfg : Config.Cfg) (inProgress : Option Port) (s : State) :
    (hardwareReset cfg inProgress s).resetIn = (State.resetUnder cfg).resetIn := rfl
@[simp] theorem hardwareReset_turn (cfg : Config.Cfg) (inProgress : Option Port) (s : State) :
    (hardwareReset cfg inProgress s).turn = s.turn := rfl

/-! ### The parameter registers -/

@[simp] theorem Params.get_set_same (p : Params) (i : ParamId) (v : Word) : (p.set i v).get i = v := by
  cases i <;> rfl

theorem Params.get_set_other (p : Params) (i j : ParamId) (v : Word) (h : j ≠ i) : (p.set i v).get j = p.get j := by
  cases i <;> cases j <;> first | rfl | exact absurd rfl h

theorem Params.ext_get (p q : Params) (h : ∀ i, p.get i = q.get i) : p = q := by
  obtain ⟨_, _, _, _, _⟩ := p
  obtain ⟨_, _, _, _, _⟩ := q
  have h0 := h .rate
  have h1 := h .depth
  have h2 := h .delay
  have h3 := h .feedback
  have h4 := h .mix
  simp only [Params.get] at h0 h1 h2 h3 h4
  simp [h0, h1, h2, h3, h4]

theorem ParamId.mem_all (i : ParamId) : i ∈ ParamId.all := by cases i <;> decide

theorem Params.inRange_iff (p : Params) : p.inRange = true ↔ ∀ i, paramInRange i (p.get i) = true := by
  rw [Params.inRange, List.all_eq_true]
  exact ⟨fun h i => h i i.mem_all, fun h i _ => h i⟩

end Sys2Proof.Machine
end

