-- ==== Sys2Proof/Laws/Configured.lean ====
section
/-! SUPPORT. What the invariants of `10_state.md` R22 and R40 give: a stored parameter is in range, and the registers
PREPARE writes are finite and carry no sign. -/

namespace Sys2Proof.Machine

/-- What a write stores is in range (R22). -/
theorem clampParam_inRange {i : ParamId} {v : Word} (hv : isNaN v = false) : paramInRange i (clampParam Config.cfg i v) = true := by
  have hlo : isNaN i.lo = false := by cases i <;> decide
  have hhi : isNaN i.hi = false := by cases i <;> decide
  have h1 : paramInRange i i.lo = true := by cases i <;> decide
  have h2 : paramInRange i i.hi = true := by cases i <;> decide
  rw [clampParam_cfg]
  rcases clamp_cases hv hlo hhi with ⟨_, e⟩ | ⟨_, _, e⟩ | ⟨a, b, e⟩ <;> rw [e]
  · exact h1
  · exact h2
  · unfold paramInRange
    simp only [Bool.and_eq_true, fle_iff, Bool.or_eq_true, decide_eq_true_eq]
    refine ⟨⟨⟨hlo, hv, le_of_lt a⟩, hv, hhi, le_of_lt b⟩, ?_⟩
    by_cases hf : i = .feedback
    · exact .inl hf
    · right
      rintro rfl
      have h0 : 0 ≤ units i.lo := by cases i <;> first | decide | exact absurd rfl hf
      rw [show units negZero = 0 by decide] at a
      omega

/-- Writing a value in range keeps the range invariant of a register file (R22). -/
theorem Params.inRange_set {p : Params} {i : ParamId} {v : Word} (h : p.inRange = true) (hv : paramInRange i v = true) :
    (p.set i v).inRange = true := by
  unfold Params.inRange at *
  rw [List.all_eq_true] at *
  intro j hj
  by_cases hji : j = i
  · subst hji
    rw [Params.get_set_same]
    exact hv
  · rw [Params.get_set_other _ _ _ _ hji]
    exact h j hj

/-- A register of a file in range, as a value between the bounds (R22). -/
theorem Params.get_of_inRange {p : Params} (h : p.inRange = true) (i : ParamId) :
    isNaN (p.get i) = false ∧ units i.lo ≤ units (p.get i) ∧ units (p.get i) ≤ units i.hi ∧
      (i = .feedback ∨ p.get i ≠ negZero) := by
  unfold Params.inRange at h
  rw [List.all_eq_true] at h
  have hi := h i (by cases i <;> decide)
  unfold paramInRange at hi
  simp only [Bool.and_eq_true, fle_iff, Bool.or_eq_true, decide_eq_true_eq] at hi
  obtain ⟨⟨⟨_, a, b⟩, _, _, c⟩, d⟩ := hi
  exact ⟨a, b, c, d⟩

/-- The loop of SETST keeps the range invariant (R133, R22). -/
theorem applyKeys_inRange {mask : Byte} {keys : List (ParamId × Word)} {p : Params} (failed : Byte)
    (h : p.inRange = true) : (applyKeys Config.cfg mask keys p failed).1.inRange = true := by
  induction keys generalizing p failed with
  | nil => exact h
  | cons k keys ih =>
    obtain ⟨i, v⟩ := k
    unfold applyKeys
    split
    · split
      · exact ih _ h
      · rename_i hv
        exact ih _ (Params.inRange_set h (clampParam_inRange (by simpa using hv)))
    · exact ih _ h

/-- A quotient by 1000 is finite only if the dividend is (R105). -/
theorem isFinite_of_isFinite_fdiv_thousand {a : Word} (hn : isNaN a = false) (h : isFinite (fdiv a thousand) = true) :
    isFinite a = true := by
  apply isFinite_of_not hn
  by_contra hi
  simp only [Bool.not_eq_false] at hi
  have hbad : isFinite (fdiv a thousand) = false := by
    unfold fdiv
    simp only [hn, hi, show isNaN thousand = false by decide, show isInf thousand = false by decide,
      show isZero thousand = false by decide, Bool.or_self, Bool.and_false, Bool.false_or, Bool.false_eq_true,
      ↓reduceIte]
    cases xorSign a thousand <;> decide
  rw [h] at hbad
  cases hbad

/-- A length in samples of a positive time at a positive rate carries no sign (R115). -/
theorem signBit_msToSamples {ms fs : Word} (h1 : isFinite ms = true) (h2 : isFinite fs = true)
    (h3 : isFinite (fmul ms fs) = true) (s1 : signBit ms = false) (s2 : signBit fs = false) :
    signBit (msToSamples ms fs) = false := by
  unfold msToSamples
  rw [signBit_fdiv h3 (by decide) (by decide)]
  unfold xorSign
  rw [signBit_fmul h1 h2]
  unfold xorSign
  rw [s1, s2]
  decide

/-- The sample rate of a configured CORE is at least 1, finite, without sign (R25). -/
theorem State.Configured.fs_facts {s : State} (h : s.Configured) :
    isFinite s.fs = true ∧ signBit s.fs = false ∧ isZero s.fs = false ∧ units one ≤ units s.fs := by
  have hu : units one ≤ units s.fs := (fle_iff.mp h.fsMin_le).2.2
  have hp : 0 < units s.fs := lt_of_lt_of_le (by decide) hu
  refine ⟨h.fs_finite, signBit_of_units_pos hp, ?_, hu⟩
  rw [← Bool.not_eq_true, ← magUnits_eq_zero_iff]
  rw [units_of_pos (signBit_of_units_pos hp)] at hp
  omega

/-- `MAXD` of a configured CORE is finite and without sign, and its product `110 * FS` did not overflow (R28). -/
theorem State.Configured.maxd_facts {s : State} (h : s.Configured) :
    isFinite s.maxd = true ∧ signBit s.maxd = false ∧ isFinite (fmul 0x42DC0000 s.fs) = true ∧
      s.maxd = msToSamples 0x42DC0000 s.fs := by
  obtain ⟨hfin, hs, _, _⟩ := h.fs_facts
  have hm : s.maxd = msToSamples 0x42DC0000 s.fs := h.maxd_eq
  have hf : isFinite s.maxd = true := by
    have hc := h.cap_eq
    rw [capacityOf_cfg] at hc
    unfold ceilInt at hc
    by_contra hn
    rw [if_neg hn] at hc
    cases hc
  have hp : isFinite (fmul 0x42DC0000 s.fs) = true :=
    isFinite_of_isFinite_fdiv_thousand (isNaN_fmul (by decide) hfin) (by rw [hm] at hf; exact hf)
  exact ⟨hf, by rw [hm]; exact signBit_msToSamples (by decide) hfin hp (by decide) hs, hp, hm⟩

/-- A time of at most 110 ms is a finite number of samples, at most `MAXD` in magnitude (R161). -/
theorem State.Configured.msToSamples_le {s : State} (h : s.Configured) {ms : Word} (hms : isFinite ms = true)
    (hle : magBits ms ≤ magBits 0x42DC0000) :
    isFinite (fmul ms s.fs) = true ∧ isFinite (msToSamples ms s.fs) = true ∧
      magBits (msToSamples ms s.fs) ≤ magBits s.maxd := by
  obtain ⟨hfin, _, _, _⟩ := h.fs_facts
  obtain ⟨hmf, _, hp, hm⟩ := h.maxd_facts
  have hprod : magBits (fmul ms s.fs) ≤ magBits (fmul 0x42DC0000 s.fs) :=
    magBits_fmul_mono hms hfin (by decide) hfin hle le_rfl
  have hpf := isFinite_of_magBits_le hprod hp
  have hq : magBits (msToSamples ms s.fs) ≤ magBits s.maxd := by
    rw [hm]
    exact magBits_fdiv_mono hpf (by decide) (by decide) hp (by decide) (by decide) hprod le_rfl
  exact ⟨hpf, isFinite_of_magBits_le hq hmf, hq⟩

/-- `EXCS` of a configured CORE is finite and without sign (R27). -/
theorem State.Configured.excs_facts {s : State} (h : s.Configured) : isFinite s.excs = true ∧ signBit s.excs = false := by
  obtain ⟨hfin, hs, _, _⟩ := h.fs_facts
  have he : s.excs = msToSamples 0x41200000 s.fs := h.excs_eq
  obtain ⟨h1, h2, _⟩ := h.msToSamples_le (ms := 0x41200000) (by decide) (by decide)
  rw [he]
  exact ⟨h2, signBit_msToSamples (by decide) hfin h1 (by decide) hs⟩

end Sys2Proof.Machine
end

