-- ==== Sys2Proof/Laws/Memory.lean ====
section
/-! SUPPORT. The delay RAM: reading after a write and after a fill, and the canonical form under every operation. -/

namespace Sys2Proof.Machine

/-! ### Reading -/

@[simp] theorem Memory.read_nil (a : Nat) : Memory.read [] a = none := rfl

theorem Memory.read_cons (b : Nat) (v : Word) (m : Memory) (a : Nat) :
    Memory.read ((b, v) :: m) a = if a = b then some v else Memory.read m a := rfl

/-- In a list whose addresses rise above `b`, nothing at or below `b` is listed. -/
theorem Memory.read_eq_none_of_risesAbove {m : Memory} {b a : Nat} (h : m.risesAbove b = true) (hab : a ≤ b) :
    m.read a = none := by
  induction m generalizing b with
  | nil => rfl
  | cons cell m ih =>
    obtain ⟨c, v⟩ := cell
    simp only [Memory.risesAbove, Bool.and_eq_true, decide_eq_true_eq] at h
    rw [Memory.read_cons, if_neg (by omega)]
    exact ih h.2 (by omega)

/-- The word written is the word read (R52, R53). -/
@[simp] theorem Memory.read_write_same (m : Memory) (a : Nat) (v : Word) : (m.write a v).read a = some v := by
  induction m with
  | nil => simp [Memory.write, Memory.read]
  | cons cell m ih =>
    obtain ⟨b, u⟩ := cell
    simp only [Memory.write]
    split
    · simp [Memory.read_cons]
    · split
      · simp [Memory.read_cons]
      · rename_i hne
        simp [Memory.read_cons, hne, ih]

/-- A write changes no other word (R53). -/
theorem Memory.read_write_other (m : Memory) {a b : Nat} (v : Word) (h : b ≠ a) :
    (m.write a v).read b = m.read b := by
  induction m with
  | nil => simp [Memory.write, Memory.read, h]
  | cons cell m ih =>
    obtain ⟨c, u⟩ := cell
    simp only [Memory.write]
    split
    · simp [Memory.read_cons, h]
    · split
      · rename_i hac
        subst hac
        simp [Memory.read_cons, h]
      · simp [Memory.read_cons, ih]

theorem read_zeroCells (start count a : Nat) :
    Memory.read (zeroCells start count) a = if start ≤ a ∧ a < start + count then some posZero else none := by
  induction count generalizing start with
  | zero => rw [zeroCells, if_neg (by omega), Memory.read_nil]
  | succ n ih =>
    rw [zeroCells, Memory.read_cons, ih]
    by_cases h : a = start
    · simp [h]
    · rw [if_neg h]
      by_cases h' : start + 1 ≤ a ∧ a < start + 1 + n
      · rw [if_pos h', if_pos (by omega)]
      · rw [if_neg h', if_neg (by omega)]

theorem Memory.read_append (m₁ m₂ : Memory) (a : Nat) :
    Memory.read (m₁ ++ m₂) a = (m₁.read a).or (m₂.read a) := by
  induction m₁ with
  | nil => rfl
  | cons cell m₁ ih =>
    obtain ⟨b, v⟩ := cell
    rw [List.cons_append, Memory.read_cons, Memory.read_cons, ih]
    split <;> rfl

theorem Memory.read_dropBelow {m : Memory} {n a : Nat} (h : n ≤ a) :
    (m.dropBelow n).read a = m.read a := by
  induction m with
  | nil => rfl
  | cons cell m ih =>
    obtain ⟨b, v⟩ := cell
    simp only [Memory.dropBelow]
    split
    · rw [ih, Memory.read_cons, if_neg (by omega)]
    · rfl

/-- After a fill every address below `n` reads `+0.0` (R68). -/
theorem Memory.read_zeroFill_below (m : Memory) {n a : Nat} (h : a < n) :
    (m.zeroFill n).read a = some posZero := by
  rw [Memory.zeroFill, Memory.read_append, read_zeroCells, if_pos (by omega)]
  rfl

/-- A fill changes no address from `n` up (R51, R68). -/
theorem Memory.read_zeroFill_above (m : Memory) {n a : Nat} (h : n ≤ a) :
    (m.zeroFill n).read a = m.read a := by
  rw [Memory.zeroFill, Memory.read_append, read_zeroCells, if_neg (by omega), Memory.read_dropBelow h]
  rfl

/-! ### The canonical form -/

theorem Memory.risesAbove_weaken {m : Memory} {a b : Nat} (h : m.risesAbove b = true) (hab : a ≤ b) :
    m.risesAbove a = true := by
  cases m with
  | nil => rfl
  | cons cell m =>
    simp only [Memory.risesAbove, Bool.and_eq_true, decide_eq_true_eq] at h ⊢
    exact ⟨by omega, h.2⟩

theorem Memory.wf_of_risesAbove {m : Memory} {a : Nat} (h : m.risesAbove a = true) : m.wf = true := by
  cases m with
  | nil => rfl
  | cons cell m =>
    simp only [Memory.risesAbove, Bool.and_eq_true] at h
    exact h.2

theorem Memory.risesAbove_write {m : Memory} {a b : Nat} (v : Word) (h : m.risesAbove b = true) (hba : b < a) :
    (m.write a v).risesAbove b = true := by
  induction m generalizing b with
  | nil => simp [Memory.write, Memory.risesAbove, hba]
  | cons cell m ih =>
    obtain ⟨c, u⟩ := cell
    simp only [Memory.risesAbove, Bool.and_eq_true, decide_eq_true_eq] at h
    simp only [Memory.write]
    split
    · simp [Memory.risesAbove, h.2, *]
    · split
      · rename_i hac
        subst hac
        simp [Memory.risesAbove, hba, h.2]
      · simp only [Memory.risesAbove, Bool.and_eq_true, decide_eq_true_eq]
        exact ⟨h.1, ih h.2 (by omega)⟩

/-- A write keeps the canonical form. -/
theorem Memory.wf_write {m : Memory} (a : Nat) (v : Word) (h : m.wf = true) : (m.write a v).wf = true := by
  cases m with
  | nil => rfl
  | cons cell m =>
    obtain ⟨c, u⟩ := cell
    simp only [Memory.wf] at h
    simp only [Memory.write]
    split
    · simp [Memory.wf, Memory.risesAbove, *]
    · split
      · rename_i hac
        subst hac
        exact h
      · exact Memory.risesAbove_write v h (by omega)

theorem Memory.risesAbove_dropBelow {m : Memory} {b n : Nat} (h : m.risesAbove b = true) :
    (m.dropBelow n).risesAbove b = true := by
  induction m generalizing b with
  | nil => rfl
  | cons cell m ih =>
    obtain ⟨c, u⟩ := cell
    simp only [Memory.dropBelow]
    split
    · simp only [Memory.risesAbove, Bool.and_eq_true, decide_eq_true_eq] at h
      exact ih (Memory.risesAbove_weaken h.2 (by omega))
    · exact h

theorem Memory.wf_dropBelow {m : Memory} (n : Nat) (h : m.wf = true) : (m.dropBelow n).wf = true := by
  cases m with
  | nil => rfl
  | cons cell m =>
    obtain ⟨c, u⟩ := cell
    simp only [Memory.dropBelow]
    split
    · exact Memory.wf_of_risesAbove (Memory.risesAbove_dropBelow h)
    · exact h

/-- What is kept by `dropBelow (n + 1)` lies above `n`. -/
theorem Memory.dropBelow_risesAbove {m : Memory} (n : Nat) (h : m.wf = true) :
    (m.dropBelow (n + 1)).risesAbove n = true := by
  induction m with
  | nil => rfl
  | cons cell m ih =>
    obtain ⟨c, u⟩ := cell
    simp only [Memory.dropBelow]
    split
    · exact ih (Memory.wf_of_risesAbove h)
    · simp only [Memory.risesAbove, Bool.and_eq_true, decide_eq_true_eq]
      exact ⟨by omega, h⟩

theorem risesAbove_zeroCells_append {m : Memory} (start count b : Nat) (hb : b < start)
    (h : m.risesAbove (start + count - 1) = true) : Memory.risesAbove b (zeroCells start count ++ m) = true := by
  induction count generalizing start b with
  | zero => exact Memory.risesAbove_weaken h (by omega)
  | succ n ih =>
    simp only [zeroCells, List.cons_append, Memory.risesAbove, Bool.and_eq_true, decide_eq_true_eq]
    exact ⟨hb, ih (start + 1) start (by omega) (by rwa [show start + 1 + n - 1 = start + (n + 1) - 1 by omega])⟩

theorem Memory.dropBelow_zero (m : Memory) : m.dropBelow 0 = m := by
  cases m with
  | nil => rfl
  | cons cell m => simp [Memory.dropBelow]

/-- A fill keeps the canonical form. -/
theorem Memory.wf_zeroFill {m : Memory} (n : Nat) (h : m.wf = true) : (m.zeroFill n).wf = true := by
  cases n with
  | zero => simpa [Memory.zeroFill, zeroCells, Memory.dropBelow_zero] using h
  | succ n =>
    simp only [Memory.zeroFill, zeroCells, List.cons_append, Memory.wf]
    have h' : (m.dropBelow (n + 1)).risesAbove n = true := Memory.dropBelow_risesAbove n h
    exact risesAbove_zeroCells_append 1 n 0 (by omega) (by simpa using h')

/-! ### Where the cells lie -/

theorem Memory.mem_write {m : Memory} {a : Nat} {v : Word} {cell : Nat × Word} (h : cell ∈ m.write a v) :
    cell = (a, v) ∨ cell ∈ m := by
  induction m with
  | nil => simpa [Memory.write] using h
  | cons c m ih =>
    obtain ⟨b, u⟩ := c
    simp only [Memory.write] at h
    split at h
    · simpa using h
    · split at h
      · rcases List.mem_cons.mp h with h | h
        · exact .inl h
        · exact .inr (List.mem_cons_of_mem _ h)
      · rcases List.mem_cons.mp h with h | h
        · exact .inr (h ▸ List.mem_cons_self)
        · rcases ih h with h | h
          · exact .inl h
          · exact .inr (List.mem_cons_of_mem _ h)

theorem mem_zeroCells {start count : Nat} {cell : Nat × Word} (h : cell ∈ zeroCells start count) :
    start ≤ cell.1 ∧ cell.1 < start + count := by
  induction count generalizing start with
  | zero => simp [zeroCells] at h
  | succ n ih =>
    rcases List.mem_cons.mp h with h | h
    · subst h; simp
    · have := ih h; omega

theorem Memory.mem_of_mem_dropBelow {m : Memory} {n : Nat} {cell : Nat × Word} (h : cell ∈ m.dropBelow n) :
    cell ∈ m := by
  induction m with
  | nil => exact h
  | cons c m ih =>
    obtain ⟨b, u⟩ := c
    simp only [Memory.dropBelow] at h
    split at h
    · exact List.mem_cons_of_mem _ (ih h)
    · exact h

theorem Memory.mem_zeroFill {m : Memory} {n : Nat} {cell : Nat × Word} (h : cell ∈ m.zeroFill n) :
    cell.1 < n ∨ cell ∈ m := by
  rcases List.mem_append.mp h with h | h
  · exact .inl (by have := mem_zeroCells h; omega)
  · exact .inr (Memory.mem_of_mem_dropBelow h)

/-! ### What the operations with bounds can do -/

/-- `memRead` answers only inside the line and only a word that has been written. -/
theorem memRead_eq_ok {cap : Nat} {m : Memory} {a : Nat} {v : Word} :
    memRead cap m a = .ok v ↔ a < cap ∧ m.read a = some v := by
  unfold memRead
  split
  · rename_i h
    cases hr : m.read a <;> simp [h]
  · rename_i h
    simp [h]

/-- `memWrite` answers only inside the line, and then with the one write. -/
theorem memWrite_eq_ok {cap : Nat} {m m' : Memory} {a : Nat} {v : Word} :
    memWrite cap m a v = .ok m' ↔ a < cap ∧ m' = m.write a v := by
  unfold memWrite
  split
  · rename_i h
    simp [h, eq_comm]
  · rename_i h
    simp [h]

/-- Both bounded operations keep the canonical form: a read changes nothing, and a write that is made keeps it. -/
theorem memWrite_wf {cap : Nat} {m m' : Memory} {a : Nat} {v : Word} (hw : m.wf = true)
    (h : memWrite cap m a v = .ok m') : m'.wf = true := by
  obtain ⟨_, rfl⟩ := memWrite_eq_ok.mp h
  exact Memory.wf_write a v hw

/-- A cleared line keeps the canonical form. -/
theorem clearLine_wf {cap : Nat} {l : Line} (h : l.buf.wf = true) : (clearLine cap l).buf.wf = true :=
  Memory.wf_zeroFill cap h

/-- The write of a frame keeps the canonical form. -/
theorem writeAdvance_wf {cap : Nat} {wv : Word} {l l' : Line} (hw : l.buf.wf = true)
    (h : writeAdvance cap wv l = .ok l') : l'.buf.wf = true := by
  unfold writeAdvance at h
  split at h
  · cases h
  · rename_i buf hb
    cases h
    exact memWrite_wf hw hb

/-- The delay RAM right after hardware reset has the canonical form. -/
theorem reset_memory_wf : ∀ l ∈ State.reset.lines, l.buf.wf = true := by decide

end Sys2Proof.Machine
end

