-- ==== Sys2Proof/Laws/Ops.lean ====
section
/-! SUPPORT. What each shared operation can do, said once: if it answers, then one of these cases holds. -/

namespace Sys2Proof.Machine

/-! ### Addresses -/

theorem tapAddress_lt (w k : Nat) {cap : Nat} (h : 0 < cap) : tapAddress w k cap < cap := by
  have h1 := Int.emod_lt_of_pos ((w : Int) - k) (show (0 : Int) < cap by omega)
  have h2 := Int.emod_nonneg ((w : Int) - k) (show (cap : Int) ≠ 0 by omega)
  unfold tapAddress
  omega

theorem nextCursor_lt (w : Nat) {cap : Nat} (h : 0 < cap) : nextCursor w cap < cap := Nat.mod_lt _ h

/-! ### The delay line -/

/-- The interpolated read answers when both taps are written words of the line, and answers their blend (R167). -/
theorem readDelayed_eq_ok {cfg : Config.Cfg} {cap di : Nat} {df : Word} {l : Line} {v : Word} :
    readDelayed cfg cap di df l = .ok v ↔
      ∃ a b, tapAddress l.w di cap < cap ∧ l.buf.read (tapAddress l.w di cap) = some a ∧
        tapAddress l.w (di + 1) cap < cap ∧ l.buf.read (tapAddress l.w (di + 1) cap) = some b ∧
        v = cfg.num.blend df a b := by
  unfold readDelayed
  cases ha : memRead cap l.buf (tapAddress l.w di cap) with
  | error f =>
    constructor
    · intro h; cases h
    · rintro ⟨a, b, h1, h2, -⟩
      rw [memRead_eq_ok.mpr ⟨h1, h2⟩] at ha
      cases ha
  | ok a =>
    obtain ⟨ha1, ha2⟩ := memRead_eq_ok.mp ha
    cases hb : memRead cap l.buf (tapAddress l.w (di + 1) cap) with
    | error f =>
      constructor
      · intro h; cases h
      · rintro ⟨a', b, -, -, h1, h2, -⟩
        rw [memRead_eq_ok.mpr ⟨h1, h2⟩] at hb
        cases hb
    | ok b =>
      obtain ⟨hb1, hb2⟩ := memRead_eq_ok.mp hb
      constructor
      · intro h
        cases h
        exact ⟨a, b, ha1, ha2, hb1, hb2, rfl⟩
      · rintro ⟨a', b', -, h2, -, h4, rfl⟩
        rw [ha2] at h2
        rw [hb2] at h4
        cases h2
        cases h4
        rfl

/-- The write answers when the cursor is in the line, and then writes one word and moves the cursor (R168). -/
theorem writeAdvance_eq_ok {cap : Nat} {wv : Word} {l l' : Line} :
    writeAdvance cap wv l = .ok l' ↔
      l.w < cap ∧ l' = { w := nextCursor l.w cap, buf := l.buf.write l.w wv } := by
  unfold writeAdvance
  cases h : memWrite cap l.buf l.w wv with
  | error f =>
    constructor
    · intro h; cases h
    · rintro ⟨h1, -⟩
      rw [memWrite_eq_ok.mpr ⟨h1, rfl⟩] at h
      cases h
  | ok m =>
    obtain ⟨h1, rfl⟩ := memWrite_eq_ok.mp h
    constructor
    · intro h; cases h; exact ⟨h1, rfl⟩
    · rintro ⟨-, rfl⟩; rfl

/-- One channel of a frame (R199): the delayed value, the output, the stored word, the cursor. -/
theorem stepLine_eq_ok {cfg : Config.Cfg} {f : FrameShared} {x y : Word} {l l' : Line} :
    stepLine cfg f x l = .ok (y, l') ↔
      ∃ delayed, readDelayed cfg f.cap f.di f.df l = .ok delayed ∧ y = mixOutput cfg f.snap.mix x delayed ∧
        l.w < f.cap ∧
        l' = { w := nextCursor l.w f.cap, buf := l.buf.write l.w (feedbackValue cfg f.snap.feedback x delayed) } := by
  unfold stepLine
  cases hr : readDelayed cfg f.cap f.di f.df l with
  | error e => simp
  | ok d =>
    cases hw : writeAdvance f.cap (feedbackValue cfg f.snap.feedback x d) l with
    | error e =>
      simp only [hw, reduceCtorEq, false_iff, not_exists, not_and]
      rintro d' hd - h1 -
      cases hd
      rw [writeAdvance_eq_ok.mpr ⟨h1, rfl⟩] at hw
      cases hw
    | ok l1 =>
      obtain ⟨h1, rfl⟩ := writeAdvance_eq_ok.mp hw
      simp only [hw, Except.ok.injEq, Prod.mk.injEq]
      constructor
      · rintro ⟨rfl, rfl⟩
        exact ⟨d, rfl, rfl, h1, rfl⟩
      · rintro ⟨d', rfl, rfl, -, rfl⟩
        exact ⟨rfl, rfl⟩

/-- A channel of a frame completes when the cursor is in a line whose every word has been written. -/
theorem stepLine_total (cfg : Config.Cfg) (f : FrameShared) (x : Word) (l : Line) (hw : l.w < f.cap)
    (hm : ∀ a < f.cap, (l.buf.read a).isSome = true) : ∃ y l', stepLine cfg f x l = .ok (y, l') := by
  have hpos : 0 < f.cap := by omega
  obtain ⟨a, ha⟩ := Option.isSome_iff_exists.mp (hm _ (tapAddress_lt l.w f.di hpos))
  obtain ⟨b, hb⟩ := Option.isSome_iff_exists.mp (hm _ (tapAddress_lt l.w (f.di + 1) hpos))
  exact ⟨_, _, stepLine_eq_ok.mpr ⟨cfg.num.blend f.df a b,
    readDelayed_eq_ok.mpr ⟨a, b, tapAddress_lt _ _ hpos, ha, tapAddress_lt _ _ hpos, hb, rfl⟩, rfl, hw, rfl⟩⟩

/-- The loop over the channels answers one output per sample, keeps the number of lines, steps each line that has a
sample with that sample, and keeps the others (R199, R168). -/
theorem stepLines_ok {cfg : Config.Cfg} {f : FrameShared} {xs ys : List Word} {ls ls' : List Line}
    (h : stepLines cfg f xs ls = .ok (ys, ls')) :
    ys.length = xs.length ∧ ls'.length = ls.length ∧ xs.length ≤ ls.length ∧
    (∀ (c : Nat) (x : Word), xs[c]? = some x → ∃ (y : Word) (l l' : Line), ls[c]? = some l ∧ ys[c]? = some y ∧ ls'[c]? = some l' ∧
      stepLine cfg f x l = .ok (y, l')) ∧
    (∀ c : Nat, xs.length ≤ c → ls'[c]? = ls[c]?) := by
  induction xs generalizing ls ys ls' with
  | nil =>
    simp only [stepLines, Except.ok.injEq, Prod.mk.injEq] at h
    obtain ⟨rfl, rfl⟩ := h
    simp
  | cons x xs ih =>
    cases ls with
    | nil => cases h
    | cons l ls =>
      simp only [stepLines] at h
      cases h1 : stepLine cfg f x l with
      | error e => rw [h1] at h; cases h
      | ok r =>
        obtain ⟨y, l1⟩ := r
        rw [h1] at h
        cases h2 : stepLines cfg f xs ls with
        | error e => simp [h2] at h
        | ok r =>
          obtain ⟨ys1, ls1⟩ := r
          simp only [h2, Except.ok.injEq, Prod.mk.injEq] at h
          obtain ⟨rfl, rfl⟩ := h
          obtain ⟨e1, e2, e3, e4, e5⟩ := ih h2
          refine ⟨by simp [e1], by simp [e2], by simpa using e3, ?_, ?_⟩
          · intro c x' hx
            cases c with
            | zero =>
              simp only [List.getElem?_cons_zero, Option.some.injEq] at hx
              subst hx
              exact ⟨y, l, l1, rfl, rfl, rfl, h1⟩
            | succ c =>
              simp only [List.getElem?_cons_succ] at hx ⊢
              exact e4 c x' hx
          · intro c hc
            cases c with
            | zero => simp at hc
            | succ c =>
              simp only [List.getElem?_cons_succ]
              exact e5 c (by simpa using hc)

/-- The loop over the channels completes when every line is in order and there is a line for every sample. -/
theorem stepLines_total (cfg : Config.Cfg) (f : FrameShared) (xs : List Word) (ls : List Line) (hlen : xs.length ≤ ls.length)
    (hw : ∀ l ∈ ls, l.w < f.cap) (hm : ∀ l ∈ ls, ∀ a < f.cap, (l.buf.read a).isSome = true) :
    ∃ ys ls', stepLines cfg f xs ls = .ok (ys, ls') := by
  induction xs generalizing ls with
  | nil => exact ⟨[], ls, rfl⟩
  | cons x xs ih =>
    cases ls with
    | nil => simp at hlen
    | cons l ls =>
      obtain ⟨y, l', h1⟩ := stepLine_total cfg f x l (hw l List.mem_cons_self) (hm l List.mem_cons_self)
      obtain ⟨ys, ls', h2⟩ := ih ls (by simpa using hlen) (fun l hl => hw l (List.mem_cons_of_mem _ hl))
        (fun l hl => hm l (List.mem_cons_of_mem _ hl))
      exact ⟨y :: ys, l' :: ls', by simp [stepLines, h1, h2]⟩

/-! ### FRAME -/

/-- What the channels of a frame share, and when it exists (R199). -/
theorem frameShared_eq_ok {cfg : Config.Cfg} {s : State} {phase : BitVec 32} {f : FrameShared} :
    frameShared cfg s = .ok (phase, f) ↔
      cfg.num.isFinite (cfg.num.fdiv s.snap.rate s.fs) = true ∧
      phase = s.phase + cfg.num.quotientIncrement (cfg.num.fdiv s.snap.rate s.fs) ∧
      ∃ n : Int, cfg.num.floorInt (frameDelay cfg s phase) = some n ∧
        f = { snap := s.snap, cap := s.cap, di := n.toNat,
              df := delayFraction cfg (frameDelay cfg s phase) n.toNat } := by
  unfold frameShared phaseIncrement
  by_cases hq : cfg.num.isFinite (cfg.num.fdiv s.snap.rate s.fs) = true
  · simp only [hq, ↓reduceIte, advancePhase, splitDelay, true_and]
    cases hf : cfg.num.floorInt (frameDelay cfg s (s.phase + cfg.num.quotientIncrement (cfg.num.fdiv s.snap.rate s.fs))) with
    | none =>
      constructor
      · intro h; cases h
      · rintro ⟨rfl, n, hn, -⟩
        rw [hf] at hn
        cases hn
    | some n =>
      constructor
      · intro h
        cases h
        exact ⟨rfl, n, hf, rfl⟩
      · rintro ⟨rfl, m, hm, rfl⟩
        rw [hf] at hm
        cases hm
        rfl
  · simp [hq]

/-- `frame_step` answers the outputs of the channels and the state with the new phase and lines (R199). -/
theorem frameStep_eq_ok {cfg : Config.Cfg} {xs ys : List Word} {s t : State} :
    frameStep cfg xs s = .ok (ys, t) ↔
      ∃ phase f lines, frameShared cfg s = .ok (phase, f) ∧ stepLines cfg f xs s.lines = .ok (ys, lines) ∧
        t = { s with phase := phase, lines := lines } := by
  unfold frameStep
  cases h1 : frameShared cfg s with
  | error e => simp
  | ok r =>
    obtain ⟨phase, f⟩ := r
    cases h2 : stepLines cfg f xs s.lines with
    | error e =>
      simp only [h2, reduceCtorEq, Except.ok.injEq, Prod.mk.injEq, false_iff, not_exists, not_and]
      rintro phase' f' lines ⟨rfl, rfl⟩ h
      rw [h2] at h
      cases h
    | ok r =>
      obtain ⟨ys1, ls⟩ := r
      simp only [h2, Except.ok.injEq, Prod.mk.injEq]
      constructor
      · rintro ⟨rfl, rfl⟩
        exact ⟨phase, f, ls, ⟨rfl, rfl⟩, h2, rfl⟩
      · rintro ⟨phase', f', lines, ⟨rfl, rfl⟩, h, rfl⟩
        rw [h2] at h
        cases h
        exact ⟨rfl, rfl⟩

/-- A FRAME that answers was refused with `E_STATE`, refused with `E_BADARG`, or stepped its channels (R198). -/
theorem execFrame_next {xs : List Word} {s t : State} (h : execFrame xs s = .next t) :
    (s.remain = 0 ∧ t = raiseError .state 0 s) ∨
    (s.remain ≠ 0 ∧ xs.length ≠ s.blkch ∧ t = raiseError .badArg 0 s) ∨
    (s.remain ≠ 0 ∧ xs.length = s.blkch ∧ ∃ phase f ys lines, frameShared Config.cfg s = .ok (phase, f) ∧
      stepLines Config.cfg f xs s.lines = .ok (ys, lines) ∧
      t = respondOk ys { s with phase := phase, lines := lines, remain := s.remain - 1 }) := by
  unfold execFrame frameUnder at h
  split at h
  · cases h; exact .inl ⟨‹_›, rfl⟩
  · split at h
    · cases h; exact .inr (.inl ⟨‹_›, ‹_›, rfl⟩)
    · split at h
      · cases h
      · rename_i ys u hu
        cases h
        obtain ⟨phase, f, lines, h1, h2, rfl⟩ := frameStep_eq_ok.mp hu
        exact .inr (.inr ⟨‹_›, not_not.mp ‹_›, phase, f, ys, lines, h1, h2, rfl⟩)

/-! ### PREPARE, RESET, BEGIN -/

/-- PREPARE answers `E_BUSY`, `E_CONFIG`, or the new configuration (R193). -/
theorem execPrepare_next (sr mb : Word) (s : State) :
    (s.remain ≠ 0 ∧ execPrepare sr mb s = .next (raiseError .busy 0 s)) ∨
    (s.remain = 0 ∧ execPrepare sr mb s = .next (raiseError .config 0 s)) ∨
    (s.remain = 0 ∧ badConfig Config.cfg sr mb = false ∧ ∃ cap, capacityOf Config.cfg (maxDelaySamples Config.cfg sr) = some cap ∧
      cap ≤ Config.cfg.bufdepth ∧ execPrepare sr mb s = .next (respondOk [] (prepared Config.cfg sr mb cap s))) := by
  unfold execPrepare prepareUnder
  by_cases h0 : s.remain ≠ 0
  · exact .inl ⟨h0, if_pos h0⟩
  · rw [if_neg h0]
    right
    cases hb : badConfig Config.cfg sr mb with
    | true => exact .inl ⟨not_not.mp h0, rfl⟩
    | false =>
      simp only [Bool.false_eq_true, ↓reduceIte]
      cases hc : capacityOf Config.cfg (maxDelaySamples Config.cfg sr) with
      | none => exact .inl ⟨not_not.mp h0, rfl⟩
      | some cap =>
        by_cases hd : cap > Config.cfg.bufdepth
        · exact .inl ⟨not_not.mp h0, if_pos hd⟩
        · exact .inr ⟨not_not.mp h0, trivial, cap, rfl, Nat.not_lt.mp hd, if_neg hd⟩

/-- RESET answers `E_BUSY` or clears the lines (R195). -/
theorem execReset_next (s : State) :
    (s.remain ≠ 0 ∧ execReset s = .next (raiseError .busy 0 s)) ∨
    (s.remain = 0 ∧ execReset s = .next (respondOk [] (clearLines s))) := by
  unfold execReset
  by_cases h0 : s.remain ≠ 0
  · exact .inl ⟨h0, if_pos h0⟩
  · exact .inr ⟨not_not.mp h0, if_neg h0⟩

/-- BEGIN answers `E_STATE`, `E_BUSY`, `E_BADARG`, or opens the block (R196). -/
theorem execBegin_next (nch : Byte) (ns : Word) (s : State) :
    (s.eng = .uninit ∧ execBegin nch ns s = .next (raiseError .state 0 s)) ∨
    (s.eng ≠ .uninit ∧ s.remain ≠ 0 ∧ execBegin nch ns s = .next (raiseError .busy 0 s)) ∨
    (s.eng ≠ .uninit ∧ s.remain = 0 ∧ badBlock Config.cfg nch ns s = true ∧
      execBegin nch ns s = .next (raiseError .badArg 0 s)) ∨
    (s.eng ≠ .uninit ∧ s.remain = 0 ∧ badBlock Config.cfg nch ns s = false ∧
      execBegin nch ns s = .next (respondOk [] (blockOpened nch ns s))) := by
  unfold execBegin beginUnder
  by_cases he : s.eng = .uninit
  · exact .inl ⟨he, if_pos he⟩
  · rw [if_neg he]
    right
    by_cases h0 : s.remain ≠ 0
    · exact .inl ⟨he, h0, if_pos h0⟩
    · rw [if_neg h0]
      right
      cases hb : badBlock Config.cfg nch ns s with
      | true => exact .inl ⟨he, not_not.mp h0, rfl, rfl⟩
      | false => exact .inr ⟨he, not_not.mp h0, rfl, rfl⟩

/-! ### The Parameter Store -/

/-- The register an id names is the one with that number (R130). -/
theorem paramOfId_eq_some {id : Byte} {i : ParamId} : paramOfId id = some i ↔ id.toNat = i.num := by
  have h : ∀ n : Byte, id = n ↔ id.toNat = n.toNat := fun n => BitVec.toNat_inj.symm
  unfold paramOfId
  simp only [h]
  cases i <;> simp only [ParamId.num] <;> (repeat' split) <;> simp_all

/-- Ids 5..255 name nothing (R130). -/
theorem paramOfId_eq_none {id : Byte} : paramOfId id = none ↔ 4 < id.toNat := by
  have h : ∀ n : Byte, id = n ↔ id.toNat = n.toNat := fun n => BitVec.toNat_inj.symm
  unfold paramOfId
  simp only [h]
  (repeat' split) <;> simp_all
  omega

/-- What the loop of SETST leaves in a register whose key is not in the list: nothing new. -/
theorem applyKeys_get_of_notMem {cfg : Config.Cfg} {mask : Byte} {keys : List (ParamId × Word)} {i : ParamId} (p : Params) (f : Byte)
    (h : ∀ k ∈ keys, k.1 ≠ i) : (applyKeys cfg mask keys p f).1.get i = p.get i := by
  induction keys generalizing p f with
  | nil => rfl
  | cons k keys ih =>
    obtain ⟨j, v⟩ := k
    have hj : j ≠ i := h (j, v) List.mem_cons_self
    have hrest : ∀ k ∈ keys, k.1 ≠ i := fun k hk => h k (List.mem_cons_of_mem _ hk)
    simp only [applyKeys]
    split
    · split
      · exact ih p _ hrest
      · rw [ih _ f hrest, Params.get_set_other _ _ _ _ (Ne.symm hj)]
    · exact ih p f hrest

/-! ### The ports -/

/-- The command taken is the oldest packet of a port that holds one, and nothing else changes but the count (R61). -/
theorem takeCommand_eq_some {s u : State} {p : Port} {packet : Packet} (h : takeCommand s = some (p, packet, u)) :
    (p = .cp ∧ ∃ rest, s.cpIn = packet :: rest ∧ u = { s with cpIn := rest, turn := s.turn + 1 }) ∨
    (p = .ap ∧ ∃ rest, s.apIn = packet :: rest ∧ u = { s with apIn := rest, turn := s.turn + 1 }) := by
  unfold takeCommand at h
  split at h
  · cases h
  · cases h; exact .inl ⟨rfl, _, ‹_›, rfl⟩
  · cases h; exact .inr ⟨rfl, _, ‹_›, rfl⟩
  · split at h
    · cases h; exact .inl ⟨rfl, _, ‹_›, rfl⟩
    · cases h; exact .inr ⟨rfl, _, ‹_›, rfl⟩

/-- There is a command to take exactly when a port holds a packet. -/
theorem takeCommand_eq_none {s : State} : takeCommand s = none ↔ s.cpIn = [] ∧ s.apIn = [] := by
  unfold takeCommand
  split
  · simp_all
  · simp_all
  · simp_all
  · split <;> simp_all

/-- A step is a hardware reset, an idle turn, or the execution of one command and the delivery of its response. -/
theorem step_next {s t : State} (h : step s = .next t) :
    (∃ inProgress, s.resetIn = .asserted inProgress ∧ t = hardwareReset Config.cfg inProgress s) ∨
    (s.resetIn = .released ∧ s.cpIn = [] ∧ s.apIn = [] ∧ t = s) ∨
    (s.resetIn = .released ∧ ∃ p packet u v, takeCommand s = some (p, packet, u) ∧
      runPacket exec p packet u = .next v ∧ t = deliver p v) := by
  unfold step stepWith serveNext at h
  split at h
  · cases h; exact .inl ⟨_, ‹_›, rfl⟩
  · split at h
    · cases h
      exact .inr (.inl ⟨‹_›, (takeCommand_eq_none.mp ‹_›).1, (takeCommand_eq_none.mp ‹_›).2, rfl⟩)
    · rename_i p packet u hu
      cases hv : runPacket exec p packet u with
      | next v =>
        rw [hv] at h
        cases h
        exact .inr (.inr ⟨‹_›, p, packet, u, v, hu, hv, rfl⟩)
      | fault f => rw [hv] at h; cases h
      | refused r => rw [hv] at h; cases h

/-- A packet is executed as the command it decodes to, or refused with `E_ILLEGAL` (R78). -/
theorem runPacket_next {p : Port} {packet : Packet} {s t : State} (h : runPacket exec p packet s = .next t) :
    (∃ i, decode p packet = .ok i ∧ exec i s = .next t) ∨
    (∃ e, decode p packet = .error e ∧ t = raiseError .illegal 0 s) := by
  unfold runPacket at h
  cases hd : decode p packet with
  | ok i => rw [hd] at h; exact .inl ⟨i, rfl, h⟩
  | error e => rw [hd] at h; cases h; exact .inr ⟨e, rfl, rfl⟩

end Sys2Proof.Machine
end

