-- ==== Sys2Proof/Laws/PerInstr.lean ====
section
/-! SUPPORT. Facts about each command as syntax: its encoding lies in its row of the opcode table (`30_encoding.md`
R76). -/

namespace Sys2Proof.Laws.TableRow

/-- The `mask` column of a row (R76): every bit when ARG must be 0, else every bit but ARG's. -/
def mask (o : Opcode) : Word := if o.argMustBeZero then 0xFFFFFFFF else 0xFFFF00FF

/-- The `match` column of a row (R76): the opcode. -/
def matchWord (o : Opcode) : Word := o.byte.setWidth 32

/-- The encoding of a well-formed command matches its row, and it carries `NOPS(OPC, ARG)` operand words. -/
def Statement (i : Instr) : Prop :=
  i.wf = true → ∃ h ops, encode i = h :: ops ∧ h &&& mask i.opcode = matchWord i.opcode ∧
    ops.length = i.opcode.nops (argField h)

theorem headerWord_toNat (o : Opcode) (arg : Byte) : (headerWord o arg).toNat = arg.toNat * 2 ^ 8 + o.byte.toNat := by
  have h1 := o.byte.isLt
  unfold headerWord
  simp only [BitVec.toNat_append, BitVec.ofNat_eq_ofNat, BitVec.toNat_ofNat, Nat.zero_mod, Nat.zero_shiftLeft,
    Nat.zero_or]
  rw [← Nat.shiftLeft_add_eq_or_of_lt h1, Nat.shiftLeft_eq]

theorem argField_headerWord (o : Opcode) (arg : Byte) : argField (headerWord o arg) = arg := by
  apply BitVec.eq_of_toNat_eq
  have h1 := o.byte.isLt
  have h2 := arg.isLt
  rw [argField, BitVec.extractLsb'_toNat, headerWord_toNat, Nat.shiftRight_eq_div_pow]
  omega

theorem headerWord_match_free (o : Opcode) (arg : Byte) (h : o.argMustBeZero = false) :
    headerWord o arg &&& mask o = matchWord o := by
  rw [mask, h, matchWord]
  apply BitVec.eq_of_getLsbD_eq
  intro k hk
  have hm : (0xFFFF00FF : Word).getLsbD k = (decide (k < 8) || decide (16 ≤ k)) := by
    revert hk; revert k; decide
  simp only [Bool.false_eq_true, ↓reduceIte]
  rw [BitVec.getLsbD_and, headerWord, BitVec.getLsbD_append, BitVec.getLsbD_append, BitVec.getLsbD_setWidth, hm]
  by_cases h8 : k < 8
  · simp [h8, hk]
  · by_cases h16 : k < 16
    · have h' : ¬ 16 ≤ k := by omega
      simp only [h8, h', decide_false, Bool.or_false, Bool.and_false]
      rw [BitVec.getLsbD_of_ge _ _ (by omega), Bool.and_false]
    · have h' : ¬ k - 8 < 8 := by omega
      rw [BitVec.getLsbD_of_ge o.byte k (by omega)]
      simp [h8, h']

theorem headerWord_match_zero (o : Opcode) : headerWord o 0 &&& mask o = matchWord o := by
  cases o <;> decide

theorem nop : Statement .nop := fun _ => ⟨_, _, rfl, headerWord_match_zero _, rfl⟩
theorem prepare (sr mb : Word) : Statement (.prepare sr mb) := fun _ => ⟨_, _, rfl, headerWord_match_zero _, rfl⟩
theorem reset : Statement .reset := fun _ => ⟨_, _, rfl, headerWord_match_zero _, rfl⟩
theorem setp (id : Byte) (v : Word) : Statement (.setp id v) :=
  fun _ => ⟨_, _, rfl, headerWord_match_free _ _ rfl, rfl⟩
theorem getp (id : Byte) : Statement (.getp id) := fun _ => ⟨_, _, rfl, headerWord_match_free _ _ rfl, rfl⟩
theorem setst (m : Byte) (v0 v1 v2 v3 v4 : Word) : Statement (.setst m v0 v1 v2 v3 v4) :=
  fun _ => ⟨_, _, rfl, headerWord_match_free _ _ rfl, rfl⟩
theorem getst : Statement .getst := fun _ => ⟨_, _, rfl, headerWord_match_zero _, rfl⟩
theorem stat : Statement .stat := fun _ => ⟨_, _, rfl, headerWord_match_zero _, rfl⟩
theorem begin (nch : Byte) (ns : Word) : Statement (.begin nch ns) :=
  fun _ => ⟨_, _, rfl, headerWord_match_free _ _ rfl, rfl⟩
theorem frame (xs : List Word) : Statement (.frame xs) := by
  intro h
  refine ⟨_, _, rfl, headerWord_match_free _ _ rfl, ?_⟩
  simp only [Instr.wf, sampleCountFits, decide_eq_true_eq] at h
  show xs.length = (argField (headerWord .frame (BitVec.ofNat 8 xs.length))).toNat
  rw [argField_headerWord, BitVec.toNat_ofNat]
  omega

end Sys2Proof.Laws.TableRow
end

