-- ==== Sys2Proof/Laws/Rounding.lean ====
section
/-! SUPPORT. How far a rounded magnitude lies from the exact one: the steps between patterns, half of the last place, the
relative error, and that a weighted sum of two patterns' magnitudes stays between them. -/

namespace Sys2Proof.Machine

/-! ### The steps between patterns -/

/-- The step from a pattern to the next, in units. -/
theorem magOfBits_succ (b : Nat) : magOfBits (b + 1) = magOfBits b + 2 ^ (b / 2 ^ 23 - 1) := by
  unfold magOfBits
  by_cases h0 : b / 2 ^ 23 = 0
  · rw [if_pos h0, h0]
    by_cases h1 : (b + 1) / 2 ^ 23 = 0
    · rw [if_pos h1]; omega
    · rw [if_neg h1, show (b + 1) / 2 ^ 23 = 1 by omega]
      simp only [Nat.sub_self, Nat.pow_zero, Nat.mul_one]
      omega
  · rw [if_neg h0, if_neg (by omega : (b + 1) / 2 ^ 23 ≠ 0)]
    by_cases hm : (b + 1) / 2 ^ 23 = b / 2 ^ 23
    · rw [hm, show 2 ^ 23 + (b + 1) % 2 ^ 23 = 2 ^ 23 + b % 2 ^ 23 + 1 by omega]
      ring
    · have he : (b + 1) / 2 ^ 23 - 1 = b / 2 ^ 23 - 1 + 1 := by omega
      rw [he, Nat.pow_succ 2 (b / 2 ^ 23 - 1), show (b + 1) % 2 ^ 23 = 0 by omega,
        show b % 2 ^ 23 = 2 ^ 23 - 1 by omega]
      ring

/-- A pattern's magnitude is at most 24 bits of its predecessor's last place. -/
theorem magOfBits_succ_le (b : Nat) : magOfBits (b + 1) ≤ 2 ^ 24 * 2 ^ (b / 2 ^ 23 - 1) := by
  rw [magOfBits_succ]
  have h2 := Nat.two_pow_pos (b / 2 ^ 23 - 1)
  unfold magOfBits
  split
  · rename_i h0
    rw [h0]
    simp only [Nat.zero_sub, Nat.pow_zero]
    omega
  · have hm := Nat.mod_lt b (show 0 < 2 ^ 23 by decide)
    calc (2 ^ 23 + b % 2 ^ 23) * 2 ^ (b / 2 ^ 23 - 1) + 2 ^ (b / 2 ^ 23 - 1)
        = (2 ^ 23 + b % 2 ^ 23 + 1) * 2 ^ (b / 2 ^ 23 - 1) := by ring
      _ ≤ _ := Nat.mul_le_mul_right _ (by omega)

/-- The magnitude of a pattern put together from an exponent shift and a significand of 24 bits. -/
theorem magOfBits_shift {s r : Nat} (h1 : r ≤ 2 ^ 24) (h2 : 0 < s → 2 ^ 23 ≤ r) :
    magOfBits (s * 2 ^ 23 + r) = r * 2 ^ s := by
  unfold magOfBits
  split
  · have : s = 0 := by omega
    subst this
    omega
  · by_cases hr : r = 2 ^ 24
    · subst hr
      rw [show (s * 2 ^ 23 + 2 ^ 24) / 2 ^ 23 - 1 = s + 1 by omega, show (s * 2 ^ 23 + 2 ^ 24) % 2 ^ 23 = 0 by omega]
      rw [Nat.pow_succ]
      omega
    · rw [show (s * 2 ^ 23 + r) / 2 ^ 23 - 1 = s by omega, show 2 ^ 23 + (s * 2 ^ 23 + r) % 2 ^ 23 = r by omega]

/-! ### The error of a rounding -/

/-- The magnitude before the cut at infinity: the significand rounded at the last place. -/
theorem magOfBits_roundRaw (n d : Nat) :
    magOfBits (roundRaw n d) = roundHalfEven n (d * 2 ^ roundShift n d) * 2 ^ roundShift n d := by
  have h1 := roundHalfEven_le n (d * 2 ^ roundShift n d)
  have h2 := roundQuotient_lt n d
  have h3 := le_roundHalfEven n (d * 2 ^ roundShift n d)
  exact magOfBits_shift (by omega) fun hs => (le_roundQuotient hs).trans h3

/-- The nearest integer is at most half away. -/
theorem roundHalfEven_error (n : Nat) {d : Nat} (hd : 0 < d) :
    2 * n ≤ 2 * (roundHalfEven n d * d) + d ∧ 2 * (roundHalfEven n d * d) ≤ 2 * n + d := by
  have h := Nat.div_add_mod n d
  have hm := Nat.mod_lt n hd
  rw [Nat.mul_comm] at h
  unfold roundHalfEven
  split
  · rw [Nat.add_mul, Nat.one_mul]; omega
  · omega

/-- Rounding errs by at most half of the last place. -/
theorem roundRaw_error (n : Nat) {d : Nat} (hd : 0 < d) :
    2 * n ≤ 2 * (magOfBits (roundRaw n d) * d) + d * 2 ^ roundShift n d ∧
    2 * (magOfBits (roundRaw n d) * d) ≤ 2 * n + d * 2 ^ roundShift n d := by
  have h := roundHalfEven_error n (Nat.mul_pos hd (Nat.two_pow_pos (roundShift n d)))
  rw [magOfBits_roundRaw, show roundHalfEven n (d * 2 ^ roundShift n d) * 2 ^ roundShift n d * d =
    roundHalfEven n (d * 2 ^ roundShift n d) * (d * 2 ^ roundShift n d) by ring]
  exact h

/-- The last place of a value below a pattern's is at most that of the pattern's predecessor. -/
theorem roundShift_le {n d b : Nat} (hd : 0 < d) (h : n < magOfBits (b + 1) * d) :
    roundShift n d ≤ b / 2 ^ 23 - 1 := by
  by_cases h0 : n / d = 0
  · simp [roundShift, h0]
  · have h1 : n / d < 2 ^ 24 * 2 ^ (b / 2 ^ 23 - 1) :=
      Nat.lt_of_lt_of_le ((Nat.div_lt_iff_lt_mul hd).2 h) (magOfBits_succ_le b)
    rw [← Nat.pow_add, ← Nat.log2_lt h0] at h1
    unfold roundShift
    omega

/-- A value of at least `2^23` units is rounded with a relative error of at most `2^-24`. -/
theorem roundRaw_relative_error {n d : Nat} (hd : 0 < d) (h : 2 ^ 23 * d ≤ n) :
    2 ^ 24 * n ≤ 2 ^ 24 * (magOfBits (roundRaw n d) * d) + n ∧
    2 ^ 24 * (magOfBits (roundRaw n d) * d) ≤ 2 ^ 24 * n + n := by
  have he := roundRaw_error n hd
  have hn0 : n / d ≠ 0 := by
    have := (Nat.le_div_iff_mul_le hd).2 h
    omega
  have h23 : 23 ≤ Nat.log2 (n / d) := (Nat.le_log2 hn0).2 ((Nat.le_div_iff_mul_le hd).2 h)
  have hs : 2 ^ 23 * (d * 2 ^ roundShift n d) ≤ n := by
    have : 2 ^ (roundShift n d + 23) ≤ n / d := by
      rw [roundShift, Nat.sub_add_cancel h23]
      exact Nat.log2_self_le hn0
    rw [Nat.le_div_iff_mul_le hd, Nat.pow_add] at this
    calc 2 ^ 23 * (d * 2 ^ roundShift n d) = 2 ^ roundShift n d * 2 ^ 23 * d := by ring
      _ ≤ n := this
  omega

/-- A value above the middle between a pattern and its predecessor rounds to at least that pattern. -/
theorem le_roundRaw_of_middle {n b : Nat} (h : magOfBits b + magOfBits (b + 1) < 2 * n) : b + 1 ≤ roundRaw n 1 := by
  by_contra hlt
  have hle : magOfBits (roundRaw n 1) ≤ magOfBits b := magOfBits_le_iff.2 (by omega)
  have hs := magOfBits_succ b
  by_cases hn : n < magOfBits (b + 1)
  · have h1 := roundShift_le (n := n) (d := 1) (b := b) (by decide) (by omega)
    have h2 := Nat.pow_le_pow_right (show 0 < 2 by decide) h1
    have h3 := roundRaw_error n (d := 1) (by decide)
    omega
  · have h1 := roundRaw_mono (n₁ := magOfBits (b + 1) * 1) (d₁ := 1) (n₂ := n) (d₂ := 1) (by decide) (by decide) (by omega)
    rw [roundRaw_exact _ (by decide)] at h1
    omega

/-- A value below the middle between a pattern and its successor rounds to at most that pattern. -/
theorem roundRaw_le_of_middle {n b : Nat} (h : 2 * n < magOfBits b + magOfBits (b + 1)) : roundRaw n 1 ≤ b := by
  by_contra hlt
  have hle : magOfBits (b + 1) ≤ magOfBits (roundRaw n 1) := magOfBits_le_iff.2 (by omega)
  have hs := magOfBits_succ b
  have hlt' := magOfBits_lt_succ b
  have h1 := roundShift_le (n := n) (d := 1) (b := b) (by decide) (by omega)
  have h2 := Nat.pow_le_pow_right (show 0 < 2 by decide) h1
  have h3 := roundRaw_error n (d := 1) (by decide)
  omega

/-! ### The weighted sum of two patterns' magnitudes -/

/-- What the three roundings of `blend` give for the weights `a / 2^24` and `m / 2^24` lies between the two patterns, if
these are a relative distance of more than `2^-24` apart. -/
theorem weighted_between {bp bq a m : Nat} (ha : 0 < a) (hm : 0 < m) (ham : a + m = 2 ^ 24)
    (hq : 2 ^ 47 ≤ magOfBits bq) (hp : bp = 0 ∨ 2 ^ 47 ≤ magOfBits bp)
    (hpq : 2 ^ 24 * magOfBits bp + magOfBits bq < 2 ^ 24 * magOfBits bq) :
    bp ≤ roundRaw
      (magOfBits (roundRaw (a * magOfBits bp) (2 ^ 24)) + magOfBits (roundRaw (m * magOfBits bq) (2 ^ 24))) 1 ∧
    roundRaw
      (magOfBits (roundRaw (a * magOfBits bp) (2 ^ 24)) + magOfBits (roundRaw (m * magOfBits bq) (2 ^ 24))) 1 ≤ bq := by
  have hN : 0 < 2 ^ 24 := by decide
  have hsum : ∀ x, a * x + m * x = 2 ^ 24 * x := fun x => by rw [← Nat.add_mul, ham]
  have hP := hsum (magOfBits bp)
  have hQ := hsum (magOfBits bq)
  have hstep := magOfBits_lt_succ bq
  have haq := Nat.mul_lt_mul_of_pos_left hpq ha
  have hmq := Nat.mul_lt_mul_of_pos_left hpq hm
  rw [Nat.mul_add, Nat.mul_left_comm, Nat.mul_left_comm _ _ (magOfBits bq)] at haq hmq
  obtain ⟨b1, -⟩ := roundRaw_relative_error hN
    (show 2 ^ 23 * 2 ^ 24 ≤ m * magOfBits bq from Nat.le_trans (by omega) (Nat.mul_le_mul hm hq))
  have b2 := (roundRaw_error (m * magOfBits bq) hN).2
  have bs := Nat.pow_le_pow_right (show 0 < 2 by decide) (roundShift_le (n := m * magOfBits bq) (b := bq) hN (by
    rw [Nat.mul_comm]; exact Nat.mul_lt_mul_of_lt_of_le hstep (by omega) (by decide)))
  have bg := magOfBits_succ bq
  generalize magOfBits (roundRaw (m * magOfBits bq) (2 ^ 24)) = B at *
  rcases Nat.eq_zero_or_pos bp with h0 | h0
  · subst h0
    have hA : magOfBits (roundRaw (a * magOfBits 0) (2 ^ 24)) = 0 := by
      simpa using congrArg magOfBits (roundRaw_exact 0 hN)
    rw [hA, Nat.zero_add]
    refine ⟨Nat.zero_le _, roundRaw_le_of_middle ?_⟩
    omega
  · obtain ⟨c, rfl⟩ : ∃ c, bp = c + 1 := ⟨bp - 1, by omega⟩
    have hp' : 2 ^ 47 ≤ magOfBits (c + 1) := hp.resolve_left (by omega)
    have a1 := (roundRaw_error (a * magOfBits (c + 1)) hN).1
    have a2 := (roundRaw_relative_error hN
      (show 2 ^ 23 * 2 ^ 24 ≤ a * magOfBits (c + 1) from Nat.le_trans (by omega) (Nat.mul_le_mul ha hp'))).2
    have as := Nat.pow_le_pow_right (show 0 < 2 by decide) (roundShift_le (n := a * magOfBits (c + 1)) (b := c) hN (by
      rw [Nat.mul_comm]; exact Nat.mul_lt_mul_of_pos_left (by omega) (by omega)))
    have ag := magOfBits_succ c
    generalize magOfBits (roundRaw (a * magOfBits (c + 1)) (2 ^ 24)) = A at *
    exact ⟨le_roundRaw_of_middle (by omega), roundRaw_le_of_middle (by omega)⟩
end Sys2Proof.Machine
end

