-- ==== Sys2Proof/Tests/Slice0.lean ====
section
/-! SUPPORT. The model's own tests. Expected values are those of `95_test_vectors.md` and of the rules' worked examples;
the last part gives, for each statement with hypotheses, states and operands that meet them. -/

open Sys2Proof Sys2Proof.Machine

namespace Sys2Proof.Tests

/-! ### Well-formedness: the one check refuses an ill-formed term -/

theorem test_wf_refuses_256_samples : (Instr.frame (List.replicate 256 posZero)).wf = false := by
  rw [Instr.wf, sampleCountFits, List.length_replicate]
  decide

theorem test_wf_accepts_255_samples : (Instr.frame (List.replicate 255 posZero)).wf = true := by
  rw [Instr.wf, sampleCountFits, List.length_replicate]
  decide

/-! ### Decoding: one word of every command written out bit by bit from R72 to R77 (V1.1)

RSV in bits 31:16, ARG in bits 15:8, OPC in bits 7:0. -/

theorem test_decode_nop : decode .cp [0b0000000000000000_00000000_00000000] = .ok .nop := by decide

theorem test_decode_prepare : decode .cp [0b0000000000000000_00000000_00000001, 0x473B8000, 0x00000200] =
    .ok (.prepare 0x473B8000 0x00000200) := by decide

theorem test_decode_reset : decode .cp [0b0000000000000000_00000000_00000010] = .ok .reset := by decide

theorem test_decode_setp : decode .cp [0b0000000000000000_00000100_00000011, 0x3FC00000] =
    .ok (.setp 4 0x3FC00000) := by decide

theorem test_decode_getp : decode .cp [0b0000000000000000_00000010_00000100] = .ok (.getp 2) := by decide

theorem test_decode_setst :
    decode .cp [0b0000000000000000_00010011_00000101, 0x40000000, 0x3F000000, 0x00000000, 0x00000000, 0x7FC00001] =
      .ok (.setst 0x13 0x40000000 0x3F000000 0x00000000 0x00000000 0x7FC00001) := by decide

theorem test_decode_getst : decode .cp [0b0000000000000000_00000000_00000110] = .ok .getst := by decide

theorem test_decode_stat : decode .ap [0b0000000000000000_00000000_00000111] = .ok .stat := by decide

theorem test_decode_begin : decode .ap [0b0000000000000000_00000010_00010000, 0x00000200] =
    .ok (.begin 2 0x00000200) := by decide

theorem test_decode_frame : decode .ap [0b0000000000000000_00000010_00010001, 0x3F000000, 0xBE800000] =
    .ok (.frame [0x3F000000, 0xBE800000]) := by decide

/-- FRAME on CP is a command on the wrong port (R77, R224). -/
theorem test_decode_frame_on_cp : decode .cp [0b0000000000000000_00000010_00010001, 0x3F000000, 0xBE800000] =
    .error .wrongPort := by decide

/-- The sub-checks (a) to (f) of R78, one packet each (V1.2). -/
theorem test_decode_illegal :
    decode .cp [] = .error .emptyPacket ∧
    decode .cp [0x00010000] = .error .reservedHeaderBits ∧
    decode .cp [0x00000012] = .error .reservedOpcode ∧
    decode .ap [0x00000403, 0x3F800000] = .error .wrongPort ∧
    decode .ap [0x00000211, 0x3F000000] = .error .operandCount ∧
    decode .ap [0x0000FF07] = .error .argumentNotZero := by decide

/-- The table word of a row is its header; operand words are words of zeros. -/
theorem test_decodeTableWord : decodeTableWord 32 0x00000405 = some (.setst 4 0 0 0 0 0) ∧
    decodeTableWord 32 0x00000211 = some (.frame [0, 0]) ∧ decodeTableWord 32 0x00010000 = none := by decide

/-! ### Numerics (V2) -/

theorem test_fadd : fadd 0x3F800001 0x33800000 = 0x3F800002 ∧ fadd 0x80000000 0x00000000 = 0x00000000 ∧
    fadd 0x7F7FFFFF 0x7F7FFFFF = 0x7F800000 ∧ fadd 0x7F800000 0xFF800000 = 0x7FC00000 ∧
    fadd 0x3DCCCCCD 0x3E4CCCCD = 0x3E99999A := by decide

theorem test_fsub : fsub 0x3F800000 0x3E99999A = 0x3F333333 ∧ fsub 0x40200000 0x40000000 = 0x3F000000 := by decide

theorem test_fmul : fmul 0x3F000000 0x00000003 = 0x00000002 ∧ fmul 0x00000000 0xBF800000 = 0x80000000 ∧
    fmul 0x00000000 0x7F800000 = 0x7FC00000 ∧ fmul 0x3DCCCCCD 0x3DCCCCCD = 0x3C23D70B := by decide

theorem test_fdiv : fdiv 0x40000000 0x473B8000 = 0x382EC33E ∧ fdiv 0x3F800000 0x40400000 = 0x3EAAAAAB ∧
    fdiv 0x4A2C4400 0x447A0000 = 0x45306666 := by decide

theorem test_blend : blend 0x00000000 0x80000000 0x00000000 = 0x00000000 ∧
    blend 0x3E99999A 0x3DCCCCCD 0x3E4CCCCD = 0x3E051EB8 ∧ blend 0x3F7FFFFF 0x3F800000 0xBF800000 = 0xBF7FFFFE ∧
    blend 0x00000000 0x3F000000 0x7F800000 = 0x7FC00000 := by decide

theorem test_clamp : clamp 0x80000000 0x00000000 0x3F800000 = 0x00000000 ∧
    clamp 0x80000000 0xBF800000 0x3F800000 = 0x80000000 ∧ clamp 0x42C80001 0x00000000 0x42C80000 = 0x42C80000 := by
  decide

theorem test_conversions : floorInt 0x45179800 = some 2425 ∧ ceilInt 0x45179800 = some 2426 ∧
    ceilInt 0x3DE147AE = some 1 ∧ frac24 0x02BB0C = 0x3C2EC300 ∧ floatOfNat 480 = 0x43F00000 := by decide

/-! ### Oscillator and delay line (V4, R161, R162, R171) -/

theorem test_phaseIncrement : phaseIncrement Config.cfg 0x40000000 0x473B8000 = .ok 0x0002BB0C ∧
    phaseIncrement Config.cfg 0x42C80000 0x447A0000 = .ok 0x199999A0 ∧
    phaseIncrement Config.cfg 0x42C80000 0x3F800000 = .ok 0 := by decide

theorem test_sine : sineTable 0x15555555 = 0x3EFFFB98 ∧ sineTable 0x3F800000 = 0x3F7FF622 ∧
    sineTable 0xFFFFFFFF = 0xB0C90AB0 ∧ sineTable 0x80000000 = 0x00000000 := by decide

theorem test_sizing : excursionSamples Config.cfg 0x473B8000 = 0x43F00000 ∧
    maxDelaySamples Config.cfg 0x473B8000 = 0x45A50000 ∧ capacityOf Config.cfg 0x45A50000 = some 5281 ∧
    centreSamples Config.cfg 0x40E9999A 0x472C4400 = 0x43A0F70A := by decide

theorem test_taps : tapAddress 5 2 111 = 3 ∧ tapAddress 5 3 111 = 2 ∧ tapAddress 1 2 111 = 110 ∧
    tapAddress 1 3 111 = 109 := by decide

theorem test_readDelayed :
    readDelayed Config.cfg 111 2 0x3F000000 { w := 5, buf := [(2, 0x00000000), (3, 0x3F800000)] } =
      .ok 0x3F000000 := by decide

/-! ### One step of each command -/

/-- The response of an outcome; empty where there is no next state. -/
def responseOf (o : StepOutcome) : Packet :=
  match o with
  | .next t => t.response
  | .fault _ => []
  | .refused _ => []

/-- One number read from the next state; `none` where there is none. -/
def stateOf {α : Type} (f : State → α) (o : StepOutcome) : Option α :=
  match o with
  | .next t => some (f t)
  | .fault _ => none
  | .refused _ => none

/-- What PREPARE 1.0, 2 leaves from reset: the shortest line there is, two words (R193: the smallest rate gives
`CAP = 2`; R161: `MAXD = 0x3DE147AE`). -/
def prepared1 : State :=
  { State.reset with
    fs := 0x3F800000
    maxblk := 2
    maxd := 0x3DE147AE
    excs := 0x3C23D70A
    cap := 2
    lines := [{ w := 0, buf := [(0, 0), (1, 0)] }, { w := 0, buf := [(0, 0), (1, 0)] }]
    eng := .prepared }

/-- `prepared1` with a block of one channel and two frames open. -/
def open1 : State := { prepared1 with eng := .processing, blkch := 1, remain := 2 }

/-- `open1` with the values of R186 (a): feedback 0.5, mix 0.25, and 0.5 as the word written last. -/
def echo1 : State :=
  { open1 with
    snap := { Params.defaults with feedback := 0x3F000000, mix := 0x3E800000 }
    lines := [{ w := 0, buf := [(0, 0), (1, 0x3F000000)] }, { w := 0, buf := [(0, 0), (1, 0)] }] }

theorem test_nop : responseOf (exec .nop State.reset) = [0x00000000] := by decide

theorem test_prepare_ok : stateOf id (exec (.prepare 0x3F800000 2) State.reset) =
    some { prepared1 with response := [0x00000000] } := by decide

theorem test_prepare_zero_rate : responseOf (exec (.prepare 0x00000000 512) State.reset) = [0x00000004] ∧
    stateOf State.eng (exec (.prepare 0x00000000 512) State.reset) = some .uninit := by decide

theorem test_reset_clears : stateOf (fun t => (t.phase, t.lines.map Line.buf))
    (exec .reset { echo1 with remain := 0, phase := 7 }) = some (0, [[(0, 0), (1, 0)], [(0, 0), (1, 0)]]) := by decide

theorem test_reset_busy : responseOf (exec .reset open1) = [0x00000003] := by decide

theorem test_setp_clamps : stateOf (fun t => t.param.mix) (exec (.setp 4 0x3FC00000) State.reset) =
    some 0x3F800000 := by decide

theorem test_setp_unknown_before_nan : responseOf (exec (.setp 255 0x7FC00000) State.reset) = [0x00000006] := by decide

theorem test_getp_delay : responseOf (exec (.getp 2) State.reset) = [0x00000000, 0x3F800000] := by decide

theorem test_setst_partial : responseOf (exec (.setst 0x13 0x40000000 0x3F000000 0 0 0x7FC00001) State.reset) =
      [0x00001007] ∧
    stateOf State.param (exec (.setst 0x13 0x40000000 0x3F000000 0 0 0x7FC00001) State.reset) =
      some { rate := 0x40000000, depth := 0x3F000000, delay := 0x3F800000, feedback := 0, mix := 0 } := by decide

theorem test_getst_defaults : responseOf (exec .getst State.reset) = [0, 0, 0, 0x3F800000, 0, 0] := by decide

theorem test_stat_open_block : responseOf (exec .stat open1) = [0x00000000, 0x00000006] := by decide

/-- The flags of codes 1, 2 and 6 (V1.2, last STAT). -/
theorem test_stat_flags : responseOf (exec .stat { State.reset with sticky := 0b0100011 }) =
    [0x00000000, 0x00002300] := by decide

theorem test_begin_opens : stateOf (fun t => (t.blkch, t.remain, t.eng)) (exec (.begin 2 2) prepared1) =
    some (2, 2, .processing) := by decide

theorem test_begin_state_before_badarg : responseOf (exec (.begin 0 1) State.reset) = [0x00000002] := by decide

/-- R186 (a): `wv = 1.25`, `y = 0.875`. -/
theorem test_frame_echo : responseOf (exec (.frame [0x3F800000]) echo1) = [0x00000000, 0x3F600000] ∧
    stateOf (fun t => (t.ram 0 0, t.cursor 0, t.cursor 1, t.remain)) (exec (.frame [0x3F800000]) echo1) =
      some (some 0x3FA00000, some 1, some 0, 1) := by decide

/-- R183: at mix 0 a NaN goes through with its payload, and the line still gets the canonical NaN. -/
theorem test_frame_bypass : responseOf (exec (.frame [0xFFC12345]) open1) = [0x00000000, 0xFFC12345] ∧
    stateOf (fun t => t.ram 0 0) (exec (.frame [0xFFC12345]) open1) = some (some 0x7FC00000) := by decide

/-! ### Steps, ports, text -/

/-- A table word placed for fetching is the command the next step runs: GETP 2 answers on CP. -/
theorem test_withFetchWord : stateOf State.cpOut (step (State.reset.withFetchWord 32 0x00000204)) =
    some [[0x00000000, 0x3F800000]] := by decide

/-- `CFG` is an argument: with three channels BEGIN accepts a third, which this hardware refuses (R9, R196). -/
theorem test_begin_other_config :
    responseOf (beginUnder { Config.cfg with nch := 3 } 3 2 prepared1) = [0x00000000] ∧
    responseOf (exec (.begin 3 2) prepared1) = [0x00000005] := by decide

/-- A packet on the wrong port is answered with `E_ILLEGAL` on that port. -/
theorem test_step_illegal : stateOf (fun t => (t.apOut, t.sticky)) (step { State.reset with apIn := [[0x00000006]] }) =
    some ([[0x00000001]], 1) := by decide

/-- Hardware reset drops the command in progress without a response (R250). -/
theorem test_hardware_reset :
    stateOf id (step { open1 with cpIn := [[0x00000000], [0x00000007]], resetIn := .asserted (some .cp) }) =
      some { State.reset with cpIn := [[0x00000007]] } := by decide

/-- V1.4: PROCESS and SETSTATE. -/
theorem test_assemble_process : assembleLine "PROCESS 2, 2, 1.0, -1.0, 0.5, 0.25".toList =
    some [(.ap, .begin 2 2), (.ap, .frame [0x3F800000, 0xBF800000]), (.ap, .frame [0x3F000000, 0x3E800000])] := by
  decide

theorem test_assemble_setstate : (assembleLine "SETSTATE depth=0.5, colour=3.0".toList).map
    (fun l => l.map fun c => encode c.2) =
      some [[0x00002205, 0x00000000, 0x3F000000, 0x00000000, 0x00000000, 0x00000000]] := by decide

theorem test_transport_bytes : packetBytes [0x473B8000, 1] = [0x00, 0x80, 0x3B, 0x47, 1, 0, 0, 0] := by decide

/-! ### Witnesses: the hypotheses of each statement can be met, at boundary values where a clause has a range -/

/-- The invariants hold in the smallest prepared state. -/
theorem prepared1_inv : prepared1.Inv where
  param_inRange := by decide
  snap_inRange := by decide
  lines_length := by decide
  memory_wf := by decide
  memory_depth := by decide
  cursor_depth := by decide
  blkch_le := by decide
  uninit := by decide
  configured := fun _ =>
    { two_le_cap := by decide, cap_le_depth := by decide, cap_eq := by decide, excs_eq := by decide,
      maxd_eq := by decide, fsMin_le := by decide, fs_finite := by decide, one_le_maxblk := by decide,
      remain_le := by decide, cursor_lt := by decide, written := by decide }
  block_open := by decide

/-- The invariants hold with a block of one channel and two frames open. -/
theorem open1_inv : open1.Inv where
  param_inRange := by decide
  snap_inRange := by decide
  lines_length := by decide
  memory_wf := by decide
  memory_depth := by decide
  cursor_depth := by decide
  blkch_le := by decide
  uninit := by decide
  configured := fun _ =>
    { two_le_cap := by decide, cap_le_depth := by decide, cap_eq := by decide, excs_eq := by decide,
      maxd_eq := by decide, fsMin_le := by decide, fs_finite := by decide, one_le_maxblk := by decide,
      remain_le := by decide, cursor_lt := by decide, written := by decide }
  block_open := by decide

/-- A block open on both channels of `echo1`, both fed alike: for the statement about two channels. -/
def twin1 : State := { open1 with blkch := 2 }

theorem witness_DecodeEncodeRoundTrip :
    (Instr.frame (List.replicate 255 posZero)).wf = true ∧
    Port.ap ∈ (Instr.frame (List.replicate 255 posZero)).opcode.homePorts ∧
    decode .ap [0x00000011] = .ok (.frame []) :=
  ⟨test_wf_accepts_255_samples, by simp [Instr.opcode, Opcode.homePorts], by decide⟩

/-- One packet for each of the checks, at the ends of the reserved ranges, and one that passes them all. -/
theorem witness_IllegalPacketChecks :
    (0x00010000 : Word).extractLsb' 16 16 ≠ 0 ∧
    ((0x00000008 : Word).extractLsb' 16 16 = 0 ∧
      (0x00000008 : Word).extractLsb' 0 8 ∉
        [0x00#8, 0x01#8, 0x02#8, 0x03#8, 0x04#8, 0x05#8, 0x06#8, 0x07#8, 0x10#8, 0x11#8]) ∧
    ((0x00000001 : Word).extractLsb' 0 8 = Opcode.byte .prepare ∧ Port.ap ∉ Opcode.homePorts .prepare) ∧
    ((0x0000FF11 : Word).extractLsb' 0 8 = Opcode.byte .frame ∧ Port.ap ∈ Opcode.homePorts .frame ∧
      ([] : List Word).length ≠ Opcode.nops .frame ((0x0000FF11 : Word).extractLsb' 8 8)) ∧
    ((0x0000FF07 : Word).extractLsb' 0 8 = Opcode.byte .stat ∧ Port.cp ∈ Opcode.homePorts .stat ∧
      ([] : List Word).length = Opcode.nops .stat ((0x0000FF07 : Word).extractLsb' 8 8) ∧
      Opcode.stat ∈ [Opcode.nop, .prepare, .reset, .getst, .stat] ∧ (0x0000FF07 : Word).extractLsb' 8 8 ≠ 0) ∧
    ((0x0000FF03 : Word).extractLsb' 0 8 = Opcode.byte .setp ∧ Port.cp ∈ Opcode.homePorts .setp ∧
      ([posZero] : List Word).length = Opcode.nops .setp ((0x0000FF03 : Word).extractLsb' 8 8) ∧
      Opcode.setp ∉ [Opcode.nop, .prepare, .reset, .getst, .stat]) ∧
    decode .cp [] = .error .emptyPacket := by decide

theorem witness_ProcessExpandsToBlock :
    ([posZero, posZero, posZero, posZero] : List Word).length = (2 : Byte).toNat * 2 ∧ 2 < 2 ^ 31 ∧
    ([] : List Word).length = (255 : Byte).toNat * 0 := by decide

/-- A tie (`2^24 + 1` units between `2^24` and `2^24 + 2`), and both sides of the overflow threshold. -/
theorem witness_RoundingIsNearestEven :
    ((2 ^ 24 + 1 : Nat) < (2 ^ 25 - 1) * 2 ^ 252 * 1 ∧ isFinite 0x01000001 = true ∧
      ((((2 ^ 24 + 1 : Nat) : Int) - magUnits 0x01000001 * 1).natAbs =
        (((2 ^ 24 + 1 : Nat) : Int) - magUnits (roundTo false (2 ^ 24 + 1) 1) * 1).natAbs) ∧
      magUnits 0x01000001 ≠ magUnits (roundTo false (2 ^ 24 + 1) 1)) ∧
    isInf (roundTo true ((2 ^ 25 - 1) * 2 ^ 252) 1) = true ∧
    isFinite (roundTo true ((2 ^ 25 - 1) * 2 ^ 252 - 1) 1) = true := by decide

/-- A finite pair with a sum, a pair with the sum zero, a NaN, and an infinity with a finite value and with itself. -/
theorem witness_AdditionRoundsExactSum :
    (isFinite 0x7F7FFFFF = true ∧ units 0x7F7FFFFF + units 0x7F7FFFFF ≠ 0) ∧
    (isFinite 0x80000000 = true ∧ units 0x80000000 + units 0x80000000 = 0) ∧
    (isFinite 0x00000001 = true ∧ units 0x00000001 + units 0x80000001 = 0) ∧
    isNaN 0x7F800001 = true ∧ isInf 0xFF800000 = true ∧ isNaN 0xFF800000 = false := by decide

theorem witness_MultiplicationRoundsExactProduct :
    isNaN 0xFFFFFFFF = true ∧ (isZero 0x80000000 = true ∧ isInf 0x7F800000 = true) ∧
    (isNaN 0x00000001 = false ∧ isZero 0x00000001 = false) ∧ isFinite 0x00000001 = true ∧
    isFinite 0xFF7FFFFF = true := by decide

theorem witness_DivisionRoundsExactQuotient :
    isNaN 0x7F800001 = true ∧ (isZero 0x00000000 = true ∧ isZero 0x80000000 = true) ∧ isInf 0xFF800000 = true ∧
    (isNaN 0x7F800000 = false ∧ isZero 0x7F800000 = false) ∧
    (isFinite 0x00000001 = true ∧ isZero 0x00000001 = false) := by decide

/-- A word of each class: the largest subnormal, the smallest and the largest normal exponent. -/
theorem witness_FloatFormat :
    (0x007FFFFF : Word).toNat / 2 ^ 23 % 2 ^ 8 = 0 ∧ (0x00800000 : Word).toNat / 2 ^ 23 % 2 ^ 8 = 1 ∧
    (0xFF7FFFFF : Word).toNat / 2 ^ 23 % 2 ^ 8 = 254 ∧ (0xFF800000 : Word).toNat / 2 ^ 23 % 2 ^ 8 = 255 := by decide

theorem witness_ComparisonsCompareValues : isFinite 0x7F7FFFFF = true ∧ isFinite 0xFF7FFFFF = true ∧
    isNaN 0x7F800001 = true ∧ isNaN 0xFFFFFFFF = true := by decide

theorem witness_ProducedNaNsAreCanonical :
    isNaN (fadd 0x7F800000 0xFF800000) = true ∧ isNaN (fsub 0x7F800000 0x7F800000) = true ∧
    isNaN (fmul 0x00000000 0xFF800000) = true ∧ isNaN (fdiv 0x00000000 0x80000000) = true ∧
    isNaN (neg 0xFFFFFFFF) = true ∧ isNaN (blend 0x00000000 0x3F800000 0x7F800001) = true := by decide

theorem witness_ArithmeticLaws :
    isNaN 0xFF800000 = false ∧ (0xFF800000 : Word) ≠ 0x80000000 ∧ isFinite 0xFF7FFFFF = true ∧
    isFinite 0x00000001 = true ∧ flt 0x00000000 0x00000001 = true := by decide

/-- Each clause at a boundary: the value at the lower bound, at the upper bound, and one step inside each. -/
theorem witness_ClampStaysWithinBounds :
    isNaN 0xBF800000 = false ∧ isNaN 0x7F800000 = false ∧ isFinite negOne = true ∧ isFinite one = true ∧
    fle negOne one = true ∧ units 0xBF800000 ≤ units negOne ∧
    (units negOne < units 0x3F800000 ∧ units one ≤ units 0x3F800000) ∧
    (units negOne < units 0xBF7FFFFF ∧ units 0x3F7FFFFF < units one) ∧ fle 0xBF800000 0x7F800000 = true := by decide

theorem witness_BlendAtItsEnds :
    isFinite 0x80000000 = true ∧ isFinite 0x7F7FFFFF = true ∧ isFinite 0x7F800000 = false := by decide

theorem witness_IntegerConversionsAreExact : isFinite 0xFF7FFFFF = true ∧ 0xFFFFFF < 2 ^ 24 := by decide

theorem witness_DelaySplitIsExact :
    (isFinite one = true ∧ fle 0x3F800000 one = true ∧ units one < 2 ^ 24 * 2 ^ 149) ∧
    (isFinite 0x4B7FFFFF = true ∧ fle 0x3F800000 0x4B7FFFFF = true ∧ units 0x4B7FFFFF < 2 ^ 24 * 2 ^ 149) := by decide

/-- Both ends of each quarter of the table, and the last phase of the cycle, between the entries 255 and 0. -/
theorem witness_SineKeepsItsContract :
    (0 ≤ 64 ∧ 64 < 65 ∧ 128 ≤ 128 ∧ 128 < 129 ∧ 192 ≤ 192 ∧ 192 < 193 ∧ 255 ≤ 255) ∧
    ((255 : Nat) < 2 ^ 8 ∧ 0xFFFFFF < 2 ^ 24 ∧ isFinite (frac24 0xFFFFFF) = true ∧
      signBit (frac24 0xFFFFFF) = false ∧ units (frac24 0xFFFFFF) * 2 ^ 24 = ((0xFFFFFF : Nat) : Int) * 2 ^ 149 ∧
      ∃ v : Word, v = fadd (fmul (fsub 0x3F800000 (frac24 0xFFFFFF)) (Config.cfg.sine (BitVec.ofNat 32 (255 * 2 ^ 24))))
        (fmul (frac24 0xFFFFFF) (Config.cfg.sine (BitVec.ofNat 32 ((255 + 1) % 256 * 2 ^ 24)))) ∧ v = 0xB0C90AB0) :=
  ⟨by decide, by decide, by decide, by decide, by decide, by decide, 0xB0C90AB0, by decide, rfl⟩

theorem witness_SineLiesBetweenItsEntries : (255 : Nat) < 2 ^ 8 ∧ 0xFFFFFF < 2 ^ 24 ∧ (0 : Nat) < 2 ^ 8 ∧ 0 < 2 ^ 24 := by
  decide

theorem witness_PhaseIncrementIsTruncatedQuotient :
    paramInRange .rate hundred = true ∧ paramInRange .rate 0x00000000 = true ∧ isFinite one = true ∧
    fle 0x3F800000 one = true := by decide

theorem witness_ZeroRateHoldsPhase : open1.Inv ∧ open1.snap.rate = 0x00000000 ∧
    ∃ t, exec (.frame [0x3F800000]) open1 = .next t ∧ t.remain = 1 := ⟨open1_inv, rfl, _, rfl, rfl⟩

theorem witness_ZeroDepthGivesCentreDelay : prepared1.Inv ∧ prepared1.eng ≠ .uninit ∧
    prepared1.snap.depth = 0x00000000 := ⟨prepared1_inv, by decide, rfl⟩

theorem witness_TapsStayInsideTheLine : prepared1.Inv ∧ prepared1.eng ≠ .uninit ∧ 0 < prepared1.cap ∧
    1 < prepared1.cap := ⟨prepared1_inv, by decide, by decide, by decide⟩

theorem witness_TapFindsKthLastWord : (1 : Nat) < 2 ∧ 1 ≤ 2 ∧ 2 ≤ 2 := by decide

theorem witness_ClearLinesIsTheWriteLoop : (∀ l ∈ echo1.lines, l.buf.wf = true) ∧ echo1.cap = 2 := by decide

theorem witness_SetpStoresClampedValue : 4 < (5 : Byte).toNat ∧
    ((4 : Byte).toNat ≤ 4 ∧ isNaN 0x7F800001 = true) ∧
    ((4 : Byte).toNat = ParamId.num .mix ∧ isNaN 0x7F800000 = false) := by decide

theorem witness_GetpReadsLiveRegister : 4 < (5 : Byte).toNat ∧ (4 : Byte).toNat = ParamId.num .mix ∧
    prepared1.Inv := ⟨by decide, by decide, prepared1_inv⟩

/-- SETST with no failed key, and with a failed key. -/
theorem witness_SetstAppliesEachKey :
    responseOf (exec (.setst 0xFF 0 0 0 0 0) State.reset) = [0x00000000] ∧
    responseOf (exec (.setst 0xFF 0 0 0 0 0x7FC00000) State.reset) = [0x00001007] := by decide

theorem witness_StateRoundTrip : prepared1.Inv := prepared1_inv

theorem witness_LastAcceptedWriteIsRead :
    ∃ t, execAll [.setp 4 0x3FC00000, .setst 0x10 0 0 0 0 0x7FC00000] State.reset = some t ∧
      lastAccepted .mix [.setp 4 0x3FC00000, .setst 0x10 0 0 0 0 0x7FC00000] = some 0x3FC00000 ∧
      (4 : Byte).toNat = ParamId.num .mix := ⟨_, rfl, by decide, by decide⟩

/-- A busy CORE, each cause of `E_CONFIG` at its boundary, and both ends of the range of accepted rates. -/
theorem witness_PrepareConfigures :
    open1.remain ≠ 0 ∧ prepared1.remain = 0 ∧
    (isNaN 0x7F800001 = true ∧ fle 0x80000000 0x00000000 = true ∧ flt 0x3F7FFFFF 0x3F800000 = true ∧
      (0 : Word).toInt ≤ 0 ∧ exceedsDepth 0x4891733B = true) ∧
    (isFinite 0x3F800000 = true ∧ fle 0x3F800000 0x3F800000 = true ∧ 0 < (1 : Word).toInt ∧
      exceedsDepth 0x3F800000 = false) ∧
    (isFinite 0x4891733A = true ∧ fle 0x3F800000 0x4891733A = true ∧ 0 < (0x7FFFFFFF : Word).toInt ∧
      exceedsDepth 0x4891733A = false) := by decide

theorem witness_ResetClearsHistory : open1.remain ≠ 0 ∧ prepared1.remain = 0 ∧ 1 < prepared1.lines.length := by decide

/-- Each refusal of BEGIN, each cause of `E_BADARG` at its boundary, and the smallest and the largest block. -/
theorem witness_BeginOpensBlock :
    State.reset.eng = .uninit ∧ (open1.eng ≠ .uninit ∧ open1.remain ≠ 0) ∧
    (prepared1.eng ≠ .uninit ∧ prepared1.remain = 0 ∧ (0 : Byte).toNat = 0 ∧ 2 < (3 : Byte).toNat ∧
      (0xFFFFFFFF : Word).toInt < 0 ∧ prepared1.maxblk.toInt < (3 : Word).toInt) ∧
    (1 ≤ (1 : Byte).toNat ∧ (2 : Byte).toNat ≤ 2 ∧ 0 ≤ (0 : Word).toInt ∧
      (2 : Word).toInt ≤ prepared1.maxblk.toInt) := by decide

/-- The smallest and the largest packet of FRAME, and each refusal. -/
theorem witness_FrameRefusals : ([] : List Word).length ≤ 255 ∧ (List.replicate 255 posZero).length ≤ 255 ∧
    prepared1.remain = 0 ∧ open1.remain ≠ 0 ∧
    ([] : List Word).length ≠ open1.blkch := ⟨by decide, by rw [List.length_replicate], by decide, by decide, by decide⟩

theorem witness_FrameComputesEachChannel : open1.Inv ∧ open1.remain ≠ 0 ∧
    ([0x3F800000] : List Word).length = open1.blkch := ⟨open1_inv, by decide, rfl⟩

theorem witness_ClearedLinesAreSilent : open1.Inv ∧ open1.remain ≠ 0 ∧
    ([0x3F800000] : List Word).length = open1.blkch ∧ ∀ c < 1, ∀ a < open1.cap, open1.ram c a = some 0x00000000 :=
  ⟨open1_inv, by decide, rfl, by decide⟩

theorem witness_DryBypassIsBitExact : open1.snap.mix = 0x00000000 ∧ open1.remain ≠ 0 ∧
    ([0xFFC12345] : List Word).length = open1.blkch ∧ ∃ t, exec (.frame [0xFFC12345]) open1 = .next t ∧ t.remain = 1 :=
  ⟨rfl, by decide, rfl, _, rfl, rfl⟩

/-- Two states that differ in channel 1 only, and two channels fed alike. -/
theorem witness_ChannelsAreIndependent :
    (twin1.remain ≠ 0 ∧ open1.remain ≠ 0 ∧ ([one, negOne] : List Word).length = twin1.blkch ∧
      ([one] : List Word).length = open1.blkch ∧ twin1.snap = open1.snap ∧ twin1.lines[0]? = open1.lines[0]? ∧
      ([one, negOne] : List Word)[0]? = ([one] : List Word)[0]? ∧
      (∃ t, exec (.frame [one, negOne]) twin1 = .next t ∧ t.remain = 1) ∧
      ∃ t, exec (.frame [one]) open1 = .next t ∧ t.remain = 1) ∧
    (0 < ([one, one] : List Word).length ∧ 1 < ([one, one] : List Word).length ∧ twin1.lines[0]? = twin1.lines[1]? ∧
      ([one, one] : List Word)[0]? = ([one, one] : List Word)[1]? ∧
      ∃ t, exec (.frame [one, one]) twin1 = .next t ∧ t.remain = 1) :=
  ⟨⟨by decide, by decide, by decide, by decide, by decide, by decide, by decide, ⟨_, rfl, rfl⟩, ⟨_, rfl, rfl⟩⟩,
    by decide, by decide, by decide, by decide, ⟨_, rfl, rfl⟩⟩

theorem witness_OpenBlockIgnoresLiveParameters : ∃ t, exec (.frame [one]) open1 = .next t ∧ t.remain = 1 :=
  ⟨_, rfl, rfl⟩

theorem witness_BlockRunsToCompletion : open1.Inv ∧ open1.remain ≠ 0 ∧
    ([[one], [negOne]] : List (List Word)).length = open1.remain ∧
    ∀ f ∈ ([[one], [negOne]] : List (List Word)), f.length = open1.blkch :=
  ⟨open1_inv, by decide, rfl, by simp [open1]⟩

/-- A SETST that keeps a write and fails, the one error that changes a parameter. -/
theorem witness_ErrorsChangeOnlyTheirFlag :
    ∃ t, runPacket exec .cp [0x00001105, one, 0, 0, 0, canonicalNaN] State.reset = .next t ∧
      responseCode t.response = some 7 ∧ t.param ≠ State.reset.param :=
  ⟨_, rfl, by decide, by decide⟩

theorem witness_FirstFailingCheckDecides :
    ∃ t, runPacket exec .ap [0x00000010, 0x00000001] State.reset = .next t ∧
      firstError .ap [0x00000010, 0x00000001] State.reset = some .state := ⟨_, rfl, by decide⟩

theorem witness_StickyFlagsAreARecord :
    (∃ t, runPacket exec .cp [0x00000008] State.reset = .next t ∧ t.sticky = 1) ∧
    ({ open1 with resetIn := .asserted none } : State).resetIn = .asserted none ∧
    ∃ t, exec .stat State.reset = .next t ∧ t.eng = .uninit := ⟨⟨_, rfl, by decide⟩, rfl, _, rfl, rfl⟩

theorem witness_EngineTransitions :
    (∃ t, exec (.prepare one 2) State.reset = .next t ∧ responseCode t.response = some 0) ∧
    (∃ t, exec (.begin 1 0) prepared1 = .next t ∧ responseCode t.response = some 0) ∧
    (∃ t, exec .reset open1 = .next t ∧ responseCode t.response = some 3) ∧
    ({ open1 with resetIn := .asserted none } : State).resetIn = .asserted none :=
  ⟨⟨_, rfl, by decide⟩, ⟨_, rfl, by decide⟩, ⟨_, rfl, by decide⟩, rfl⟩

theorem witness_WritersOfEachPieceOfState :
    ∃ t, exec (.frame [one]) open1 = .next t ∧ Opcode.frame ∉ [Opcode.setp, .setst] ∧ t.remain = 1 :=
  ⟨_, rfl, by decide, rfl⟩

theorem witness_ResponsesHaveTheirForm :
    ∃ t, runPacket exec .ap [0x00000111, one] open1 = .next t ∧ responseCode t.response = some 0 :=
  ⟨_, rfl, by decide⟩

/-- A NOP alone on CP, and a NOP alone on AP: neither case asks for a value of the arbiter. On either port alone, also a
packet that does not decode. -/
theorem witness_StepRunsDecodedCommand :
    ({ open1 with cpIn := [[0x00000000]] } : State).cpIn = [0x00000000] :: [] ∧
    ({ open1 with cpIn := [[0x00000000]] } : State).apIn = [] ∧
    ({ open1 with apIn := [[0x00000000]] } : State).apIn = [0x00000000] :: [] ∧
    decode .cp [0x00000000] = .ok .nop ∧ decode .ap [0x00000000] = .ok .nop ∧ open1.resetIn = .released ∧
    (({ open1 with cpIn := [[0x00000010, 0]] } : State).cpIn = [0x00000010, 0] :: [] ∧
      decode .cp [0x00000010, 0] = .error .wrongPort) ∧
    (({ open1 with apIn := [[]] } : State).apIn = [] :: [] ∧ decode .ap [] = .error .emptyPacket) := by decide

theorem witness_OneResponseOnTheCommandsPort :
    ({ open1 with cpIn := [[0x00000000]] } : State).cpIn ≠ [] ∧ open1.resetIn = .released ∧
    ∃ t, step { open1 with cpIn := [[0x00000000]] } = .next t ∧ t.cpOut = [[0x00000000]] :=
  ⟨by decide, rfl, _, rfl, by decide⟩

theorem witness_IdleCoreKeepsItsState : open1.resetIn = .released ∧ open1.cpIn = [] ∧ open1.apIn = [] := by decide

theorem witness_HardwareResetValues :
    ({ echo1 with resetIn := .asserted (some .ap) } : State).resetIn = .asserted (some .ap) ∧
    ({ echo1 with resetIn := .asserted none } : State).resetIn = .asserted none := by decide

theorem witness_ResetDiscardsCommandInProgress :
    ({ open1 with cpIn := [[]], resetIn := .asserted (some .cp) } : State).cpIn = [] :: [] ∧
    ({ open1 with apIn := [[]], resetIn := .asserted (some .ap) } : State).apIn = [] :: [] ∧
    ({ open1 with resetIn := .asserted none } : State).resetIn = .asserted none ∧
    (({ open1 with resetIn := .asserted (some .cp) } : State).resetIn = .asserted (some .cp) ∧ open1.cpIn = []) ∧
    ({ open1 with resetIn := .asserted (some .ap) } : State).resetIn = .asserted (some .ap) ∧ open1.apIn = [] := by decide

theorem witness_EveryStepKeepsTheInvariants : open1.Inv ∧ ∃ t, step open1 = .next t ∧ t.remain = 2 :=
  ⟨open1_inv, _, rfl, rfl⟩

theorem witness_EveryStepCompletes : open1.Inv ∧ open1.resetIn = .released ∧
    ({ open1 with cpIn := [[0x00000000]] } : State).cpIn ≠ [] := ⟨open1_inv, rfl, by decide⟩

end Sys2Proof.Tests
end

section
/-! PROOFS. `00_scope.md`: this hardware's configuration is valid and is the one `exec`, `step` and `State.reset` are
applied to. The one constraint that is no computation is S2 of `42_oscillator.md` R153: the final clamp keeps the waveform
in [-1, 1] only if no interpolated value is a NaN, and none is because weights and table entries have magnitude at most
1, so that every product is finite. -/

namespace Sys2Proof.Machine

/-! ### Words of magnitude at most 1 -/

/-- The magnitude of a word is at most 1, read off its pattern. -/
def AtMostOne (w : Word) : Prop := magBits w ≤ magBits one

theorem AtMostOne.isFinite {w : Word} (h : AtMostOne w) : isFinite w = true := isFinite_of_magBits_le h (by decide)

theorem AtMostOne.isNaN {w : Word} (h : AtMostOne w) : isNaN w = false := isNaN_of_isFinite h.isFinite

theorem AtMostOne.neg {w : Word} (h : AtMostOne w) : AtMostOne (neg w) := by
  unfold AtMostOne
  rw [magBits_neg h.isNaN]
  exact h

theorem AtMostOne.magUnits_le {w : Word} (h : AtMostOne w) : magUnits w ≤ magUnits one := by
  rw [magUnits_eq, magUnits_eq, magOfBits_le_iff]
  exact h

/-- A value of magnitude at most 1 rounds to a word of magnitude at most 1. -/
theorem atMostOne_roundTo (negative : Bool) {n d : Nat} (hd : 0 < d) (h : n ≤ magUnits one * d) :
    AtMostOne (roundTo negative n d) := by
  rw [magUnits_eq] at h
  unfold AtMostOne
  rw [magBits_roundTo]
  exact roundMag_le hd (by decide) h

theorem AtMostOne.fmul {a b : Word} (ha : AtMostOne a) (hb : AtMostOne b) : AtMostOne (fmul a b) := by
  rw [fmul_of_finite ha.isFinite hb.isFinite]
  exact atMostOne_roundTo _ (by decide) (Nat.mul_le_mul ha.magUnits_le hb.magUnits_le)

/-- The complement of a weight without a sign is a weight. -/
theorem AtMostOne.one_fsub {w : Word} (hw : AtMostOne w) (hs : signBit w = false) : AtMostOne (fsub one w) := by
  have hu : units (Machine.neg w) = -(magUnits w : Int) := by
    rw [units_of_neg (by simp [signBit_neg hw.isNaN, hs]), magUnits_eq, magBits_neg hw.isNaN, magUnits_eq]
  have hsum : (units one + units (Machine.neg w)).natAbs ≤ magUnits one := by
    have hle := hw.magUnits_le
    rw [units_of_pos (by decide), hu]
    omega
  rw [fsub, fadd_of_finite (by decide) hw.neg.isFinite]
  split
  · split <;> unfold AtMostOne <;> decide
  · exact atMostOne_roundTo _ (by decide) (by rwa [Nat.mul_one])

/-- A blend by a weight without a sign of two words of magnitude at most 1 is no NaN (R109). -/
theorem isNaN_blend {w p q : Word} (hw : AtMostOne w) (hs : signBit w = false) (hp : AtMostOne p) (hq : AtMostOne q) :
    isNaN (blend w p q) = false :=
  isNaN_fadd ((hw.one_fsub hs).fmul hp).isFinite (hw.fmul hq).isNaN

/-! ### The waveform of this hardware (`42_oscillator.md` R153 to R155) -/

theorem atMostOne_frac24 {n : Nat} (h : n < 2 ^ 24) : AtMostOne (frac24 n) := by
  refine atMostOne_roundTo _ (by decide) ?_
  rw [show magUnits one = unitsPerOne by decide, Nat.mul_comm]
  exact Nat.mul_le_mul_left _ h.le

theorem atMostOne_phaseFraction (p : BitVec 32) : AtMostOne (phaseFraction p) := atMostOne_frac24 (BitVec.isLt _)

theorem signBit_phaseFraction (p : BitVec 32) : signBit (phaseFraction p) = false := signBit_roundTo _ _ _

theorem quarterTable_le_one : ∀ v ∈ quarterTable, v ≤ one := List.all_iff_forall_prop.mp rfl

theorem atMostOne_of_mem_quarterTable {v : Word} (hv : v ∈ quarterTable) : AtMostOne v :=
  calc magBits v ≤ v.toNat := Nat.mod_le _ _
    _ ≤ one.toNat := quarterTable_le_one v hv
    _ = magBits one := by decide

theorem atMostOne_quarterWave (k : Nat) : AtMostOne (quarterWave k) := by
  rw [quarterWave, List.getD_eq_getElem?_getD]
  cases h : quarterTable[k]? with
  | none => exact Nat.zero_le _
  | some v => exact atMostOne_of_mem_quarterTable (List.mem_of_getElem? h)

theorem atMostOne_sineEntry (j : Nat) : AtMostOne (sineEntry j) := by
  unfold sineEntry
  split_ifs
  · exact atMostOne_quarterWave _
  · exact atMostOne_quarterWave _
  · exact (atMostOne_quarterWave _).neg
  · exact (atMostOne_quarterWave _).neg

theorem isNaN_sineBlend (p : BitVec 32) : isNaN (sineBlend p) = false :=
  isNaN_blend (atMostOne_phaseFraction p) (signBit_phaseFraction p) (atMostOne_sineEntry _) (atMostOne_sineEntry _)

/-- The waveform's final clamp tests the bounds in the other order than R108, which makes no difference. -/
theorem sineClamp_eq_clamp (v : Word) : sineClamp v = clamp v negOne one := by
  unfold sineClamp clamp
  by_cases hle : fle v negOne = true
  · have hge : ¬ fge v one = true := fun hge => by
      have h1 := (fle_iff.mp hle).2.2
      have h2 := (fle_iff.mp hge).2.2
      exact absurd (h2.trans h1) (by decide)
    rw [if_neg hge, if_pos hle, if_pos hle]
  · rw [if_neg hle, if_neg hle]

/-- S2 of R153. -/
theorem sineTable_range (p : BitVec 32) :
    isNaN (sineTable p) = false ∧ fle negOne (sineTable p) = true ∧ fle (sineTable p) one = true := by
  have hv := isNaN_sineBlend p
  rw [sineTable, sineClamp_eq_clamp]
  rcases clamp_cases hv (lo := negOne) (hi := one) (by decide) (by decide) with ⟨_, e⟩ | ⟨_, _, e⟩ | ⟨hlo, hhi, e⟩ <;>
    rw [e]
  · decide
  · decide
  · exact ⟨hv, fle_iff.mpr ⟨by decide, hv, hlo.le⟩, fle_iff.mpr ⟨hv, by decide, hhi.le⟩⟩

/-! ### The configuration (`00_scope.md` R9) -/

/-- This hardware's values meet the constraints on a configuration. -/
theorem cfg_valid : Config.cfg.Valid where
  nch_range := by decide
  two_le_bufdepth := by decide
  one_le_margin := by decide
  excMs_range := by decide
  fsMin_range := by decide
  sine_range := sineTable_range
  sine_zero := by decide

theorem exec_eq_execUnder (i : Instr) (s : State) : exec i s = execUnder Config.cfg i s := by
  cases i <;> rfl

theorem step_eq_stepUnder (s : State) : step s = stepUnder Config.cfg s := by
  have hexec : exec = execUnder Config.cfg := funext₂ exec_eq_execUnder
  rw [step, stepUnder, hexec]

/-- Settles O1: the values and the reset state are the definitions' own, the rest is `cfg_valid`, `exec_eq_execUnder` and
`step_eq_stepUnder`. -/
theorem configurationOfThisHardware : Obligations.ConfigurationOfThisHardware :=
  ⟨⟨rfl, rfl, rfl, rfl, rfl, rfl, rfl⟩, cfg_valid, exec_eq_execUnder, step_eq_stepUnder, rfl⟩

end Sys2Proof.Machine
end

section
/-! PROOFS. `10_state.md`: who writes which piece of state, the parameter table, the state after hardware reset, and the
invariants of R40. A command writes the CORE's state and then answers; `exec_next` says once what the writes can be, and
both the writers and the invariants are read off its six cases. -/

namespace Sys2Proof.Machine

/-! ### What a command can do -/

/-- A command's answer: `OK` with data, or an error with its sticky flag (`30_encoding.md` R84, `60_exceptions.md` R222). -/
inductive Answers (u : State) : State → Prop where
  | ok (data : List Word) : Answers u (respondOk data u)
  | error (e : ErrCode) (info : Byte) : Answers u (raiseError e info u)

/-- What a command writes before it answers, with the guards it has passed. -/
inductive Writes (s : State) : Instr → State → Prop where
  /-- Nothing: a command that only reads, and every refusal. -/
  | nothing (i : Instr) : Writes s i s
  /-- SETP and SETST: the live registers, by values in range (`41_parameter_commands.md` R131, R133). -/
  | params {i : Instr} {p : Params} (hop : i.opcode ∈ [.setp, .setst])
      (hrange : s.param.inRange = true → p.inRange = true) : Writes s i { s with param := p }
  /-- PREPARE (`45_engine_commands.md` R193). -/
  | configuration {sr mb : Word} {cap : Nat} (hclosed : s.remain = 0) (hargs : badConfig Config.cfg sr mb = false)
      (hcap : capacityOf Config.cfg (maxDelaySamples Config.cfg sr) = some cap) (hdepth : cap ≤ Config.cfg.bufdepth) :
      Writes s (.prepare sr mb) (prepared Config.cfg sr mb cap s)
  /-- RESET (R195). -/
  | history : Writes s .reset (clearLines s)
  /-- BEGIN (R196). -/
  | block {nch : Byte} {ns : Word} (heng : s.eng ≠ .uninit) (hargs : badBlock Config.cfg nch ns s = false) :
      Writes s (.begin nch ns) (blockOpened nch ns s)
  /-- FRAME (R198, R199). -/
  | frame {xs ys : List Word} {phase : BitVec 32} {f : FrameShared} {lines : List Line} (hopen : s.remain ≠ 0)
      (hshared : frameShared Config.cfg s = .ok (phase, f))
      (hlines : stepLines Config.cfg f xs s.lines = .ok (ys, lines)) :
      Writes s (.frame xs) { s with phase := phase, lines := lines, remain := s.remain - 1 }

/-- SETP answers `E_UNKNOWN` or `E_MALFORMED`, or stores the clamped value (R131). -/
theorem execSetp_next {id : Byte} {v : Word} {s t : State} (h : execSetp id v s = .next t) :
    (∃ e, t = raiseError e 0 s) ∨
    (∃ i, isNaN v = false ∧ t = respondOk [] { s with param := s.param.set i (clampParam Config.cfg i v) }) := by
  unfold execSetp setpUnder at h
  split at h
  · cases h; exact .inl ⟨_, rfl⟩
  · split at h
    · cases h; exact .inl ⟨_, rfl⟩
    · cases h; exact .inr ⟨_, Bool.eq_false_iff.mpr ‹_›, rfl⟩

/-- GETP only answers (R132). -/
theorem execGetp_next {id : Byte} {s t : State} (h : execGetp id s = .next t) : Answers s t := by
  unfold execGetp at h
  split at h
  · cases h; exact .error _ _
  · cases h; exact .ok _

/-- SETST stores what its loop leaves and answers, whether or not a key failed (R133). -/
theorem execSetst_next {mask : Byte} {v0 v1 v2 v3 v4 : Word} {s t : State}
    (h : execSetst mask v0 v1 v2 v3 v4 s = .next t) :
    ∃ keys, Answers { s with param := (applyKeys Config.cfg mask keys s.param 0).1 } t := by
  unfold execSetst setstUnder finishSetst at h
  split at h
  · cases h; exact ⟨_, .error _ _⟩
  · cases h; exact ⟨_, .ok _⟩

/-- A command that completes has made the writes it is named for, and answered. -/
theorem exec_next {i : Instr} {s t : State} (h : exec i s = .next t) : ∃ u, Writes s i u ∧ Answers u t := by
  cases i with
  | nop => cases h; exact ⟨s, .nothing _, .ok _⟩
  | stat => cases h; exact ⟨s, .nothing _, .ok _⟩
  | getst => cases h; exact ⟨s, .nothing _, .ok _⟩
  | getp id => exact ⟨s, .nothing _, execGetp_next h⟩
  | setp id v =>
    obtain ⟨e, rfl⟩ | ⟨i, hv, rfl⟩ := execSetp_next h
    · exact ⟨s, .nothing _, .error _ _⟩
    · exact ⟨_, .params (by simp [Instr.opcode]) fun hp => Params.inRange_set hp (clampParam_inRange hv), .ok _⟩
  | setst mask v0 v1 v2 v3 v4 =>
    obtain ⟨keys, ha⟩ := execSetst_next h
    exact ⟨_, .params (by simp [Instr.opcode]) fun hp => applyKeys_inRange 0 hp, ha⟩
  | prepare sr mb =>
    obtain ⟨-, e⟩ | ⟨-, e⟩ | ⟨hclosed, hargs, cap, hcap, hdepth, e⟩ := execPrepare_next sr mb s <;>
      cases e.symm.trans h
    · exact ⟨s, .nothing _, .error _ _⟩
    · exact ⟨s, .nothing _, .error _ _⟩
    · exact ⟨_, .configuration hclosed hargs hcap hdepth, .ok _⟩
  | reset =>
    obtain ⟨-, e⟩ | ⟨-, e⟩ := execReset_next s <;> cases e.symm.trans h
    · exact ⟨s, .nothing _, .error _ _⟩
    · exact ⟨_, .history, .ok _⟩
  | begin nch ns =>
    obtain ⟨-, e⟩ | ⟨-, -, e⟩ | ⟨-, -, -, e⟩ | ⟨heng, -, hargs, e⟩ := execBegin_next nch ns s <;>
      cases e.symm.trans h
    · exact ⟨s, .nothing _, .error _ _⟩
    · exact ⟨s, .nothing _, .error _ _⟩
    · exact ⟨s, .nothing _, .error _ _⟩
    · exact ⟨_, .block heng hargs, .ok _⟩
  | frame xs =>
    obtain ⟨-, rfl⟩ | ⟨-, -, rfl⟩ | ⟨hopen, -, phase, f, ys, lines, hshared, hlines, rfl⟩ := execFrame_next h
    · exact ⟨s, .nothing _, .error _ _⟩
    · exact ⟨s, .nothing _, .error _ _⟩
    · exact ⟨_, .frame hopen hshared hlines, .ok _⟩

/-! ### The writers of each piece of state (R22 to R34) -/

/-- What `i` may have changed between `s` and `t`: everything it is not named for is as it was. -/
def WritesOnlyItsOwn (i : Instr) (s t : State) : Prop :=
  (i.opcode ∉ [.setp, .setst] → t.param = s.param) ∧
  (i.opcode ≠ .begin → t.snap = s.snap ∧ t.blkch = s.blkch) ∧
  (i.opcode ∉ [.prepare, .reset, .frame] → t.phase = s.phase ∧ t.lines = s.lines) ∧
  (i.opcode ≠ .prepare →
    t.fs = s.fs ∧ t.maxblk = s.maxblk ∧ t.excs = s.excs ∧ t.maxd = s.maxd ∧ t.cap = s.cap) ∧
  (i.opcode ∉ [.prepare, .begin] → t.eng = s.eng) ∧
  (i.opcode ∉ [.begin, .frame] → t.remain = s.remain) ∧
  (t.cpIn = s.cpIn ∧ t.apIn = s.apIn ∧ t.cpOut = s.cpOut ∧ t.apOut = s.apOut ∧ t.resetIn = s.resetIn ∧
    t.turn = s.turn)

theorem Writes.writesOnlyItsOwn {i : Instr} {s u : State} (h : Writes s i u) : WritesOnlyItsOwn i s u := by
  cases h with
  | nothing => simp [WritesOnlyItsOwn]
  | params hop => simp [WritesOnlyItsOwn, hop]
  | configuration => simp [WritesOnlyItsOwn, Instr.opcode]
  | history => simp [WritesOnlyItsOwn, Instr.opcode]
  | block => simp [WritesOnlyItsOwn, Instr.opcode]
  | frame => simp [WritesOnlyItsOwn, Instr.opcode]

/-- An answer is in none of the pieces. -/
theorem WritesOnlyItsOwn.of_answers {i : Instr} {s u t : State} (h : WritesOnlyItsOwn i s u) (ha : Answers u t) :
    WritesOnlyItsOwn i s t := by
  cases ha <;> exact h

/-- Settles O50, from the six kinds of writes. -/
theorem writersOfEachPieceOfState : Obligations.WritersOfEachPieceOfState := by
  intro i s t h
  obtain ⟨u, hw, ha⟩ := exec_next h
  exact hw.writesOnlyItsOwn.of_answers ha

/-! ### The parameter table and hardware reset (R21, R41) -/

/-- Settles O27: the table is read off the four definitions. -/
theorem parameterTable : Obligations.ParameterTable := rfl

theorem step_of_asserted {s : State} {inProgress : Option Port} (h : s.resetIn = .asserted inProgress) :
    step s = .next (hardwareReset Config.cfg inProgress s) := by
  rw [step, stepWith, h]

/-- Settles O55: the step is `hardwareReset`, whose fields are those of `State.resetUnder`. -/
theorem hardwareResetValues : Obligations.HardwareResetValues := by
  intro s inProgress h
  exact ⟨_, step_of_asserted h, rfl, rfl, rfl, rfl, rfl, rfl, rfl, rfl, rfl, rfl, rfl, rfl, rfl, rfl, rfl⟩

/-- R40 at reset: nothing is configured, no frame is expected, the delay RAM holds no word. -/
theorem reset_inv : State.reset.Inv where
  param_inRange := by decide
  snap_inRange := by decide
  lines_length := rfl
  memory_wf := reset_memory_wf
  memory_depth := by decide
  cursor_depth := by decide
  blkch_le := by decide
  uninit := fun _ => ⟨rfl, rfl, rfl⟩
  configured := fun h => absurd rfl h
  block_open := fun h => absurd rfl h

/-- Settles O57. -/
theorem invariantsHoldAtReset : Obligations.InvariantsHoldAtReset := reset_inv

/-! ### The lines under a clear and under a frame (R30, R31) -/

/-- The widths of R20 and the canonical form, for one line. -/
structure Line.Stored (l : Line) : Prop where
  wf : l.buf.wf = true
  depth : ∀ cell ∈ l.buf, cell.1 < Config.cfg.bufdepth
  cursor : l.w < Config.cfg.bufdepth

/-- R40 (d) for one line: the cursor is in the line and every word of the line has been written. -/
structure Line.Ready (cap : Nat) (l : Line) : Prop where
  cursor_lt : l.w < cap
  written : ∀ a < cap, (l.buf.read a).isSome = true

theorem Line.Stored.clearLine {cap : Nat} {l : Line} (h : l.Stored) (hcap : cap ≤ Config.cfg.bufdepth) :
    (clearLine cap l).Stored where
  wf := clearLine_wf h.wf
  depth cell hcell := (Memory.mem_zeroFill hcell).elim (fun hlt => hlt.trans_le hcap) (h.depth cell)
  cursor := show 0 < Config.cfg.bufdepth by decide

theorem clearLine_ready {cap : Nat} (l : Line) (hcap : 0 < cap) : (clearLine cap l).Ready cap where
  cursor_lt := hcap
  written a ha := by rw [clearLine, Memory.read_zeroFill_below _ ha]; rfl

theorem Memory.isSome_read_write {m : Memory} {a b : Nat} (v : Word) (h : (m.read b).isSome = true) :
    ((m.write a v).read b).isSome = true := by
  by_cases hab : b = a
  · rw [hab, Memory.read_write_same]; rfl
  · rwa [Memory.read_write_other m v hab]

/-- A channel's part of a frame keeps its line: it writes one word of the line and moves the cursor inside it. -/
theorem stepLine_keeps {cfg : Config.Cfg} {f : FrameShared} {x y : Word} {l l' : Line}
    (hcap : f.cap ≤ Config.cfg.bufdepth) (h : stepLine cfg f x l = .ok (y, l')) (hs : l.Stored) (hr : l.Ready f.cap) :
    l'.Stored ∧ l'.Ready f.cap := by
  obtain ⟨delayed, -, -, hw, rfl⟩ := stepLine_eq_ok.mp h
  have hnext : nextCursor l.w f.cap < f.cap := nextCursor_lt l.w (Nat.zero_lt_of_lt hw)
  refine ⟨⟨Memory.wf_write _ _ hs.wf, fun cell hcell => ?_, hnext.trans_le hcap⟩,
    hnext, fun a ha => Memory.isSome_read_write _ (hr.written a ha)⟩
  obtain rfl | hmem := Memory.mem_write hcell
  · exact hw.trans_le hcap
  · exact hs.depth cell hmem

/-- What each channel's part of a frame keeps of its line, the frame keeps of every line (R168, R199). -/
theorem stepLines_forall {cfg : Config.Cfg} {f : FrameShared} {xs ys : List Word} {ls ls' : List Line} {P : Line → Prop}
    (h : stepLines cfg f xs ls = .ok (ys, ls')) (hP : ∀ l ∈ ls, P l)
    (hstep : ∀ x y l l', stepLine cfg f x l = .ok (y, l') → P l → P l') : ∀ l ∈ ls', P l := by
  obtain ⟨-, -, -, hstepped, hkept⟩ := stepLines_ok h
  intro l' hl'
  obtain ⟨c, hc⟩ := List.mem_iff_getElem?.mp hl'
  cases hx : xs[c]? with
  | some x =>
    obtain ⟨y, l, l₁, hl, -, hl₁, hline⟩ := hstepped c x hx
    obtain rfl : l₁ = l' := Option.some.inj (hl₁.symm.trans hc)
    exact hstep x y l l₁ hline (hP l (List.mem_of_getElem? hl))
  | none =>
    rw [hkept c (List.getElem?_eq_none_iff.mp hx)] at hc
    exact hP l' (List.mem_of_getElem? hc)

/-! ### The invariants under each kind of write (R40) -/

theorem State.Inv.stored {s : State} (h : s.Inv) : ∀ l ∈ s.lines, l.Stored :=
  fun l hl => ⟨h.memory_wf l hl, h.memory_depth l hl, h.cursor_depth l hl⟩

theorem State.Configured.ready {s : State} (h : s.Configured) : ∀ l ∈ s.lines, l.Ready s.cap :=
  fun l hl => ⟨h.cursor_lt l hl, h.written l hl⟩

/-- The invariants do not speak of the sticky flags, the response and the ports. -/
theorem State.Inv.withOutside {s : State} (h : s.Inv) (sticky : BitVec 7) (response : Packet)
    (cpIn apIn cpOut apOut : List Packet) (resetIn : ResetInput) (turn : Nat) :
    State.Inv { s with sticky, response, cpIn, apIn, cpOut, apOut, resetIn, turn } :=
  { h with configured := fun he => { h.configured he with } }

theorem State.Inv.withParam {s : State} {p : Params} (h : s.Inv) (hp : p.inRange = true) :
    State.Inv { s with param := p } :=
  { h with param_inRange := hp, configured := fun he => { h.configured he with } }

/-- New lines keep the invariants if they are in order. -/
theorem State.Inv.withLines {s : State} {lines : List Line} (h : s.Inv) (phase : BitVec 32)
    (hlen : lines.length = s.lines.length) (hs : ∀ l ∈ lines, l.Stored)
    (hr : s.eng ≠ .uninit → ∀ l ∈ lines, l.Ready s.cap) : State.Inv { s with phase, lines } :=
  { h with
    lines_length := hlen.trans h.lines_length
    memory_wf := fun l hl => (hs l hl).wf
    memory_depth := fun l hl => (hs l hl).depth
    cursor_depth := fun l hl => (hs l hl).cursor
    configured := fun he =>
      { h.configured he with
        cursor_lt := fun l hl => (hr he l hl).cursor_lt
        written := fun l hl => (hr he l hl).written } }

/-- `REMAIN` may fall. -/
theorem State.Inv.withRemain {s : State} {n : Nat} (h : s.Inv) (hn : n ≤ s.remain) : State.Inv { s with remain := n } :=
  { h with
    uninit := fun he => by
      obtain ⟨hcap, hremain, hfs⟩ := h.uninit he
      exact ⟨hcap, Nat.le_zero.mp (hremain ▸ hn), hfs⟩
    configured := fun he =>
      { h.configured he with remain_le := le_trans (Int.ofNat_le.mpr hn) (h.configured he).remain_le }
    block_open := fun h0 => h.block_open fun e => h0 (Nat.le_zero.mp (e ▸ hn)) }

theorem State.Inv.cap_le_depth {s : State} (h : s.Inv) : s.cap ≤ Config.cfg.bufdepth := by
  by_cases he : s.eng = .uninit
  · rw [(h.uninit he).1]; exact Nat.zero_le _
  · exact (h.configured he).cap_le_depth

/-- RESET, before its answer (R194, R195). -/
theorem State.Inv.clearLines {s : State} (h : s.Inv) : (clearLines s).Inv := by
  refine h.withLines 0 (by simp) ?_ ?_
  · exact List.forall_mem_map.mpr fun l hl => (h.stored l hl).clearLine h.cap_le_depth
  · intro he
    have hcap : 0 < s.cap := Nat.lt_of_lt_of_le (by decide) (h.configured he).two_le_cap
    exact List.forall_mem_map.mpr fun l _ => clearLine_ready l hcap

/-- FRAME, before its answer (R198, R199). -/
theorem State.Inv.frame {s : State} {xs ys : List Word} {phase : BitVec 32} {f : FrameShared} {lines : List Line}
    (h : s.Inv) (hopen : s.remain ≠ 0) (hshared : frameShared Config.cfg s = .ok (phase, f))
    (hlines : stepLines Config.cfg f xs s.lines = .ok (ys, lines)) :
    State.Inv { s with phase := phase, lines := lines, remain := s.remain - 1 } := by
  obtain ⟨-, -, n, -, hf⟩ := frameShared_eq_ok.mp hshared
  have hcap : f.cap = s.cap := by rw [hf]
  have heng : s.eng ≠ .uninit := fun he => hopen (h.uninit he).2.1
  obtain ⟨-, hlen, -⟩ := stepLines_ok hlines
  have hkept : ∀ l ∈ lines, l.Stored ∧ l.Ready f.cap :=
    stepLines_forall hlines (fun l hl => ⟨h.stored l hl, hcap ▸ (h.configured heng).ready l hl⟩)
      fun x y l l' hstep ⟨hs, hr⟩ => stepLine_keeps (hcap ▸ h.cap_le_depth) hstep hs hr
  exact (h.withLines phase hlen (fun l hl => (hkept l hl).1) fun _ l hl => hcap ▸ (hkept l hl).2).withRemain
    (Nat.sub_le _ _)

/-- The arguments BEGIN accepts (R196). -/
theorem badBlock_eq_false {nch : Byte} {ns : Word} {s : State} (h : badBlock Config.cfg nch ns s = false) :
    1 ≤ nch.toNat ∧ nch.toNat ≤ Config.cfg.nch ∧ 0 ≤ s32 ns ∧ s32 ns ≤ s32 s.maxblk := by
  simp only [badBlock, Bool.or_eq_false_iff, decide_eq_false_iff_not] at h
  obtain ⟨⟨⟨h1, h2⟩, h3⟩, h4⟩ := h
  omega

/-- BEGIN, before its answer (R196, R197). -/
theorem State.Inv.blockOpened {s : State} {nch : Byte} {ns : Word} (h : s.Inv) (heng : s.eng ≠ .uninit)
    (hargs : badBlock Config.cfg nch ns s = false) : (blockOpened nch ns s).Inv := by
  obtain ⟨hnch, hle, hns, hmax⟩ := badBlock_eq_false hargs
  exact { h with
    snap_inRange := h.param_inRange
    blkch_le := hle
    uninit := nofun
    configured := fun _ => { h.configured heng with remain_le := (Int.toNat_of_nonneg hns).trans_le hmax }
    block_open := fun _ => ⟨hnch, hle, rfl⟩ }

/-! ### PREPARE -/

/-- The arguments PREPARE accepts (R193): a finite rate of at least `FS_MIN`, and a positive block size. -/
theorem badConfig_eq_false {sr mb : Word} (h : badConfig Config.cfg sr mb = false) :
    isFinite sr = true ∧ fle one sr = true ∧ 1 ≤ s32 mb := by
  simp only [badConfig, cfg_num, cfg_fsMin, binary32_isNaN, binary32_fle, binary32_feq, binary32_flt,
    Bool.or_eq_false_iff, decide_eq_false_iff_not] at h
  obtain ⟨⟨⟨⟨hnan, -⟩, hinf⟩, hmin⟩, hmb⟩ := h
  have hu : units one ≤ units sr := by
    by_contra hlt
    exact Bool.eq_false_iff.mp hmin (flt_iff.mpr ⟨hnan, by decide, not_le.mp hlt⟩)
  refine ⟨isFinite_of_not hnan ?_, fle_iff.mpr ⟨by decide, hnan, hu⟩, by omega⟩
  by_contra hi
  have hsign : signBit sr = false := signBit_of_units_pos (lt_of_lt_of_le (by decide) hu)
  have hmag : magBits sr = infBits := (isInf_iff sr).mp (Bool.not_eq_false _ ▸ hi)
  have hsr : sr = posInf := word_ext (hsign.trans (by decide)) (hmag.trans (by decide))
  rw [hsr] at hinf
  exact absurd hinf (by decide)

/-- At every accepted rate `MAXD` is positive: it is at least that of the rate 1 (R161). -/
theorem units_maxDelaySamples_pos {fs : Word} (hfin : isFinite fs = true) (hmin : fle one fs = true)
    (hmaxd : isFinite (maxDelaySamples Config.cfg fs) = true) : 0 < units (maxDelaySamples Config.cfg fs) := by
  have hm : maxDelaySamples Config.cfg fs = msToSamples 0x42DC0000 fs := rfl
  rw [hm] at hmaxd ⊢
  have hu : units one ≤ units fs := (fle_iff.mp hmin).2.2
  have hsign : signBit fs = false := signBit_of_units_pos (lt_of_lt_of_le (by decide) hu)
  have hprod : isFinite (fmul 0x42DC0000 fs) = true :=
    isFinite_of_isFinite_fdiv_thousand (isNaN_fmul (by decide) hfin) hmaxd
  have hle : magBits (fmul 0x42DC0000 one) ≤ magBits (fmul 0x42DC0000 fs) :=
    magBits_fmul_mono (by decide) (by decide) (by decide) hfin le_rfl
      ((units_le_iff_of_pos (by decide) hsign).mp hu)
  have hpos : 0 < magBits (msToSamples 0x42DC0000 fs) :=
    calc 0 < magBits (msToSamples 0x42DC0000 one) := by decide
      _ ≤ magBits (msToSamples 0x42DC0000 fs) :=
        magBits_fdiv_mono (by decide) (by decide) (by decide) hprod (by decide) (by decide) hle le_rfl
  have hzero : isZero (msToSamples 0x42DC0000 fs) = false := by
    rw [← Bool.not_eq_true, isZero_iff]
    exact hpos.ne'
  rw [units_of_pos (signBit_msToSamples (by decide) hfin hprod (by decide) hsign)]
  exact Int.natCast_pos.mpr (magUnits_pos hzero)

/-- A capacity exists only for a finite `MAXD`, and is its ceiling and the margin (R162). -/
theorem capacityOf_eq_some {maxd : Word} {cap : Nat} (h : capacityOf Config.cfg maxd = some cap) :
    isFinite maxd = true ∧ cap = (-(-units maxd / (unitsPerOne : Int))).toNat + 1 := by
  rw [capacityOf_cfg] at h
  by_cases hf : isFinite maxd = true
  · rw [ceilInt_of_finite hf] at h
    exact ⟨hf, (Option.some.inj h).symm⟩
  · rw [ceilInt, if_neg hf] at h
    cases h

/-- A positive `MAXD` needs a line of two words at least (R29). -/
theorem two_le_capacity {maxd : Word} {cap : Nat} (h : capacityOf Config.cfg maxd = some cap) (hpos : 0 < units maxd) :
    2 ≤ cap := by
  obtain ⟨-, rfl⟩ := capacityOf_eq_some h
  have hfloor : -units maxd / (unitsPerOne : Int) < 0 := Int.ediv_neg_of_neg_of_pos (by omega) (by decide)
  omega

/-- PREPARE, before its answer (R193). -/
theorem State.Inv.prepared {s : State} {sr mb : Word} {cap : Nat} (h : s.Inv) (hclosed : s.remain = 0)
    (hargs : badConfig Config.cfg sr mb = false)
    (hcap : capacityOf Config.cfg (maxDelaySamples Config.cfg sr) = some cap) (hdepth : cap ≤ Config.cfg.bufdepth) :
    (prepared Config.cfg sr mb cap s).Inv := by
  obtain ⟨hfin, hmin, hmb⟩ := badConfig_eq_false hargs
  have htwo : 2 ≤ cap :=
    two_le_capacity hcap (units_maxDelaySamples_pos hfin hmin (capacityOf_eq_some hcap).1)
  have hstored : ∀ l ∈ s.lines.map (clearLine cap), l.Stored :=
    List.forall_mem_map.mpr fun l hl => (h.stored l hl).clearLine hdepth
  have hready : ∀ l ∈ s.lines.map (clearLine cap), l.Ready cap :=
    List.forall_mem_map.mpr fun l _ => clearLine_ready l (by omega)
  exact { h with
    lines_length := (List.length_map _).trans h.lines_length
    memory_wf := fun l hl => (hstored l hl).wf
    memory_depth := fun l hl => (hstored l hl).depth
    cursor_depth := fun l hl => (hstored l hl).cursor
    uninit := nofun
    block_open := fun h0 => absurd hclosed h0
    configured := fun _ =>
      { two_le_cap := htwo
        cap_le_depth := hdepth
        cap_eq := hcap
        excs_eq := rfl
        maxd_eq := rfl
        fsMin_le := hmin
        fs_finite := hfin
        one_le_maxblk := hmb
        remain_le := by rw [prepared_remain, hclosed]; exact le_trans (by decide) hmb
        cursor_lt := fun l hl => (hready l hl).cursor_lt
        written := fun l hl => (hready l hl).written } }

/-! ### The invariants and the sticky flags under a step -/

theorem State.Inv.of_answers {u t : State} (h : u.Inv) (ha : Answers u t) : t.Inv := by
  cases ha <;> exact h.withOutside ..

theorem State.Inv.of_writes {i : Instr} {s u : State} (h : s.Inv) (hw : Writes s i u) : u.Inv := by
  cases hw with
  | nothing => exact h
  | params _ hrange => exact h.withParam (hrange h.param_inRange)
  | configuration hclosed hargs hcap hdepth => exact h.prepared hclosed hargs hcap hdepth
  | history => exact h.clearLines
  | block heng hargs => exact h.blockOpened heng hargs
  | frame hopen hshared hlines => exact h.frame hopen hshared hlines

/-- Setting a flag clears none (`60_exceptions.md` R222, R223). -/
theorem and_setSticky (flags : BitVec 7) (e : ErrCode) : flags &&& setSticky flags e = flags := by
  ext i hi
  rw [setSticky, BitVec.getElem_and, BitVec.getElem_or]
  cases flags[i] <;> rfl

theorem Answers.keeps_sticky {u t : State} (ha : Answers u t) : u.sticky &&& t.sticky = u.sticky := by
  cases ha with
  | ok => exact BitVec.and_self
  | error e => exact and_setSticky u.sticky e

theorem Writes.sticky_eq {i : Instr} {s u : State} (hw : Writes s i u) : u.sticky = s.sticky := by
  cases hw <;> rfl

/-- A packet's execution is a command's writes and answer, or the answer `E_ILLEGAL` (`30_encoding.md` R78). -/
theorem runPacket_keeps {p : Port} {packet : Packet} {s t : State} (h : s.Inv) (hrun : runPacket exec p packet s = .next t) :
    t.Inv ∧ s.sticky &&& t.sticky = s.sticky := by
  obtain ⟨i, -, hexec⟩ | ⟨-, -, rfl⟩ := runPacket_next hrun
  · obtain ⟨u, hw, ha⟩ := exec_next hexec
    exact ⟨(h.of_writes hw).of_answers ha, hw.sticky_eq ▸ ha.keeps_sticky⟩
  · exact ⟨h.of_answers (.error _ _), and_setSticky s.sticky .illegal⟩

theorem takeCommand_keeps {p : Port} {packet : Packet} {s u : State} (h : s.Inv)
    (htake : takeCommand s = some (p, packet, u)) : u.Inv ∧ u.sticky = s.sticky := by
  obtain ⟨-, rest, -, rfl⟩ | ⟨-, rest, -, rfl⟩ := takeCommand_eq_some htake
  · exact ⟨h.withOutside .., rfl⟩
  · exact ⟨h.withOutside .., rfl⟩

theorem State.Inv.deliver {s : State} (h : s.Inv) (p : Port) : (deliver p s).Inv := by
  cases p <;> exact h.withOutside ..

theorem deliver_sticky (p : Port) (s : State) : (deliver p s).sticky = s.sticky := by cases p <;> rfl

theorem hardwareReset_inv (inProgress : Option Port) (s : State) : (hardwareReset Config.cfg inProgress s).Inv :=
  reset_inv.withOutside ..

/-- Settles O58: a step is a hardware reset, an idle turn, or a packet taken, executed and answered. -/
theorem everyStepKeepsTheInvariants : Obligations.EveryStepKeepsTheInvariants := by
  intro s t h hstep
  obtain ⟨inProgress, hreset, rfl⟩ | ⟨-, -, -, rfl⟩ | ⟨-, p, packet, u, v, htake, hrun, rfl⟩ := step_next hstep
  · refine ⟨hardwareReset_inv inProgress s, fun hreleased => ?_⟩
    rw [hreset] at hreleased
    cases hreleased
  · exact ⟨h, fun _ => BitVec.and_self⟩
  · obtain ⟨hu, hsticky⟩ := takeCommand_keeps h htake
    obtain ⟨hv, hkept⟩ := runPacket_keeps hu hrun
    rw [hsticky] at hkept
    exact ⟨hv.deliver p, fun _ => by rw [deliver_sticky, hkept]⟩

end Sys2Proof.Machine
end

section
/-! PROOFS. `20_memory.md`: a packet survives a serialising transport, the tap finds the word written `k` frames ago, a
FRAME does not read the live parameters, and one step serves one packet of one port. -/

namespace Sys2Proof.Machine

/-! ### The serialising transport (R55) -/

theorem packetBytes_cons (w : Word) (rest : Packet) : packetBytes (w :: rest) = wordBytes w ++ packetBytes rest := rfl

theorem packetBytes_singleton (w : Word) : packetBytes [w] = wordBytes w := List.append_nil _

theorem wordBytes_length (w : Word) : (wordBytes w).length = 4 := rfl

/-- The four bytes of a word, the most significant in front, make up the word. -/
theorem append_bytes_eq (w : Word) :
    (w.extractLsb' 24 8 ++ w.extractLsb' 16 8 ++ w.extractLsb' 8 8 ++ w.extractLsb' 0 8 : BitVec 32) = w := by
  rw [BitVec.extractLsb'_append_extractLsb'_eq_extractLsb' (by decide),
    BitVec.extractLsb'_append_extractLsb'_eq_extractLsb' (by decide),
    BitVec.extractLsb'_append_extractLsb'_eq_extractLsb' (by decide)]
  exact BitVec.extractLsb'_eq_self

/-- Reading takes the bytes of one word off the front. -/
theorem packetOfBytes_wordBytes_append {bytes : List Byte} {ws : Packet} (w : Word) (h : packetOfBytes bytes = some ws) :
    packetOfBytes (wordBytes w ++ bytes) = some (w :: ws) := by
  simp only [wordBytes, List.cons_append, List.nil_append, packetOfBytes, h, append_bytes_eq]

theorem packetOfBytes_packetBytes (packet : Packet) : packetOfBytes (packetBytes packet) = some packet := by
  induction packet with
  | nil => rfl
  | cons w rest ih => exact packetOfBytes_wordBytes_append w ih

theorem packetBytes_length (packet : Packet) : (packetBytes packet).length = 4 * packet.length := by
  induction packet with
  | nil => rfl
  | cons w rest ih => rw [packetBytes_cons, List.length_append, wordBytes_length, ih, List.length_cons]; omega

/-- Settles O5. -/
theorem transportRoundTrip : Obligations.TransportRoundTrip := by
  refine ⟨packetBytes_singleton, fun w rest => ?_, fun packet => ?_⟩
  · rw [packetBytes_cons, packetBytes_singleton]
  · exact ⟨packetOfBytes_packetBytes packet, packetBytes_length packet⟩

/-! ### The tap and the cursor (R54) -/

/-- After `k` advances the cursor is `k` words further on, modulo the capacity. -/
theorem iterate_nextCursor {w cap : Nat} (hw : w < cap) (k : Nat) :
    (fun v => nextCursor v cap)^[k] w = (w + k) % cap := by
  induction k with
  | zero => exact (Nat.mod_eq_of_lt hw).symm
  | succ k ih => rw [Function.iterate_succ_apply', ih, nextCursor, Nat.mod_add_mod, Nat.add_assoc]

/-- Stepping `k` back undoes `k` steps forward. -/
theorem tapAddress_add_mod {w cap : Nat} (hw : w < cap) (k : Nat) : tapAddress ((w + k) % cap) k cap = w := by
  have hmod : (((w + k) % cap : Nat) - k : Int) % cap = w := by
    rw [Int.natCast_emod, Int.emod_sub_emod, Nat.cast_add, add_sub_cancel_right]
    exact Int.emod_eq_of_lt (Int.natCast_nonneg w) (Int.ofNat_lt.mpr hw)
  rw [tapAddress, hmod, Int.toNat_natCast]

/-- Settles O25: no bound on the number of advances is needed. -/
theorem tapFindsKthLastWord : Obligations.TapFindsKthLastWord := by
  intro w k cap hw _ _
  rw [iterate_nextCursor hw, tapAddress_add_mod hw]

/-! ### A FRAME and the live parameters (R62) -/

theorem execFrame_closed {s : State} (xs : List Word) (h : s.remain = 0) :
    execFrame xs s = .next (raiseError .state 0 s) := by
  rw [execFrame, frameUnder, if_pos h]

theorem execFrame_badCount {xs : List Word} {s : State} (hopen : s.remain ≠ 0) (hlen : xs.length ≠ s.blkch) :
    execFrame xs s = .next (raiseError .badArg 0 s) := by
  rw [execFrame, frameUnder, if_neg hopen, if_pos hlen]

theorem execFrame_steps {xs ys : List Word} {s : State} {phase : BitVec 32} {f : FrameShared} {lines : List Line}
    (hopen : s.remain ≠ 0) (hlen : xs.length = s.blkch) (hshared : frameShared Config.cfg s = .ok (phase, f))
    (hlines : stepLines Config.cfg f xs s.lines = .ok (ys, lines)) :
    execFrame xs s = .next (respondOk ys { s with phase := phase, lines := lines, remain := s.remain - 1 }) := by
  have hstep := frameStep_eq_ok.mpr ⟨phase, f, lines, hshared, hlines, rfl⟩
  rw [execFrame, frameUnder, if_neg hopen, if_neg (not_not.mpr hlen), hstep]

/-- What the channels share is computed from the snapshot, not from the live parameters (R62, R197). -/
theorem frameShared_withParam (cfg : Config.Cfg) (s : State) (p : Params) :
    frameShared cfg { s with param := p } = frameShared cfg s := rfl

/-- A FRAME is refused, or stepped, in the same way whatever the live parameters are. -/
theorem execFrame_withParam {xs : List Word} {s t : State} (p : Params) (h : execFrame xs s = .next t) :
    execFrame xs { s with param := p } = .next { t with param := p } := by
  obtain ⟨hclosed, rfl⟩ | ⟨hopen, hlen, rfl⟩ | ⟨hopen, hlen, phase, f, ys, lines, hshared, hlines, rfl⟩ :=
    execFrame_next h
  · exact execFrame_closed xs hclosed
  · exact execFrame_badCount hopen hlen
  · exact execFrame_steps hopen hlen ((frameShared_withParam Config.cfg s p).trans hshared) hlines

/-- Settles O44: `execFrame_withParam`, and FRAME is no writer of PARAM and SNAP. -/
theorem openBlockIgnoresLiveParameters : Obligations.OpenBlockIgnoresLiveParameters := by
  intro s t xs p h
  obtain ⟨hparam, hsnap, -⟩ := writersOfEachPieceOfState (.frame xs) s t h
  obtain ⟨hsnap, -⟩ := hsnap (by simp [Instr.opcode])
  exact ⟨execFrame_withParam p h, hparam (by simp [Instr.opcode]), hsnap⟩

/-! ### One packet, one response, one port (R60, R61) -/

/-- The queues and the responses of both ports are as they were. -/
def SamePorts (s t : State) : Prop := t.cpIn = s.cpIn ∧ t.apIn = s.apIn ∧ t.cpOut = s.cpOut ∧ t.apOut = s.apOut

theorem Answers.response_ne_nil {u t : State} (h : Answers u t) : t.response ≠ [] := by
  cases h <;> exact List.cons_ne_nil _ _

theorem exec_samePorts {i : Instr} {s t : State} (h : exec i s = .next t) : SamePorts s t := by
  obtain ⟨-, -, -, -, -, -, hcpIn, hapIn, hcpOut, hapOut, -, -⟩ := writersOfEachPieceOfState i s t h
  exact ⟨hcpIn, hapIn, hcpOut, hapOut⟩

/-- Executing a packet leaves a response to deliver and does not touch the ports (R84). -/
theorem runPacket_answers {p : Port} {packet : Packet} {s t : State} (h : runPacket exec p packet s = .next t) :
    t.response ≠ [] ∧ SamePorts s t := by
  obtain ⟨i, -, hexec⟩ | ⟨-, -, rfl⟩ := runPacket_next h
  · obtain ⟨u, -, ha⟩ := exec_next hexec
    exact ⟨ha.response_ne_nil, exec_samePorts hexec⟩
  · exact ⟨(Answers.error (u := s) .illegal 0).response_ne_nil, rfl, rfl, rfl, rfl⟩

/-- Settles O53: of the three things a step can be, only the serving of a packet is left. -/
theorem oneResponseOnTheCommandsPort : Obligations.OneResponseOnTheCommandsPort := by
  intro s t hreleased hwaiting hstep
  obtain ⟨inProgress, hreset, -⟩ | ⟨-, hcp, hap, -⟩ | ⟨-, p, packet, u, v, htake, hrun, rfl⟩ := step_next hstep
  · rw [hreleased] at hreset
    cases hreset
  · exact (hwaiting.elim (· hcp) (· hap)).elim
  · obtain ⟨hresponse, hcpIn, hapIn, hcpOut, hapOut⟩ := runPacket_answers hrun
    refine ⟨v.response, hresponse, ?_⟩
    obtain ⟨rfl, rest, hqueue, rfl⟩ | ⟨rfl, rest, hqueue, rfl⟩ := takeCommand_eq_some htake
    · exact .inl ⟨packet, by simp [hqueue, hcpIn], by simp [hcpOut], by simp [hapIn], by simp [hapOut]⟩
    · exact .inr ⟨packet, by simp [hqueue, hapIn], by simp [hapOut], by simp [hcpIn], by simp [hcpOut]⟩

/-! ### A step as the served command (R60, R78) -/

/-- CP is served when AP is empty or the interleaving picks CP. -/
theorem takeCommand_cp {s : State} {packet : Packet} {rest : List Packet} (hqueue : s.cpIn = packet :: rest)
    (hturn : s.apIn = [] ∨ Config.arbiter s.turn = .cp) :
    takeCommand s = some (.cp, packet, { s with cpIn := rest, turn := s.turn + 1 }) := by
  unfold takeCommand
  cases hother : s.apIn with
  | nil => simp only [hqueue]
  | cons a as =>
    have hpick := hturn.resolve_left (hother ▸ List.cons_ne_nil a as)
    simp only [hqueue, hpick]

/-- AP is served when CP is empty or the interleaving picks AP. -/
theorem takeCommand_ap {s : State} {packet : Packet} {rest : List Packet} (hqueue : s.apIn = packet :: rest)
    (hturn : s.cpIn = [] ∨ Config.arbiter s.turn = .ap) :
    takeCommand s = some (.ap, packet, { s with apIn := rest, turn := s.turn + 1 }) := by
  unfold takeCommand
  cases hother : s.cpIn with
  | nil => simp only [hqueue]
  | cons c cs =>
    have hpick := hturn.resolve_left (hother ▸ List.cons_ne_nil c cs)
    simp only [hqueue, hpick]

/-- The outcome of a command with its response delivered on the command's port. -/
def deliverOutcome (p : Port) : StepOutcome → StepOutcome
  | .next t => .next (deliver p t)
  | .fault f => .fault f
  | .refused r => .refused r

section
variable {s u : State} {p : Port} {packet : Packet} (hreleased : s.resetIn = .released)
  (htake : takeCommand s = some (p, packet, u))
include hreleased htake

/-- With no reset requested, a step executes the packet it takes. -/
theorem step_of_takeCommand : step s = deliverOutcome p (runPacket exec p packet u) := by
  simp only [step, stepWith, hreleased, serveNext, htake]
  cases runPacket exec p packet u <;> rfl

theorem step_of_decode_ok {i : Instr} (hdecode : decode p packet = .ok i) : step s = deliverOutcome p (exec i u) := by
  rw [step_of_takeCommand hreleased htake, runPacket, hdecode]

theorem step_of_decode_error {e : Illegal} (hdecode : decode p packet = .error e) :
    step s = .next (deliver p (raiseError .illegal 0 u)) := by
  rw [step_of_takeCommand hreleased htake, runPacket, hdecode, deliverOutcome]

end

/-- Settles O52: on either port, the packet taken either decodes or does not. -/
theorem stepRunsDecodedCommand : Obligations.StepRunsDecodedCommand := by
  intro s packet rest hreleased
  constructor
  · intro hqueue hturn
    have htake := takeCommand_cp hqueue hturn
    exact ⟨fun i hdecode => step_of_decode_ok hreleased htake hdecode,
      fun e hdecode => step_of_decode_error hreleased htake hdecode⟩
  · intro hqueue hturn
    have htake := takeCommand_ap hqueue hturn
    exact ⟨fun i hdecode => step_of_decode_ok hreleased htake hdecode,
      fun e hdecode => step_of_decode_error hreleased htake hdecode⟩

end Sys2Proof.Machine
end

section
/-! PROOFS. `30_encoding.md`: the decoder and the encoder are inverse, the six checks of an illegal packet, the expansion
of PROCESS, the form of every response, and the refusals of FRAME. `LegalPacket` says that a packet passes the checks of
R78: a packet that decodes is legal (`legal_of_decode_ok`), so is a command's encoding (`legal_encode`), and a legal packet
decodes to the command of its parts (`decode_of_legal`). -/

namespace Sys2Proof.Machine
open Laws.TableRow (headerWord_toNat argField_headerWord)

/-! ### Three fields in one word (R72, R84) -/

section
variable (mid low : Byte)

theorem extract_low_field : ((0 : BitVec 16) ++ mid ++ low).extractLsb' 0 8 = low := BitVec.extractLsb'_append_eq_right

theorem extract_middle_field : ((0 : BitVec 16) ++ mid ++ low).extractLsb' 8 8 = mid :=
  (BitVec.extractLsb'_append_eq_of_le le_rfl).trans BitVec.extractLsb'_append_eq_right

theorem extract_high_field : ((0 : BitVec 16) ++ mid ++ low).extractLsb' 16 16 = 0 :=
  (BitVec.extractLsb'_append_eq_of_le (by decide)).trans BitVec.extractLsb'_append_eq_left

end

@[simp] theorem opcField_headerWord (o : Opcode) (arg : Byte) : opcField (headerWord o arg) = o.byte :=
  extract_low_field arg o.byte

@[simp] theorem rsvField_headerWord (o : Opcode) (arg : Byte) : rsvField (headerWord o arg) = 0 :=
  extract_high_field arg o.byte

/-- A header is put together from its three fields. -/
theorem append_fields_eq (h : Word) : (rsvField h ++ argField h ++ opcField h : BitVec 32) = h := by
  rw [rsvField, argField, opcField, BitVec.extractLsb'_append_extractLsb'_eq_extractLsb' (by decide),
    BitVec.extractLsb'_append_extractLsb'_eq_extractLsb' (by decide)]
  exact BitVec.extractLsb'_eq_self

theorem headerWord_of_fields {h : Word} {o : Opcode} (hrsv : rsvField h = 0) (hopc : opcField h = o.byte) :
    headerWord o (argField h) = h := by
  rw [headerWord, ← hrsv, ← hopc, append_fields_eq]

/-! ### The opcodes (R70) -/

@[simp] theorem opcodeOfByte_byte (o : Opcode) : opcodeOfByte o.byte = some o := by cases o <;> rfl

theorem byte_of_opcodeOfByte {b : Byte} {o : Opcode} (h : opcodeOfByte b = some o) : b = o.byte := by
  unfold opcodeOfByte at h
  (repeat' split at h) <;> cases h <;> assumption

theorem opcodeOfByte_reserved {b : Byte}
    (h : b ∉ [0x00#8, 0x01#8, 0x02#8, 0x03#8, 0x04#8, 0x05#8, 0x06#8, 0x07#8, 0x10#8, 0x11#8]) :
    opcodeOfByte b = none := by
  simp only [List.mem_cons, List.not_mem_nil, or_false, not_or] at h
  simp [opcodeOfByte, h]

/-- The commands whose ARG must be 0, as R78 (f) lists them. -/
theorem argMustBeZero_iff (o : Opcode) : o.argMustBeZero = true ↔ o ∈ [.nop, .prepare, .reset, .getst, .stat] := by
  cases o <;> decide

/-! ### The checks of the decoder (R78) -/

/-- The packet `h :: ops` passes the checks of R78 on port `p` as one of opcode `o`. -/
structure LegalPacket (p : Port) (o : Opcode) (h : Word) (ops : List Word) : Prop where
  reserved : rsvField h = 0
  opcode : opcField h = o.byte
  port : p ∈ o.homePorts
  count : ops.length = o.nops (argField h)
  argument : o.argMustBeZero = true → argField h = 0

section
variable {p : Port} {o : Opcode} {h : Word} {ops : List Word}

theorem decode_reservedHeaderBits (hrsv : rsvField h ≠ 0) : decode p (h :: ops) = .error .reservedHeaderBits :=
  if_pos hrsv

theorem decode_reservedOpcode (hrsv : rsvField h = 0) (hopc : opcodeOfByte (opcField h) = none) :
    decode p (h :: ops) = .error .reservedOpcode := by
  simp [decode, hrsv, hopc]

theorem decode_wrongPort (hrsv : rsvField h = 0) (hopc : opcField h = o.byte) (hport : p ∉ o.homePorts) :
    decode p (h :: ops) = .error .wrongPort := by
  simp [decode, hrsv, hopc, hport]

theorem decode_operandCount (hrsv : rsvField h = 0) (hopc : opcField h = o.byte) (hport : p ∈ o.homePorts)
    (hcount : ops.length ≠ o.nops (argField h)) : decode p (h :: ops) = .error .operandCount := by
  simp [decode, hrsv, hopc, hport, hcount]

theorem decode_argumentNotZero (hrsv : rsvField h = 0) (hopc : opcField h = o.byte) (hport : p ∈ o.homePorts)
    (hcount : ops.length = o.nops (argField h)) (hzero : o.argMustBeZero = true) (harg : argField h ≠ 0) :
    decode p (h :: ops) = .error .argumentNotZero := by
  simp only [decode, hrsv, hopc, opcodeOfByte_byte, hport, hcount, hzero, harg, ne_eq, not_true, not_false_eq_true,
    and_self, ↓reduceIte]

theorem decode_eq_assemble (hl : LegalPacket p o h ops) : decode p (h :: ops) = assemble o (argField h) ops := by
  have harg : ¬ (o.argMustBeZero = true ∧ argField h ≠ 0) := fun ⟨hzero, hne⟩ => hne (hl.argument hzero)
  simp only [decode, hl.reserved, hl.opcode, opcodeOfByte_byte, hl.port, hl.count, harg, ne_eq, not_true, ↓reduceIte]

end

/-- A packet that decodes has passed every check. -/
theorem legal_of_decode_ok {p : Port} {packet : Packet} {i : Instr} (hdecode : decode p packet = .ok i) :
    ∃ h ops o, packet = h :: ops ∧ LegalPacket p o h ops := by
  cases packet with
  | nil => cases hdecode
  | cons h ops =>
    have hrsv : rsvField h = 0 := by_contra fun hne => nomatch hdecode.symm.trans (decode_reservedHeaderBits hne)
    cases ho : opcodeOfByte (opcField h) with
    | none => cases hdecode.symm.trans (decode_reservedOpcode hrsv ho)
    | some o =>
      have hopc := byte_of_opcodeOfByte ho
      have hport : p ∈ o.homePorts := by_contra fun hne => nomatch hdecode.symm.trans (decode_wrongPort hrsv hopc hne)
      have hcount : ops.length = o.nops (argField h) := by_contra fun hne =>
        nomatch hdecode.symm.trans (decode_operandCount hrsv hopc hport hne)
      have harg : o.argMustBeZero = true → argField h = 0 := fun hzero => by_contra fun hne =>
        nomatch hdecode.symm.trans (decode_argumentNotZero hrsv hopc hport hcount hzero hne)
      exact ⟨h, ops, o, rfl, hrsv, hopc, hport, hcount, harg⟩

/-! ### A command and its parts (R73, R74) -/

theorem assemble_parts_self (i : Instr) : assemble i.opcode i.arg i.operands = .ok i := by cases i <;> rfl

/-- As many operand words as R73 asks for, with ARG 0 where R74 asks for it, are the parts of a command. -/
theorem assemble_of_count {o : Opcode} {arg : Byte} {ops : List Word} (hcount : ops.length = o.nops arg)
    (hzero : o.argMustBeZero = true → arg = 0) :
    ∃ i, assemble o arg ops = .ok i ∧ i.opcode = o ∧ i.arg = arg ∧ i.operands = ops := by
  cases o
  case nop | reset | getst | stat =>
    obtain rfl := List.length_eq_zero_iff.mp hcount
    exact ⟨_, rfl, rfl, (hzero rfl).symm, rfl⟩
  case getp =>
    obtain rfl := List.length_eq_zero_iff.mp hcount
    exact ⟨_, rfl, rfl, rfl, rfl⟩
  case setp | begin =>
    obtain ⟨v, rfl⟩ := List.length_eq_one_iff.mp hcount
    exact ⟨_, rfl, rfl, rfl, rfl⟩
  case prepare =>
    obtain ⟨sr, mb, rfl⟩ := List.length_eq_two.mp hcount
    exact ⟨_, rfl, rfl, (hzero rfl).symm, rfl⟩
  case setst =>
    match ops, hcount with
    | [_, _, _, _, _], _ => exact ⟨_, rfl, rfl, rfl, rfl⟩
  case frame =>
    have harg : BitVec.ofNat 8 ops.length = arg := by simp [hcount, Opcode.nops]
    exact ⟨.frame ops, rfl, rfl, harg, rfl⟩

theorem arg_eq_zero_of_argMustBeZero {i : Instr} (h : i.opcode.argMustBeZero = true) : i.arg = 0 := by
  cases i
  case nop | prepare | reset | getst | stat => rfl
  all_goals cases h

/-- A command has an encoding exactly when its ARG gives the number of its operand words. -/
theorem instr_wf_iff (i : Instr) : i.wf = true ↔ i.operands.length = i.opcode.nops i.arg := by
  cases i with
  | frame xs =>
    have hmod : (BitVec.ofNat 8 xs.length).toNat = xs.length % 2 ^ 8 := BitVec.toNat_ofNat ..
    simp only [Instr.wf, sampleCountFits, Instr.operands, Instr.opcode, Opcode.nops, Instr.arg, hmod, decide_eq_true_eq]
    omega
  | _ => exact iff_of_true rfl rfl

/-! ### Encoding and decoding (R81) -/

/-- A legal packet decodes to the command of its opcode, its ARG and its operand words. -/
theorem decode_of_legal {p : Port} {o : Opcode} {h : Word} {ops : List Word} (hl : LegalPacket p o h ops) :
    ∃ i, decode p (h :: ops) = .ok i ∧ i.opcode = o ∧ i.arg = argField h ∧ i.operands = ops := by
  rw [decode_eq_assemble hl]
  exact assemble_of_count hl.count hl.argument

theorem legal_encode {i : Instr} {p : Port} (hwf : i.wf = true) (hport : p ∈ i.opcode.homePorts) :
    LegalPacket p i.opcode (headerWord i.opcode i.arg) i.operands where
  reserved := rsvField_headerWord ..
  opcode := opcField_headerWord ..
  port := hport
  count := by rw [argField_headerWord, (instr_wf_iff i).mp hwf]
  argument := fun hzero => by rw [argField_headerWord, arg_eq_zero_of_argMustBeZero hzero]

theorem decode_encode {i : Instr} {p : Port} (hwf : i.wf = true) (hport : p ∈ i.opcode.homePorts) :
    decode p (encode i) = .ok i := by
  rw [encode, decode_eq_assemble (legal_encode hwf hport), argField_headerWord, assemble_parts_self]

theorem encode_of_decode {i : Instr} {p : Port} {packet : Packet} (hdecode : decode p packet = .ok i) :
    encode i = packet ∧ i.wf = true := by
  obtain ⟨h, ops, o, rfl, hl⟩ := legal_of_decode_ok hdecode
  obtain ⟨j, hj, rfl, harg, rfl⟩ := decode_of_legal hl
  cases hdecode.symm.trans hj
  constructor
  · rw [encode, harg, headerWord_of_fields hl.reserved hl.opcode]
  · rw [instr_wf_iff, harg, hl.count]

/-- Settles O2: `decode_encode`, `encode_of_decode` and the header as a number. -/
theorem decodeEncodeRoundTrip : Obligations.DecodeEncodeRoundTrip :=
  ⟨fun _ _ => decode_encode, fun _ _ _ => encode_of_decode, fun _ => ⟨_, rfl, headerWord_toNat _ _⟩⟩

/-- Settles O4: the decoder run on each of the ten packets. -/
theorem writtenOutPacketsDecode : Obligations.WrittenOutPacketsDecode :=
  ⟨by decide, by decide, by decide, by decide, by decide, by decide, by decide, by decide, by decide, by decide⟩

/-! ### Illegal packets (R78) -/

theorem runPacket_of_decode_error {p : Port} {packet : Packet} {e : Illegal} (hdecode : decode p packet = .error e)
    (s : State) : runPacket exec p packet s = .next (raiseError .illegal 0 s) := by
  rw [runPacket, hdecode]

/-- Settles O3: one lemma per check, `decode_of_legal` for a packet that passes them all. -/
theorem illegalPacketChecks : Obligations.IllegalPacketChecks := by
  refine ⟨fun p => rfl, fun p h ops => ⟨decode_reservedHeaderBits, fun hrsv => ⟨fun hbyte => ?_, fun o hopc =>
    ⟨decode_wrongPort hrsv hopc, fun hport => ⟨decode_operandCount hrsv hopc hport, fun hcount =>
      ⟨fun hmem => ?_, fun harg => ?_⟩⟩⟩⟩⟩, fun p packet s e hdecode => runPacket_of_decode_error hdecode s⟩
  · exact decode_reservedOpcode hrsv (opcodeOfByte_reserved hbyte)
  · exact decode_argumentNotZero hrsv hopc hport hcount ((argMustBeZero_iff o).mpr hmem)
  · have hl : LegalPacket p o h ops := ⟨hrsv, hopc, hport, hcount, fun hzero => harg ((argMustBeZero_iff o).mp hzero)⟩
    obtain ⟨i, hi, hopcode, -, -⟩ := decode_of_legal hl
    exact ⟨i, hi, hopcode⟩

/-! ### PROCESS (R88) -/

/-- The frames of a block cut its samples into pieces of `nch`. -/
theorem blockFrames_eq_map {nch n : Nat} {samples : List Word} (h : samples.length = nch * n) :
    ∃ frames : List (List Word), blockFrames nch n samples = frames.map Instr.frame ∧
      frames.length = n ∧ (∀ f ∈ frames, f.length = nch) ∧ frames.flatten = samples := by
  induction n generalizing samples with
  | zero => exact ⟨[], rfl, rfl, by simp, (List.length_eq_zero_iff.mp h).symm⟩
  | succ n ih =>
    rw [Nat.mul_succ] at h
    obtain ⟨frames, hmap, hcount, hlen, hflat⟩ := ih (samples := samples.drop nch) (by rw [List.length_drop]; omega)
    have hfirst : (samples.take nch).length = nch := List.length_take_of_le (by omega)
    refine ⟨samples.take nch :: frames, ?_, ?_, ?_, ?_⟩
    · rw [blockFrames, hmap, List.map_cons]
    · rw [List.length_cons, hcount]
    · exact List.forall_mem_cons.mpr ⟨hfirst, hlen⟩
    · rw [List.flatten_cons, hflat, List.take_append_drop]

/-- Settles O6: `blockFrames_eq_map`, by induction on the number of frames, behind the BEGIN. -/
theorem processExpandsToBlock : Obligations.ProcessExpandsToBlock := by
  intro nch n samples hlen hn
  obtain ⟨frames, hmap, hframes⟩ := blockFrames_eq_map hlen
  exact ⟨frames, by rw [pseudoProcess, if_pos ⟨hlen, hn⟩, hmap], hframes⟩

/-! ### Responses (R84 to R86) -/

/-- The data words of a command's success, by R86, on the state before the command. -/
inductive SuccessData (s : State) : Instr → List Word → Prop where
  | noData {i : Instr} (hop : i.opcode ∈ [.nop, .prepare, .reset, .setp, .setst, .begin]) : SuccessData s i []
  | getp {id : Byte} {q : ParamId} (hid : id.toNat = q.num) : SuccessData s (.getp id) [s.param.get q]
  | getst : SuccessData s .getst [s.param.rate, s.param.depth, s.param.delay, s.param.feedback, s.param.mix]
  | stat : SuccessData s .stat [statusRegister s]
  | frame {xs ys : List Word} (hlen : ys.length = xs.length) : SuccessData s (.frame xs) ys

/-- The response of a command: OK with its data words, an error without INFO, or SETST's mask of failed keys. -/
inductive Responds (s : State) (i : Instr) : Packet → Prop where
  | ok {data : List Word} (h : SuccessData s i data) : Responds s i (okWord :: data)
  | error (e : ErrCode) : Responds s i (errorResponse e 0)
  | malformed (failed : Byte) (hop : i.opcode = .setst) : Responds s i (errorResponse .malformed failed)

theorem execGetp_responds {id : Byte} {s t : State} (h : execGetp id s = .next t) :
    Responds s (.getp id) t.response := by
  unfold execGetp at h
  split at h <;> cases h
  · exact .error _
  · exact .ok (.getp (paramOfId_eq_some.mp ‹_›))

theorem execSetst_responds {mask : Byte} {v0 v1 v2 v3 v4 : Word} {s t : State}
    (h : execSetst mask v0 v1 v2 v3 v4 s = .next t) : Responds s (.setst mask v0 v1 v2 v3 v4) t.response := by
  unfold execSetst setstUnder finishSetst at h
  split at h <;> cases h
  · exact .malformed _ rfl
  · exact .ok (.noData (by simp [Instr.opcode]))

theorem exec_responds {i : Instr} {s t : State} (h : exec i s = .next t) : Responds s i t.response := by
  cases i with
  | nop => cases h; exact .ok (.noData (by simp [Instr.opcode]))
  | stat => cases h; exact .ok .stat
  | getst => cases h; exact .ok .getst
  | getp id => exact execGetp_responds h
  | setst mask v0 v1 v2 v3 v4 => exact execSetst_responds h
  | setp id v =>
    obtain ⟨e, rfl⟩ | ⟨q, -, rfl⟩ := execSetp_next h
    · exact .error _
    · exact .ok (.noData (by simp [Instr.opcode]))
  | prepare sr mb =>
    obtain ⟨-, e⟩ | ⟨-, e⟩ | ⟨-, -, cap, -, -, e⟩ := execPrepare_next sr mb s <;> cases e.symm.trans h
    · exact .error _
    · exact .error _
    · exact .ok (.noData (by simp [Instr.opcode]))
  | reset =>
    obtain ⟨-, e⟩ | ⟨-, e⟩ := execReset_next s <;> cases e.symm.trans h
    · exact .error _
    · exact .ok (.noData (by simp [Instr.opcode]))
  | begin nch ns =>
    obtain ⟨-, e⟩ | ⟨-, -, e⟩ | ⟨-, -, -, e⟩ | ⟨-, -, -, e⟩ := execBegin_next nch ns s <;> cases e.symm.trans h
    · exact .error _
    · exact .error _
    · exact .error _
    · exact .ok (.noData (by simp [Instr.opcode]))
  | frame xs =>
    obtain ⟨-, rfl⟩ | ⟨-, -, rfl⟩ | ⟨-, -, phase, f, ys, lines, -, hlines, rfl⟩ := execFrame_next h
    · exact .error _
    · exact .error _
    · exact .ok (.frame (stepLines_ok hlines).1)

/-- The number of an error code is not the 0 of OK, and fits the field. -/
theorem errCode_byte (e : ErrCode) : BitVec.ofNat 8 e.num ≠ 0 ∧ (BitVec.ofNat 8 e.num).toNat ≤ 7 := by
  cases e <;> decide

/-- The clauses of R86, read off the kinds of data. -/
theorem SuccessData.clauses {s : State} {i : Instr} {data : List Word} (h : SuccessData s i data) :
    (i.opcode ∈ [.nop, .prepare, .reset, .setp, .setst, .begin] → data = []) ∧
    (∀ id, i = .getp id → ∃ q : ParamId, id.toNat = q.num ∧ data = [s.param.get q]) ∧
    (i = .getst → data = [s.param.rate, s.param.depth, s.param.delay, s.param.feedback, s.param.mix]) ∧
    (i = .stat → data = [statusRegister s]) ∧
    (∀ xs, i = .frame xs → data.length = xs.length) := by
  cases h with
  | noData hop =>
    refine ⟨fun _ => rfl, ?_, ?_, ?_, ?_⟩
    · rintro id rfl; simp [Instr.opcode] at hop
    · rintro rfl; simp [Instr.opcode] at hop
    · rintro rfl; simp [Instr.opcode] at hop
    · rintro xs rfl; simp [Instr.opcode] at hop
  | getp hid =>
    refine ⟨by simp [Instr.opcode], ?_, nofun, nofun, nofun⟩
    rintro _ ⟨⟩
    exact ⟨_, hid, rfl⟩
  | getst => simp [Instr.opcode]
  | stat => simp [Instr.opcode]
  | frame hlen => simp [Instr.opcode, hlen]

/-- A packet is answered with its command's success, or with an error whose INFO is not 0 only for SETST. -/
theorem runPacket_responds {p : Port} {packet : Packet} {s t : State} (h : runPacket exec p packet s = .next t) :
    (∃ i data, decode p packet = .ok i ∧ SuccessData s i data ∧ t.response = okWord :: data) ∨
    (∃ e info, t.response = errorResponse e info ∧
      (info ≠ 0 → e = .malformed ∧ ∃ i, decode p packet = .ok i ∧ i.opcode = .setst)) := by
  obtain ⟨i, hdecode, hexec⟩ | ⟨-, -, rfl⟩ := runPacket_next h
  · have hresponds := exec_responds hexec
    generalize t.response = r at hresponds ⊢
    cases hresponds with
    | ok hdata => exact .inl ⟨i, _, hdecode, hdata, rfl⟩
    | error e => exact .inr ⟨e, 0, rfl, fun hinfo => absurd rfl hinfo⟩
    | malformed failed hop => exact .inr ⟨_, failed, rfl, fun _ => ⟨rfl, i, hdecode, hop⟩⟩
  · exact .inr ⟨.illegal, 0, rfl, fun hinfo => absurd rfl hinfo⟩

/-- Settles O51: the fields of the status word of a success and of an error. -/
theorem responsesHaveTheirForm : Obligations.ResponsesHaveTheirForm := by
  intro p packet s t hrun
  obtain ⟨i, data, hdecode, hdata, hresponse⟩ | ⟨e, info, hresponse, hsetst⟩ := runPacket_responds hrun
  · have hcode : okWord.extractLsb' 0 8 = 0 := extract_low_field 0 0
    have hinfo : okWord.extractLsb' 8 8 = 0 := extract_middle_field 0 0
    exact ⟨okWord, data, hresponse, extract_high_field 0 0, by rw [hcode]; decide, (absurd hcode ·),
      (absurd hinfo ·), fun _ => ⟨i, hdecode, hdata.clauses⟩⟩
  · obtain ⟨hne, hle⟩ := errCode_byte e
    have hcode : (statusWord (BitVec.ofNat 8 e.num) info).extractLsb' 0 8 = BitVec.ofNat 8 e.num := extract_low_field ..
    refine ⟨_, [], hresponse, extract_high_field .., by rwa [hcode], fun _ => rfl, fun hinfo => ?_,
      fun hok => absurd (hcode.symm.trans hok) hne⟩
    obtain ⟨rfl, hi⟩ := hsetst (extract_middle_field info _ ▸ hinfo)
    exact ⟨hcode, hi⟩

/-! ### FRAME's encoding and its refusals (R77, R198) -/

theorem encode_frame {xs : List Word} (h : xs.length ≤ 255) :
    encode (.frame xs) = BitVec.ofNat 32 (0x11 + xs.length * 2 ^ 8) :: xs := by
  have hheader : headerWord .frame (BitVec.ofNat 8 xs.length) = BitVec.ofNat 32 (0x11 + xs.length * 2 ^ 8) := by
    apply BitVec.eq_of_toNat_eq
    rw [headerWord_toNat, BitVec.toNat_ofNat, BitVec.toNat_ofNat]
    show _ + 0x11 = _
    omega
  rw [← hheader]
  rfl

theorem decode_frame_cp (xs : List Word) : decode .cp (encode (.frame xs)) = .error .wrongPort :=
  decode_wrongPort (rsvField_headerWord ..) (opcField_headerWord ..) (by simp [Instr.opcode, Opcode.homePorts])

/-- Settles O39: the only home port of FRAME is AP, and each refusal is the error's flag and status word. -/
theorem frameRefusals : Obligations.FrameRefusals := by
  refine ⟨fun xs hlen => ⟨encode_frame hlen, fun p => ?_, runPacket_of_decode_error (decode_frame_cp xs)⟩,
    fun xs s => ⟨execFrame_closed xs, execFrame_badCount⟩⟩
  cases p with
  | cp => simp [decode_frame_cp]
  | ap => exact iff_of_true (decode_encode (decide_eq_true hlen) (List.mem_singleton_self _)) rfl

end Sys2Proof.Machine
end

section
/-! PROOFS. `40_numerics.md`: the format, rounding, the four operations, the comparisons and what is composed of them.
All of R101 is read off `lt_roundRaw_iff`: a value rounds to above a pattern exactly if it lies beyond the middle between
that pattern's magnitude and the next, or on it where the pattern is odd. -/

namespace Sys2Proof.Machine

/-! ### Words by their fields (R100) -/

theorem expField_eq_toNat (w : Word) : expField w = w.toNat / 2 ^ 23 % 2 ^ 8 := by
  rw [expField, BitVec.extractLsb'_toNat, Nat.shiftRight_eq_div_pow]

theorem fracField_eq_toNat (w : Word) : fracField w = w.toNat % 2 ^ 23 := by
  rw [fracField, BitVec.extractLsb'_toNat, Nat.shiftRight_zero]

theorem eq_packSign_of_magBits {w : Word} {m : Nat} (h : magBits w = m) : w = packSign (signBit w) m := by
  rw [← h, packSign_self]

theorem isZero_packSign_zero (negative : Bool) : isZero (packSign negative 0) = true := by cases negative <;> decide

theorem isInf_packSign_inf (negative : Bool) : isInf (packSign negative 0x7F800000) = true := by
  cases negative <;> decide

theorem eq_packSign_of_isZero {w : Word} (h : isZero w = true) : w = packSign (signBit w) 0 :=
  eq_packSign_of_magBits ((isZero_iff w).mp h)

theorem eq_packSign_of_isInf {w : Word} (h : isInf w = true) : w = packSign (signBit w) 0x7F800000 :=
  eq_packSign_of_magBits ((isInf_iff w).mp h)

theorem isZero_iff_eq (w : Word) : isZero w = true ↔ w = posZero ∨ w = negZero := by
  constructor
  · intro h
    rw [eq_packSign_of_isZero h]
    cases signBit w <;> decide
  · rintro (rfl | rfl) <;> decide

theorem isInf_iff_eq (w : Word) : isInf w = true ↔ w = posInf ∨ w = negInf := by
  constructor
  · intro h
    rw [eq_packSign_of_isInf h]
    cases signBit w <;> decide
  · rintro (rfl | rfl) <;> decide

theorem eq_negZero_iff (w : Word) : w = negZero ↔ isZero w = true ∧ signBit w = true := by
  constructor
  · rintro rfl
    decide
  · rintro ⟨hz, hs⟩
    rw [eq_packSign_of_isZero hz, hs]
    decide

theorem isNaN_of_isInf {w : Word} (h : isInf w = true) : isNaN w = false := by
  rw [isNaN_eq_false_iff, (isInf_iff w).mp h]

theorem isFinite_of_isZero {w : Word} (h : isZero w = true) : isFinite w = true := by
  rw [isFinite_iff, (isZero_iff w).mp h]
  decide

theorem isZero_of_isInf {w : Word} (h : isInf w = true) : isZero w = false := by
  rw [← Bool.not_eq_true, isZero_iff, (isInf_iff w).mp h]
  decide

/-- Doubling clears the `- 1` of the exponent in the value of a normal word. -/
theorem magUnits_mul_two {w : Word} (h : 1 ≤ expField w) : magUnits w * 2 = (2 ^ 23 + fracField w) * 2 ^ expField w := by
  rw [magUnits, if_neg (by omega), Nat.mul_assoc, ← Nat.pow_succ, Nat.succ_eq_add_one, Nat.sub_add_cancel h]

/-- Settles O7: each clause is the definition's own, the fields read as quotient and remainder of the pattern. -/
theorem floatFormat : Obligations.FloatFormat := by
  intro w
  rw [← expField_eq_toNat, ← fracField_eq_toNat]
  refine ⟨rfl, by simp [isNaN], isInf_iff_eq w, isZero_iff_eq w, by simp [isFinite], fun h => if_pos h,
    fun h _ => magUnits_mul_two h, ?_⟩
  change units w = (if signBit w then -1 else 1) * (magUnits w : Int)
  cases hs : signBit w
  · rw [units_of_pos hs]; simp
  · rw [units_of_neg hs]; simp

/-! ### Comparisons (R107) -/

/-- The magnitude formula puts the infinities beyond every finite value. -/
theorem magUnits_lt_inf {x : Word} (h : isFinite x = true) : magUnits x < magUnits posInf := by
  rw [magUnits_eq, magUnits_eq, magOfBits_lt_iff]
  exact (isFinite_iff x).mp h

theorem units_between_infinities {x : Word} (h : isFinite x = true) : units negInf < units x ∧ units x < units posInf := by
  have hlt := magUnits_lt_inf h
  rw [units_of_neg (show signBit negInf = true by decide), units_of_pos (show signBit posInf = false by decide),
    show magUnits negInf = magUnits posInf by decide]
  unfold units
  split <;> omega

theorem comparisons_of_isNaN {a b : Word} (h : isNaN a = true ∨ isNaN b = true) :
    flt a b = false ∧ fle a b = false ∧ fgt a b = false ∧ fge a b = false ∧ feq a b = false := by
  rcases h with h | h <;> simp [flt, fle, fgt, fge, feq, h]

/-- Settles O8: the comparisons are `flt_iff`, `fle_iff` and `feq_iff`. -/
theorem comparisonsCompareValues : Obligations.ComparisonsCompareValues := by
  refine ⟨fun a b => ⟨flt_iff, fle_iff, ?_, ?_, feq_iff⟩, fun x => units_between_infinities, by decide, by decide,
    fun a b => comparisons_of_isNaN, fun w => ?_⟩
  · rw [fgt, flt_iff, and_left_comm]
  · rw [fge, fle_iff, and_left_comm]
  · rw [isFinite, expField, bne_iff_ne, ne_eq, ne_eq, ← BitVec.toNat_inj]
    rfl

/-! ### Rounding (R101) -/

/-- The shift at which a pattern's magnitude is its significand in the last place. -/
def patternShift (b : Nat) : Nat := b / 2 ^ 23 - 1

/-- The significand of a pattern: at most 24 bits, the implicit one included. -/
def significand (b : Nat) : Nat := b - patternShift b * 2 ^ 23

theorem pattern_eq (b : Nat) : b = patternShift b * 2 ^ 23 + significand b := by
  unfold significand patternShift
  omega

theorem magOfBits_eq_significand (b : Nat) : magOfBits b = significand b * 2 ^ patternShift b := by
  have hle : significand b ≤ 2 ^ 24 := by unfold significand patternShift; omega
  have hge : 0 < patternShift b → 2 ^ 23 ≤ significand b := by unfold significand patternShift; omega
  rw [← magOfBits_shift hle hge, ← pattern_eq]

/-- Between a pattern's magnitude and the next, rounding keeps the pattern's last place. -/
theorem roundShift_eq_patternShift {n d b : Nat} (hd : 0 < d) (hle : magOfBits b * d ≤ n) (hlt : n < magOfBits (b + 1) * d) :
    roundShift n d = patternShift b := by
  refine Nat.le_antisymm (roundShift_le hd hlt) ?_
  rcases Nat.eq_zero_or_pos (patternShift b) with h0 | hpos
  · omega
  have hq : magOfBits b ≤ n / d := (Nat.le_div_iff_mul_le hd).2 hle
  have hsig : 2 ^ 23 ≤ significand b := by unfold significand; unfold patternShift at *; omega
  have hpow : 2 ^ (23 + patternShift b) ≤ n / d := by
    rw [Nat.pow_add]
    rw [magOfBits_eq_significand] at hq
    exact (Nat.mul_le_mul_right _ hsig).trans hq
  have hlog := (Nat.le_log2 (Nat.ne_of_gt ((Nat.two_pow_pos _).trans_le hpow))).2 hpow
  unfold roundShift
  omega

/-- `n / d` lies beyond the middle between a pattern's magnitude and the next, or on it where the pattern is odd. -/
def BeyondMiddle (n d b : Nat) : Prop :=
  (magOfBits b + magOfBits (b + 1)) * d < 2 * n ∨ ((magOfBits b + magOfBits (b + 1)) * d = 2 * n ∧ b % 2 = 1)

/-- Rounding, said by where it goes up. -/
theorem lt_roundRaw_iff {n d b : Nat} (hd : 0 < d) : b < roundRaw n d ↔ BeyondMiddle n d b := by
  have hstep : magOfBits b * d < magOfBits (b + 1) * d := Nat.mul_lt_mul_of_pos_right (magOfBits_lt_succ b) hd
  unfold BeyondMiddle
  rw [Nat.add_mul]
  rcases Nat.lt_or_ge n (magOfBits b * d) with hlow | hlow
  · have hr : roundRaw n d ≤ b := by
      rw [← roundRaw_exact b hd]
      exact roundRaw_mono hd hd (Nat.mul_le_mul_right _ hlow.le)
    omega
  rcases Nat.lt_or_ge n (magOfBits (b + 1) * d) with hhigh | hhigh
  · have hD : 0 < d * 2 ^ patternShift b := Nat.mul_pos hd (Nat.two_pow_pos _)
    have hb := pattern_eq b
    have hlo : magOfBits b * d = significand b * (d * 2 ^ patternShift b) := by rw [magOfBits_eq_significand]; ring
    have hhi : magOfBits (b + 1) * d = significand b * (d * 2 ^ patternShift b) + d * 2 ^ patternShift b := by
      rw [magOfBits_succ, Nat.add_mul, hlo, ← patternShift]; ring
    have hdiv : n / (d * 2 ^ patternShift b) = significand b := by
      rw [Nat.div_eq_iff hD]
      omega
    have hmod := Nat.div_add_mod n (d * 2 ^ patternShift b)
    rw [hdiv, Nat.mul_comm] at hmod
    unfold roundRaw roundHalfEven
    rw [roundShift_eq_patternShift hd hlow hhigh, hdiv]
    split <;> omega
  · have hr : b + 1 ≤ roundRaw n d := by
      rw [← roundRaw_exact (b + 1) hd]
      exact roundRaw_mono hd hd (Nat.mul_le_mul_right _ hhigh)
    omega

/-- No pattern is nearer than the one rounded to, and where another is as near that one is even. -/
theorem roundRaw_nearest (n c : Nat) {d : Nat} (hd : 0 < d) :
    ((n : Int) - magOfBits (roundRaw n d) * d).natAbs ≤ ((n : Int) - magOfBits c * d).natAbs ∧
    (((n : Int) - magOfBits c * d).natAbs = ((n : Int) - magOfBits (roundRaw n d) * d).natAbs → c ≠ roundRaw n d →
      roundRaw n d % 2 = 0) := by
  rcases Nat.lt_trichotomy c (roundRaw n d) with hlt | heq | hgt
  · obtain ⟨r, hr⟩ : ∃ r, roundRaw n d = r + 1 := ⟨roundRaw n d - 1, by omega⟩
    have hmid : BeyondMiddle n d r := (lt_roundRaw_iff hd).mp (by omega)
    have hc : magOfBits c * d ≤ magOfBits r * d := Nat.mul_le_mul_right _ (magOfBits_le_iff.mpr (by omega))
    have hs : magOfBits r * d < magOfBits (r + 1) * d := Nat.mul_lt_mul_of_pos_right (magOfBits_lt_succ r) hd
    rw [BeyondMiddle, Nat.add_mul] at hmid
    rw [hr]
    simp only [← Int.natCast_mul]
    omega
  · rw [← heq]
    exact ⟨le_rfl, fun _ h => absurd rfl h⟩
  · have hmid : ¬ BeyondMiddle n d (roundRaw n d) := fun h => lt_irrefl _ ((lt_roundRaw_iff hd).mpr h)
    have hc : magOfBits (roundRaw n d + 1) * d ≤ magOfBits c * d :=
      Nat.mul_le_mul_right _ (magOfBits_le_iff.mpr hgt)
    have hs : magOfBits (roundRaw n d) * d < magOfBits (roundRaw n d + 1) * d :=
      Nat.mul_lt_mul_of_pos_right (magOfBits_lt_succ _) hd
    rw [BeyondMiddle, Nat.add_mul] at hmid
    simp only [← Int.natCast_mul]
    omega

/-- The middle between the largest finite magnitude and the next is R101's threshold, and that pattern is odd. -/
theorem beyondMiddle_maxFinite (n d : Nat) : BeyondMiddle n d (infBits - 1) ↔ (2 ^ 25 - 1) * 2 ^ 252 * d ≤ n := by
  have hsum : magOfBits (infBits - 1) + magOfBits (infBits - 1 + 1) = 2 * ((2 ^ 25 - 1) * 2 ^ 252) := by decide
  have hodd : (infBits - 1) % 2 = 1 := by decide
  unfold BeyondMiddle
  rw [hsum, Nat.mul_assoc]
  omega

theorem infBits_le_roundRaw_iff {n d : Nat} (hd : 0 < d) : infBits ≤ roundRaw n d ↔ (2 ^ 25 - 1) * 2 ^ 252 * d ≤ n := by
  rw [← beyondMiddle_maxFinite, ← lt_roundRaw_iff hd]
  unfold infBits
  omega

theorem isInf_roundTo_iff (negative : Bool) (n : Nat) {d : Nat} (hd : 0 < d) :
    isInf (roundTo negative n d) = true ↔ (2 ^ 25 - 1) * 2 ^ 252 * d ≤ n := by
  rw [isInf_iff, magBits_roundTo, roundMag_eq_min, ← infBits_le_roundRaw_iff hd]
  omega

theorem getLsbD_zero_eq_false {w : Word} (h : magBits w % 2 = 0) : w.getLsbD 0 = false := by
  rw [magBits] at h
  rw [BitVec.getLsbD, Nat.testBit_zero, decide_eq_false_iff_not]
  omega

theorem isRounding_roundTo (negative : Bool) (n : Nat) {d : Nat} (hd : 0 < d) :
    IsRounding (roundTo negative n d) negative n d := by
  refine ⟨signBit_roundTo _ _ _, isInf_roundTo_iff _ _ hd, fun hlt => ?_⟩
  have hraw : roundRaw n d < infBits := by
    rw [← Nat.not_le, infBits_le_roundRaw_iff hd, Nat.not_le]
    exact hlt
  have hbits : magBits (roundTo negative n d) = roundRaw n d := by
    rw [magBits_roundTo, roundMag_eq_min, Nat.min_eq_right hraw.le]
  refine ⟨by rwa [isFinite_iff, hbits], fun v _ => ?_⟩
  obtain ⟨hnear, heven⟩ := roundRaw_nearest n (magBits v) hd
  rw [magUnits_eq, magUnits_eq, hbits]
  refine ⟨hnear, fun htie hne => getLsbD_zero_eq_false ?_⟩
  rw [hbits]
  exact heven htie fun h => hne (by rw [h])

/-- Settles O9. -/
theorem roundingIsNearestEven : Obligations.RoundingIsNearestEven := fun negative n _ hd =>
  isRounding_roundTo negative n hd

/-- A zero magnitude rounds to a zero of the sign given. -/
theorem roundTo_zero (negative : Bool) {d : Nat} (hd : 0 < d) : roundTo negative 0 d = packSign negative 0 := by
  rw [roundTo, Nat.le_zero.mp (roundMag_le hd (Nat.zero_le infBits) (Nat.zero_le _))]

theorem isFinite_roundTo (negative : Bool) {n d : Nat} (hd : 0 < d) (h : n < (2 ^ 25 - 1) * 2 ^ 252 * d) :
    isFinite (roundTo negative n d) = true := ((isRounding_roundTo negative n hd).2.2 h).1

/-! ### Values and signs -/

theorem unitsPerOne_pos : 0 < unitsPerOne := Nat.two_pow_pos 149

theorem natAbs_units (w : Word) : (units w).natAbs = magUnits w := by
  unfold units
  split <;> omega

theorem units_eq_zero_iff (w : Word) : units w = 0 ↔ isZero w = true := by
  rw [← magUnits_eq_zero_iff, ← natAbs_units, Int.natAbs_eq_zero]

theorem units_neg_iff {w : Word} (h : isZero w = false) : units w < 0 ↔ signBit w = true := by
  have hpos := magUnits_pos h
  unfold units
  split <;> simp_all

theorem neg_of_not_isNaN {x : Word} (h : isNaN x = false) : neg x = x ^^^ 0x80000000 := by rw [neg, h]; rfl

theorem neg_of_isNaN {x : Word} (h : isNaN x = true) : neg x = canonicalNaN := if_pos h

theorem neg_eq_packSign {x : Word} (h : isNaN x = false) : neg x = packSign (!signBit x) (magBits x) := by
  rw [← signBit_neg h]
  exact eq_packSign_of_magBits (magBits_neg h)

theorem magUnits_neg {x : Word} (h : isNaN x = false) : magUnits (neg x) = magUnits x := by
  rw [magUnits_eq, magUnits_eq, magBits_neg h]

theorem units_neg {x : Word} (h : isNaN x = false) : units (neg x) = -units x := by
  unfold units
  rw [signBit_neg h, magUnits_neg h]
  cases signBit x <;> simp

theorem isFinite_neg {x : Word} (h : isFinite x = true) : isFinite (neg x) = true :=
  isFinite_of_magBits_le (magBits_neg (isNaN_of_isFinite h)).le h

/-! ### Addition (R102, R103) -/

theorem fadd_of_isNaN {a b : Word} (h : isNaN a = true ∨ isNaN b = true) : fadd a b = canonicalNaN :=
  if_pos (Bool.or_eq_true_iff.mpr h)

theorem fadd_comm (a b : Word) : fadd a b = fadd b a := by
  by_cases hn : isNaN a = true ∨ isNaN b = true
  · rw [fadd_of_isNaN hn, fadd_of_isNaN hn.symm]
  obtain ⟨hna, hnb⟩ : isNaN a = false ∧ isNaN b = false := by simpa using hn
  cases ha : isInf a <;> cases hb : isInf b
  · rw [fadd_of_finite (isFinite_of_not hna ha) (isFinite_of_not hnb hb),
      fadd_of_finite (isFinite_of_not hnb hb) (isFinite_of_not hna ha), Int.add_comm (units b)]
    simp only [Bool.and_eq_true, and_assoc, and_comm, and_left_comm]
  · simp [fadd, hna, hnb, ha, hb]
  · simp [fadd, hna, hnb, ha, hb]
  · rw [eq_packSign_of_isInf ha, eq_packSign_of_isInf hb]
    cases signBit a <;> cases signBit b <;> decide

/-- An infinity absorbs a finite value and itself. -/
theorem fadd_of_isInf {i x : Word} (hi : isInf i = true) (hx : isFinite x = true ∨ x = i) : fadd i x = i := by
  rcases hx with hx | rfl
  · simp [fadd, isNaN_of_isInf hi, isNaN_of_isFinite hx, hi, isInf_of_isFinite hx]
  · simp [fadd, isNaN_of_isInf hi, hi]

/-- Adding a zero changes at most the sign of a zero. -/
theorem fadd_zero {x z : Word} (hx : isNaN x = false) (hz : isZero z = true) :
    fadd x z = if isZero x then (if signBit x && signBit z then negZero else posZero) else x := by
  cases hi : isInf x with
  | true => rw [fadd_of_isInf hi (.inl (isFinite_of_isZero hz)), isZero_of_isInf hi]; rfl
  | false =>
    rw [fadd_of_finite (isFinite_of_not hx hi) (isFinite_of_isZero hz), (units_eq_zero_iff z).mpr hz, Int.add_zero]
    cases hzx : isZero x with
    | true => rw [if_pos ((units_eq_zero_iff x).mpr hzx), hz]; rfl
    | false =>
      rw [if_neg (by simp [units_eq_zero_iff, hzx]), natAbs_units, ← Nat.mul_one (magUnits x)]
      simp only [units_neg_iff hzx, Bool.decide_eq_true]
      exact roundTo_self hx Nat.one_pos

theorem fadd_negZero {x : Word} (hx : isNaN x = false) : fadd x negZero = x := by
  rw [fadd_zero hx rfl]
  cases hz : isZero x with
  | false => rfl
  | true => rw [eq_packSign_of_isZero hz]; cases signBit x <;> decide

theorem fadd_posZero {x : Word} (hx : isNaN x = false) : fadd x posZero = if x = negZero then posZero else x := by
  rw [fadd_zero hx rfl]
  cases hz : isZero x with
  | false =>
    have hne : x ≠ negZero := fun h => Bool.false_ne_true (hz.symm.trans ((eq_negZero_iff x).mp h).1)
    rw [if_neg hne]
    rfl
  | true => rw [eq_packSign_of_isZero hz]; cases signBit x <;> decide

/-- An exact sum of zero is `+0` but for two zeros `-0`. -/
theorem fadd_of_sum_zero {a b : Word} (ha : isFinite a = true) (hb : isFinite b = true) (h : units a + units b = 0) :
    fadd a b = if a = negZero ∧ b = negZero then negZero else posZero := by
  rw [fadd_of_finite ha hb, if_pos h]
  simp only [eq_negZero_iff, Bool.and_eq_true, and_assoc, and_left_comm]

theorem isRounding_fadd {a b : Word} (ha : isFinite a = true) (hb : isFinite b = true) (h : units a + units b ≠ 0) :
    IsRounding (fadd a b) (decide (units a + units b < 0)) (units a + units b).natAbs 1 := by
  rw [fadd_of_finite ha hb, if_neg h]
  exact isRounding_roundTo _ _ Nat.one_pos

theorem fsub_self {x : Word} (hx : isFinite x = true) : fsub x x = posZero := by
  have hn := isNaN_of_isFinite hx
  rw [fsub, fadd_of_sum_zero hx (isFinite_neg hx) (by rw [units_neg hn]; omega), if_neg]
  rintro ⟨rfl, h⟩
  exact absurd h (by decide)

/-- Settles O10. -/
theorem additionRoundsExactSum : Obligations.AdditionRoundsExactSum := by
  refine ⟨fun a b => fadd_of_isNaN, by decide, by decide, fun i x hi hx => ⟨fadd_of_isInf hi hx, ?_⟩,
    fun a b ha hb => ⟨isRounding_fadd ha hb, fadd_of_sum_zero ha hb⟩,
    fun x hx => ⟨fun hne => (fadd_posZero hx).trans (if_neg hne), fadd_negZero hx, neg_of_not_isNaN hx⟩,
    fun x => neg_of_isNaN, fun x hx => ⟨fsub_self hx, fsub_self hx⟩, fun a b => rfl, by decide⟩
  rw [fadd_comm]
  exact fadd_of_isInf hi hx

/-! ### Multiplication (R104) -/

theorem xorSign_comm (a b : Word) : xorSign a b = xorSign b a := Bool.xor_comm _ _

theorem fmul_comm (a b : Word) : fmul a b = fmul b a := by
  unfold fmul
  rw [Bool.or_comm (isNaN a), Bool.or_comm (isZero a && isInf b), Bool.and_comm (isInf a), Bool.and_comm (isZero a),
    Bool.or_comm (isInf a), xorSign_comm, Nat.mul_comm]

theorem fmul_of_isNaN {a b : Word} (h : isNaN a = true ∨ isNaN b = true) : fmul a b = canonicalNaN :=
  if_pos (Bool.or_eq_true_iff.mpr h)

theorem fmul_of_isZero_isInf {a b : Word} (ha : isZero a = true) (hb : isInf b = true) : fmul a b = canonicalNaN := by
  simp [fmul, ha, hb]

theorem fmul_of_isInf {a b : Word} (ha : isInf a = true) (hb : isNaN b = false) (hz : isZero b = false) :
    fmul a b = packSign (xorSign a b) 0x7F800000 := by
  simp [fmul, isNaN_of_isInf ha, hb, isZero_of_isInf ha, hz, ha]

theorem isRounding_fmul {a b : Word} (ha : isFinite a = true) (hb : isFinite b = true) :
    IsRounding (fmul a b) (signBit a ^^ signBit b) (magUnits a * magUnits b) (2 ^ 149) := by
  rw [fmul_of_finite ha hb]
  exact isRounding_roundTo _ _ unitsPerOne_pos

/-- A product with a word of magnitude 1 has the other factor's magnitude. -/
theorem fmul_of_unit {u x : Word} (hu : isFinite u = true) (h1 : magUnits u = unitsPerOne) (hx : isNaN x = false) :
    fmul u x = packSign (xorSign u x) (magBits x) := by
  cases hi : isInf x with
  | false =>
    rw [fmul_of_finite hu (isFinite_of_not hx hi), h1, Nat.mul_comm, roundTo, magUnits_eq,
      roundMag_exact ((isNaN_eq_false_iff x).mp hx) unitsPerOne_pos]
  | true =>
    have hz : isZero u = false := by
      rw [← Bool.not_eq_true, ← magUnits_eq_zero_iff, h1]
      exact unitsPerOne_pos.ne'
    rw [fmul_comm, fmul_of_isInf hi (isNaN_of_isFinite hu) hz, xorSign_comm, (isInf_iff x).mp hi]
    rfl

theorem fmul_one {x : Word} (hx : isNaN x = false) : fmul one x = x := by
  rw [fmul_of_unit (by decide) (by decide) hx, show xorSign one x = signBit x from Bool.false_xor _, packSign_self]

theorem fmul_negOne {x : Word} (hx : isNaN x = false) : fmul negOne x = neg x := by
  rw [fmul_of_unit (by decide) (by decide) hx, neg_eq_packSign hx]
  exact congrArg (packSign · _) (Bool.true_xor _)

theorem fmul_posZero {x : Word} (hx : isFinite x = true) : fmul posZero x = packSign (signBit x) 0 := by
  rw [fmul_of_finite (by decide) hx, show magUnits posZero = 0 by decide, Nat.zero_mul,
    roundTo_zero _ unitsPerOne_pos]
  exact congrArg (packSign · 0) (Bool.false_xor _)

/-- Settles O11. -/
theorem multiplicationRoundsExactProduct : Obligations.MultiplicationRoundsExactProduct := by
  refine ⟨fun a b => fmul_of_isNaN, fun a b ha hb => ?_, fun a b ha hb hz => ?_, fun a b => isRounding_fmul,
    fun x hx => ?_, fun x hx => ?_⟩
  · rw [fmul_comm b]
    exact ⟨fmul_of_isZero_isInf ha hb, fmul_of_isZero_isInf ha hb⟩
  · rw [fmul_comm b, fmul_of_isInf ha hb hz]
    have hinf := isInf_packSign_inf (xorSign a b)
    have hsign : signBit (packSign (xorSign a b) 0x7F800000) = xorSign a b := signBit_packSign (by decide)
    exact ⟨hinf, hsign, hinf, hsign⟩
  · exact ⟨fmul_one hx, (fmul_comm _ _).trans (fmul_one hx), fmul_negOne hx⟩
  · rw [show (0x00000000 : Word) = posZero from rfl, fmul_posZero hx]
    cases signBit x <;> decide

/-! ### Division (R105) -/

theorem fdiv_of_isNaN {a b : Word} (h : isNaN a = true ∨ isNaN b = true) : fdiv a b = canonicalNaN :=
  if_pos (Bool.or_eq_true_iff.mpr h)

theorem fdiv_of_isZero_isZero {a b : Word} (ha : isZero a = true) (hb : isZero b = true) : fdiv a b = canonicalNaN := by
  simp [fdiv, ha, hb]

theorem fdiv_of_isInf_isInf {a b : Word} (ha : isInf a = true) (hb : isInf b = true) : fdiv a b = canonicalNaN := by
  simp [fdiv, ha, hb]

theorem fdiv_by_isZero {a b : Word} (ha : isNaN a = false) (hz : isZero a = false) (hb : isZero b = true) :
    fdiv a b = packSign (xorSign a b) 0x7F800000 := by
  have hf := isFinite_of_isZero hb
  simp [fdiv, ha, isNaN_of_isFinite hf, hz, hb, isInf_of_isFinite hf]

theorem fdiv_of_isInf {a b : Word} (ha : isInf a = true) (hb : isFinite b = true) :
    fdiv a b = packSign (xorSign a b) 0x7F800000 := by
  simp [fdiv, isNaN_of_isInf ha, isNaN_of_isFinite hb, isZero_of_isInf ha, ha, isInf_of_isFinite hb]

theorem fdiv_by_isInf {a b : Word} (ha : isFinite a = true) (hb : isInf b = true) :
    fdiv a b = packSign (xorSign a b) 0 := by
  simp [fdiv, isNaN_of_isFinite ha, isNaN_of_isInf hb, isInf_of_isFinite ha, isZero_of_isInf hb, hb]

theorem isRounding_fdiv {a b : Word} (ha : isFinite a = true) (hb : isFinite b = true) (hz : isZero b = false) :
    IsRounding (fdiv a b) (signBit a ^^ signBit b) (magUnits a * 2 ^ 149) (magUnits b) := by
  rw [fdiv_of_finite ha hb hz]
  exact isRounding_roundTo _ _ (magUnits_pos hz)

theorem fdiv_posZero {b : Word} (hb : isFinite b = true) (hz : isZero b = false) :
    fdiv posZero b = packSign (signBit b) 0 := by
  rw [fdiv_of_finite (by decide) hb hz, show magUnits posZero = 0 by decide, Nat.zero_mul,
    roundTo_zero _ (magUnits_pos hz)]
  exact congrArg (packSign · 0) (Bool.false_xor _)

/-- Settles O12. -/
theorem divisionRoundsExactQuotient : Obligations.DivisionRoundsExactQuotient := by
  refine ⟨fun a b => fdiv_of_isNaN, fun a b => fdiv_of_isZero_isZero, fun a b => fdiv_of_isInf_isInf,
    fun a b ha hz hb => ?_, fun a b ha hb => ?_, fun a b => isRounding_fdiv, fun a b ha hb => ?_⟩
  · rw [fdiv_by_isZero ha hz hb]
    exact ⟨isInf_packSign_inf _, signBit_packSign (by decide)⟩
  · rw [fdiv_by_isInf ha hb]
    exact ⟨isZero_packSign_zero _, signBit_packSign (by decide)⟩
  · rw [fdiv_of_isInf ha hb]
    exact ⟨isInf_packSign_inf _, signBit_packSign (by decide)⟩

/-! ### NaNs and the laws (R106, R114) -/

theorem fadd_eq_of_isNaN {a b : Word} (h : isNaN (fadd a b) = true) : fadd a b = canonicalNaN := by
  by_cases hn : isNaN a = true ∨ isNaN b = true
  · exact fadd_of_isNaN hn
  obtain ⟨hna, hnb⟩ : isNaN a = false ∧ isNaN b = false := by simpa using hn
  cases ha : isInf a with
  | false => exact absurd h (by simp [isNaN_fadd (isFinite_of_not hna ha) hnb])
  | true =>
    cases hb : isInf b with
    | false => exact absurd h (by simp [fadd_comm a, isNaN_fadd (isFinite_of_not hnb hb) hna])
    | true =>
      rw [eq_packSign_of_isInf ha, eq_packSign_of_isInf hb] at h ⊢
      revert h
      cases signBit a <;> cases signBit b <;> decide

theorem fmul_eq_of_isNaN {a b : Word} (h : isNaN (fmul a b) = true) : fmul a b = canonicalNaN := by
  unfold fmul at h ⊢
  split_ifs at h ⊢
  · rfl
  · rfl
  · rw [isNaN_of_isInf (isInf_packSign_inf _)] at h
    cases h
  · rw [isNaN_roundTo] at h
    cases h

theorem fdiv_eq_of_isNaN {a b : Word} (h : isNaN (fdiv a b) = true) : fdiv a b = canonicalNaN := by
  unfold fdiv at h ⊢
  split_ifs at h ⊢
  · rfl
  · rfl
  · rw [isNaN_of_isInf (isInf_packSign_inf _)] at h
    cases h
  · rw [isNaN_of_isFinite (isFinite_of_isZero (isZero_packSign_zero _))] at h
    cases h
  · rw [isNaN_roundTo] at h
    cases h

theorem neg_eq_of_isNaN {a : Word} (h : isNaN (neg a) = true) : neg a = canonicalNaN := by
  cases ha : isNaN a with
  | true => exact neg_of_isNaN ha
  | false =>
    rw [isNaN_iff, magBits_neg ha, ← isNaN_iff, ha] at h
    cases h

/-- Settles O13: `fsub` and `blend` end in an `fadd`. -/
theorem producedNaNsAreCanonical : Obligations.ProducedNaNsAreCanonical := fun _ _ _ =>
  ⟨fadd_eq_of_isNaN, fadd_eq_of_isNaN, fmul_eq_of_isNaN, fdiv_eq_of_isNaN, neg_eq_of_isNaN, fadd_eq_of_isNaN⟩

/-- Settles O14. -/
theorem arithmeticLaws : Obligations.ArithmeticLaws := by
  refine ⟨fun x hx => ⟨fmul_one hx, (fmul_comm _ _).trans (fmul_one hx), fmul_negOne hx, fadd_negZero hx,
    fun hne => (fadd_posZero hx).trans (if_neg hne)⟩, fun x => fsub_self, by decide, fun b hb hpos => ?_⟩
  have hu : 0 < units b := (flt_iff.mp hpos).2.2
  have hz : isZero b = false := by
    rw [← Bool.not_eq_true, ← units_eq_zero_iff]
    exact hu.ne'
  exact (fdiv_posZero hb hz).trans (by rw [signBit_of_units_pos hu]; rfl)

/-! ### The clamp (R108) -/

section
variable {v lo hi : Word} (hv : isNaN v = false) (hlo : isFinite lo = true) (hhi : isFinite hi = true)
include hv hlo hhi

theorem isNaN_clamp : isNaN (clamp v lo hi) = false := by
  rcases clamp_cases hv (isNaN_of_isFinite hlo) (isNaN_of_isFinite hhi) with ⟨_, e⟩ | ⟨_, _, e⟩ | ⟨_, _, e⟩ <;> rw [e]
  · exact isNaN_of_isFinite hlo
  · exact isNaN_of_isFinite hhi
  · exact hv

/-- On values the clamp is that of the order. -/
theorem units_clamp (hle : units lo ≤ units hi) : units (clamp v lo hi) = max (units lo) (min (units hi) (units v)) := by
  rcases clamp_cases hv (isNaN_of_isFinite hlo) (isNaN_of_isFinite hhi) with ⟨_, e⟩ | ⟨_, _, e⟩ | ⟨_, _, e⟩ <;> rw [e] <;>
    omega

end

/-- Settles O15: the range and the order by `units_clamp`, the patterns by `clamp_cases`. -/
theorem clampStaysWithinBounds : Obligations.ClampStaysWithinBounds := by
  intro v u lo hi hv hu hlo hhi hle
  have hbounds : units lo ≤ units hi := (fle_iff.mp hle).2.2
  have hnv := isNaN_clamp hv hlo hhi
  have huv := units_clamp hv hlo hhi hbounds
  have hcases := clamp_cases hv (isNaN_of_isFinite hlo) (isNaN_of_isFinite hhi)
  refine ⟨fle_iff.mpr ⟨isNaN_of_isFinite hlo, hnv, by omega⟩, fle_iff.mpr ⟨hnv, isNaN_of_isFinite hhi, by omega⟩,
    fun h => ?_, fun h1 h2 => ?_, fun h1 h2 => ?_, fun h => fle_iff.mpr ⟨hnv, isNaN_clamp hu hlo hhi, ?_⟩⟩
  · exact (hcases.resolve_right (by omega)).2
  · exact ((hcases.resolve_left (by omega)).resolve_right (by omega)).2.2
  · exact ((hcases.resolve_left (by omega)).resolve_left (by omega)).2.2
  · rw [huv, units_clamp hu hlo hhi hbounds]
    exact max_le_max_left _ (min_le_min_left _ (fle_iff.mp h).2.2)

/-! ### The blend (R109) -/

theorem fmul_by_posZero {x : Word} (hx : isFinite x = true) : fmul x posZero = packSign (signBit x) 0 := by
  rw [fmul_comm, fmul_posZero hx]

theorem magUnits_le_maxFinite {x : Word} (h : isFinite x = true) : magUnits x ≤ (2 ^ 24 - 1) * 2 ^ 253 := by
  rw [isFinite_iff] at h
  calc magUnits x ≤ magOfBits (infBits - 1) := by rw [magUnits_eq, magOfBits_le_iff]; omega
    _ = (2 ^ 24 - 1) * 2 ^ 253 := by decide

/-- The complement of a finite weight does not overflow. -/
theorem isFinite_one_fsub {w : Word} (hw : isFinite w = true) : isFinite (fsub one w) = true := by
  have hmax := magUnits_le_maxFinite hw
  have hmag : (units w).natAbs = magUnits w := natAbs_units w
  have hone : units one = 2 ^ 149 := by decide
  rw [fsub, fadd_of_finite (by decide) (isFinite_neg hw), units_neg (isNaN_of_isFinite hw)]
  split
  · split <;> decide
  · exact isFinite_roundTo _ Nat.one_pos (by omega)

/-- The complement of a weight with a sign has none. -/
theorem signBit_one_fsub {w : Word} (hw : isFinite w = true) (hs : signBit w = true) : signBit (fsub one w) = false := by
  have hsum : 0 < units one + units (neg w) := by
    rw [units_neg (isNaN_of_isFinite hw), units_of_neg hs, Int.neg_neg]
    exact Int.add_pos_of_pos_of_nonneg (by decide) (Int.natCast_nonneg _)
  rw [fsub, fadd_of_finite (by decide) (isFinite_neg hw), if_neg hsum.ne', signBit_roundTo]
  exact decide_eq_false hsum.not_gt

/-- Adding a zero that carries a word's sign. -/
theorem fadd_signedZero {x y : Word} (hx : isNaN x = false) :
    fadd x (packSign (signBit y) 0) = if x = negZero ∧ signBit y = false then posZero else x := by
  cases signBit y with
  | false => simpa [show packSign false 0 = posZero by decide] using fadd_posZero hx
  | true => simpa [show packSign true 0 = negZero by decide] using fadd_negZero hx

theorem blend_zero {p q : Word} (hp : isFinite p = true) (hq : isFinite q = true) :
    blend posZero p q = if p = negZero ∧ signBit q = false then posZero else p := by
  have hn := isNaN_of_isFinite hp
  rw [blend, show fsub one posZero = one by decide, fmul_one hn, fmul_posZero hq, fadd_signedZero hn]

theorem blend_one {p q : Word} (hp : isFinite p = true) (hq : isFinite q = true) :
    blend one p q = if q = negZero ∧ signBit p = false then posZero else q := by
  have hn := isNaN_of_isFinite hq
  rw [blend, show fsub one one = posZero by decide, fmul_one hn, fmul_posZero hp, fadd_comm, fadd_signedZero hn]

/-- The two products are zeros, and not both are `-0`. -/
theorem blend_of_zeros {w : Word} (hw : isFinite w = true) : blend w posZero posZero = posZero := by
  rw [blend, fmul_by_posZero (isFinite_one_fsub hw), fmul_by_posZero hw]
  cases hs : signBit w with
  | true => rw [signBit_one_fsub hw hs]; decide
  | false => cases signBit (fsub one w) <;> decide

/-- Weight 0 does not hide an infinity or a NaN. -/
theorem blend_zero_of_not_isFinite (p : Word) {q : Word} (hq : isFinite q = false) : blend posZero p q = canonicalNaN := by
  have hnan : fmul posZero q = canonicalNaN := by
    cases hn : isNaN q with
    | true => exact fmul_of_isNaN (.inr hn)
    | false =>
      refine fmul_of_isZero_isInf (by decide) ?_
      by_contra hi
      exact absurd (isFinite_of_not hn (Bool.eq_false_iff.mpr hi)) (by simp [hq])
  rw [blend, hnan]
  exact fadd_of_isNaN (.inr (by decide))

/-- Settles O16. -/
theorem blendAtItsEnds : Obligations.BlendAtItsEnds :=
  ⟨fun _ _ hp hq => ⟨blend_zero hp hq, blend_one hp hq⟩, fun _ => blend_of_zeros, fun p _ => blend_zero_of_not_isFinite p⟩

/-! ### Integers (R110) -/

/-- Every magnitude of 24 significant bits is a pattern's: a short significand is shifted up as far as the exponent
allows. -/
theorem exists_magOfBits_eq {r : Nat} (s : Nat) (hr : r ≤ 2 ^ 24) : ∃ b, magOfBits b = r * 2 ^ s := by
  induction s generalizing r with
  | zero => exact ⟨0 * 2 ^ 23 + r, magOfBits_shift hr (fun h => absurd h (lt_irrefl 0))⟩
  | succ s ih =>
    rcases Nat.lt_or_ge r (2 ^ 23) with hlt | hge
    · obtain ⟨b, hb⟩ := ih (r := 2 * r) (by omega)
      exact ⟨b, by rw [hb, Nat.pow_succ]; ring⟩
    · exact ⟨_, magOfBits_shift hr fun _ => hge⟩

/-- A finite magnitude of 24 significant bits is rounded to itself. -/
theorem roundTo_exact {r s d : Nat} (hr : r < 2 ^ 24) (hs : s ≤ 253) (hd : 0 < d) :
    isFinite (roundTo false (r * 2 ^ s * d) d) = true ∧ units (roundTo false (r * 2 ^ s * d) d) = (r * 2 ^ s : Nat) := by
  obtain ⟨b, hb⟩ := exists_magOfBits_eq s hr.le
  have hlt : b < infBits := by
    rw [← magOfBits_lt_iff, hb]
    calc r * 2 ^ s < 2 ^ 24 * 2 ^ 253 :=
          Nat.mul_lt_mul_of_lt_of_le hr (Nat.pow_le_pow_right (by decide) hs) (Nat.two_pow_pos _)
      _ = magOfBits infBits := by decide
  have hbits : magBits (roundTo false (r * 2 ^ s * d) d) = b := by
    rw [magBits_roundTo, ← hb, roundMag_exact hlt.le hd]
  exact ⟨by rwa [isFinite_iff, hbits], by rw [units_of_pos (signBit_roundTo _ _ _), magUnits_eq, hbits, hb]⟩

theorem floatOfNat_exact {n : Nat} (hn : n < 2 ^ 24) :
    isFinite (floatOfNat n) = true ∧ units (floatOfNat n) = (n : Int) * 2 ^ 149 := by
  have h := roundTo_exact (s := 149) hn (by decide) Nat.one_pos
  rw [Nat.mul_one, Int.natCast_mul, Int.natCast_pow] at h
  exact h

theorem frac24_exact {n : Nat} (hn : n < 2 ^ 24) :
    isFinite (frac24 n) = true ∧ units (frac24 n) * 2 ^ 24 = (n : Int) * 2 ^ 149 := by
  have h := roundTo_exact (s := 125) hn (by decide) (Nat.two_pow_pos 24)
  have hfrac : frac24 n = roundTo false (n * 2 ^ 125 * 2 ^ 24) (2 ^ 24) := by
    rw [frac24, unitsPerOne, Nat.mul_assoc, ← Nat.pow_add]
  rw [← hfrac] at h
  exact ⟨h.1, by rw [h.2]; omega⟩

/-- Settles O17. -/
theorem integerConversionsAreExact : Obligations.IntegerConversionsAreExact := by
  refine ⟨fun v hv => ⟨_, _, floorInt_of_finite hv, ceilInt_of_finite hv, ?_⟩, fun n hn => ?_⟩
  · rw [show (unitsPerOne : Int) = 2 ^ 149 from rfl]
    omega
  · obtain ⟨hfin, hval⟩ := floatOfNat_exact hn
    exact ⟨hfin, hval, frac24_exact hn⟩
end Sys2Proof.Machine
end

section
/-! PROOFS. `41_parameter_commands.md`: the Parameter Store. SETST's loop is described once, as a function of the key
(`applyKeys_get`, `applyKeys_failed_bit`); with SETP's three outcomes that says what any command leaves in a register
(`exec_param_get`), and a list of commands is the induction over it. -/

namespace Sys2Proof.Machine

/-! ### The encoding of the four commands (R72, R77, R84) -/

/-- Two byte fields of a word, as a number. -/
theorem append_bytes_eq_ofNat (mid low : Byte) :
    (0 : BitVec 16) ++ mid ++ low = BitVec.ofNat 32 (low.toNat + mid.toNat * 2 ^ 8) := by
  have hlow := low.isLt
  have hmid := mid.isLt
  apply BitVec.eq_of_toNat_eq
  rw [BitVec.toNat_append, BitVec.toNat_append, ← Nat.shiftLeft_add_eq_or_of_lt hlow, Nat.shiftLeft_eq, BitVec.toNat_ofNat]
  simp only [BitVec.ofNat_eq_ofNat, BitVec.toNat_ofNat, Nat.zero_mod, Nat.zero_shiftLeft, Nat.zero_or]
  omega

theorem encode_eq_ofNat (i : Instr) :
    encode i = BitVec.ofNat 32 (i.opcode.byte.toNat + i.arg.toNat * 2 ^ 8) :: i.operands :=
  congrArg (· :: i.operands) (append_bytes_eq_ofNat i.arg i.opcode.byte)

/-- A command whose only home port is CP is legal on CP only. -/
theorem decode_encode_iff_cp {i : Instr} (hwf : i.wf = true) (hports : i.opcode.homePorts = [.cp]) (p : Port) :
    decode p (encode i) = .ok i ↔ p = .cp := by
  cases p with
  | cp => exact iff_of_true (decode_encode hwf (by simp [hports])) rfl
  | ap =>
    have hrefused : decode .ap (encode i) = .error .wrongPort :=
      decode_wrongPort (rsvField_headerWord ..) (opcField_headerWord ..) (by simp [hports])
    simp [hrefused]

/-! ### SETP and GETP (R131, R132) -/

section
variable {id : Byte} {i : ParamId} {s : State}

theorem execSetp_unknown (h : 4 < id.toNat) (v : Word) : execSetp id v s = .next (raiseError .unknown 0 s) := by
  rw [execSetp, setpUnder, paramOfId_eq_none.mpr h]

theorem execSetp_nan (h : id.toNat ≤ 4) {v : Word} (hv : isNaN v = true) :
    execSetp id v s = .next (raiseError .malformed 0 s) := by
  cases hid : paramOfId id with
  | none => exact absurd (paramOfId_eq_none.mp hid) h.not_gt
  | some i =>
    simp only [execSetp, setpUnder, hid]
    exact if_pos hv

theorem execSetp_stores (h : id.toNat = i.num) {v : Word} (hv : isNaN v = false) :
    execSetp id v s = .next (respondOk [] { s with param := s.param.set i (clamp v i.lo i.hi) }) := by
  simp only [execSetp, setpUnder, paramOfId_eq_some.mpr h]
  exact if_neg (Bool.eq_false_iff.mp hv)

theorem execGetp_unknown (h : 4 < id.toNat) : execGetp id s = .next (raiseError .unknown 0 s) := by
  rw [execGetp, paramOfId_eq_none.mpr h]

theorem execGetp_reads (h : id.toNat = i.num) : execGetp id s = .next (respondOk [s.param.get i] s) := by
  rw [execGetp, paramOfId_eq_some.mpr h]

end

/-- The infinities and the bounds go to the bounds, and so does `-0` but for `feedback` (R131, corner cases). -/
theorem clamp_corners (i : ParamId) :
    clamp posInf i.lo i.hi = i.hi ∧ clamp negInf i.lo i.hi = i.lo ∧ clamp i.lo i.lo i.hi = i.lo ∧
      clamp i.hi i.lo i.hi = i.hi ∧ clamp negZero i.lo i.hi = if i = .feedback then negZero else i.lo := by
  cases i <;> decide

/-- Settles O28: one lemma per outcome. -/
theorem setpStoresClampedValue : Obligations.SetpStoresClampedValue :=
  ⟨fun _ _ => ⟨encode_eq_ofNat _, decode_encode_iff_cp rfl rfl⟩,
    fun _ v _ => ⟨fun h => execSetp_unknown h v, fun h hv => execSetp_nan h hv, fun _ h hv => execSetp_stores h hv⟩,
    clamp_corners⟩

/-- Settles O29: one lemma per outcome, and the range invariant of the registers. -/
theorem getpReadsLiveRegister : Obligations.GetpReadsLiveRegister := by
  refine ⟨fun _ => ⟨encode_eq_ofNat _, decode_encode_iff_cp rfl rfl⟩,
    fun _ _ => ⟨execGetp_unknown, fun _ => execGetp_reads⟩, fun s i hinv => ?_⟩
  obtain ⟨hnan, hlo, hhi, -⟩ := Params.get_of_inRange hinv.param_inRange i
  exact ⟨fle_iff.mpr ⟨by cases i <;> decide, hnan, hlo⟩, fle_iff.mpr ⟨hnan, by cases i <;> decide, hhi⟩, hnan⟩

/-! ### GETST (R134) -/

/-- Settles O31: the encoding as for every command; the rest is the definition's own. -/
theorem getstExportsParameters : Obligations.GetstExportsParameters :=
  ⟨rfl, decode_encode_iff_cp (i := .getst) rfl rfl, fun _ => rfl, _, rfl, rfl⟩

/-! ### The loop of SETST (R133) -/

/-- What register `i` holds after a write of the value given, or of none. -/
def registerAfter (i : ParamId) (write : Option Word) (old : Word) : Word :=
  match write with
  | some v => clamp v i.lo i.hi
  | none => old

/-- The keys SETST goes through, each with its value. -/
def keysOf (values : Params) (ids : List ParamId) : List (ParamId × Word) := ids.map fun i => (i, values.get i)

/-- The value SETST writes to register `i`: its operand, if the mask selects it and it is a number. -/
def selectedValue (mask : Byte) (values : Params) (i : ParamId) : Option Word :=
  if mask.getLsbD i.num = true ∧ isNaN (values.get i) = false then some (values.get i) else none

theorem registerAfter_selectedValue (i : ParamId) (mask : Byte) (values : Params) (old : Word) :
    registerAfter i (selectedValue mask values i) old =
      if mask.getLsbD i.num = true ∧ isNaN (values.get i) = false then clamp (values.get i) i.lo i.hi else old := by
  rw [selectedValue]
  split <;> rfl

/-- The mask selects a key whose operand is a NaN. -/
def keyFails (mask : Byte) (values : Params) (i : ParamId) : Bool := mask.getLsbD i.num && isNaN (values.get i)

theorem ParamId.num_lt (i : ParamId) : i.num < 5 := by cases i <;> decide

theorem ParamId.num_inj {i j : ParamId} : i.num = j.num ↔ i = j := by cases i <;> cases j <;> decide

theorem getLsbD_setMaskBit (mask : Byte) (j : ParamId) (k : Nat) :
    (setMaskBit mask j).getLsbD k = true ↔ mask.getLsbD k = true ∨ j.num = k := by
  have hj : j.num < 8 := j.num_lt.trans (by decide)
  have hone : (BitVec.ofNat 8 (1 <<< j.num)).getLsbD k = true ↔ j.num = k := by
    rw [BitVec.getLsbD_ofNat, Nat.one_shiftLeft, Nat.testBit_two_pow]
    simp only [Bool.and_eq_true, decide_eq_true_iff]
    omega
  rw [← hone, ← Bool.or_eq_true, ← BitVec.getLsbD_or]
  rfl

theorem Params.set_get (p : Params) (i : ParamId) : p.set i (p.get i) = p := by cases i <;> rfl

/-- A second write of the same value changes nothing. -/
theorem registerAfter_self (i : ParamId) (write : Option Word) (old : Word) :
    registerAfter i write (registerAfter i write old) = registerAfter i write old := by
  cases write <;> rfl

section
variable (mask : Byte) (values : Params)

/-- One round of the loop: the key's register after its write, and its bit in the mask of failures. -/
theorem applyKeys_keysOf_cons (j : ParamId) (ids : List ParamId) (p : Params) (failed : Byte) :
    applyKeys Config.cfg mask (keysOf values (j :: ids)) p failed =
      applyKeys Config.cfg mask (keysOf values ids)
        (p.set j (registerAfter j (selectedValue mask values j) (p.get j)))
        (if keyFails mask values j then setMaskBit failed j else failed) := by
  rw [keysOf, List.map_cons, ← keysOf, applyKeys]
  cases hsel : mask.getLsbD j.num with
  | false => simp [maskBit, selectedValue, keyFails, hsel, registerAfter, Params.set_get]
  | true =>
    cases hnan : isNaN (values.get j) with
    | false => simp [maskBit, selectedValue, keyFails, hsel, hnan, registerAfter, clampParam_cfg]
    | true => simp [maskBit, selectedValue, keyFails, hsel, hnan, registerAfter, Params.set_get]

theorem applyKeys_get (ids : List ParamId) (p : Params) (failed : Byte) (i : ParamId) :
    (applyKeys Config.cfg mask (keysOf values ids) p failed).1.get i =
      if i ∈ ids then registerAfter i (selectedValue mask values i) (p.get i) else p.get i := by
  induction ids generalizing p failed with
  | nil => rfl
  | cons j ids ih =>
    rw [applyKeys_keysOf_cons, ih]
    by_cases hij : i = j
    · subst hij
      simp [registerAfter_self]
    · simp [Params.get_set_other _ _ _ _ hij, hij]

theorem applyKeys_failed_bit (ids : List ParamId) (p : Params) (failed : Byte) (k : Nat) :
    (applyKeys Config.cfg mask (keysOf values ids) p failed).2.getLsbD k = true ↔
      failed.getLsbD k = true ∨ ∃ j ∈ ids, j.num = k ∧ keyFails mask values j = true := by
  induction ids generalizing p failed with
  | nil => simp [keysOf, applyKeys]
  | cons j ids ih =>
    rw [applyKeys_keysOf_cons, ih]
    cases hfail : keyFails mask values j with
    | false => simp [hfail]
    | true => simp [hfail, getLsbD_setMaskBit, or_assoc]

end

/-! ### SETST (R133) -/

/-- The registers and the mask of failed keys that SETST's loop leaves. -/
def setstResult (mask : Byte) (values p : Params) : Params × Byte :=
  applyKeys Config.cfg mask (keysOf values ParamId.all) p 0

theorem execSetst_eq_finish (mask : Byte) (v0 v1 v2 v3 v4 : Word) (s : State) :
    execSetst mask v0 v1 v2 v3 v4 s = finishSetst s (setstResult mask ⟨v0, v1, v2, v3, v4⟩ s.param) := rfl

section
variable (mask : Byte) (values p : Params)

theorem setstResult_get (i : ParamId) :
    (setstResult mask values p).1.get i = registerAfter i (selectedValue mask values i) (p.get i) := by
  rw [setstResult, applyKeys_get, if_pos i.mem_all]

theorem setstResult_failed_bit (k : Nat) :
    (setstResult mask values p).2.getLsbD k = true ↔ ∃ j : ParamId, j.num = k ∧ keyFails mask values j = true := by
  rw [setstResult, applyKeys_failed_bit]
  simp [ParamId.mem_all]

theorem setstResult_failed_key (i : ParamId) :
    (setstResult mask values p).2.getLsbD i.num = keyFails mask values i := by
  rw [Bool.eq_iff_iff, setstResult_failed_bit]
  simp [ParamId.num_inj]

/-- There is no key above the fifth to fail. -/
theorem setstResult_failed_lt : (setstResult mask values p).2.toNat < 2 ^ 5 := by
  refine Nat.lt_pow_two_of_testBit _ fun k hk => Bool.eq_false_iff.mpr fun hbit => ?_
  obtain ⟨j, hj, -⟩ := (setstResult_failed_bit mask values p k).mp hbit
  exact absurd (hj ▸ j.num_lt) hk.not_gt

theorem setstResult_failed_eq_zero (h : ∀ i, keyFails mask values i = false) : (setstResult mask values p).2 = 0 := by
  refine BitVec.eq_of_getLsbD_eq fun k _ => ?_
  rw [BitVec.ofNat_eq_ofNat, BitVec.getLsbD_zero, Bool.eq_false_iff, ne_eq, setstResult_failed_bit]
  simp [h]

end

theorem finishSetst_ok (s : State) {result : Params × Byte} (h : result.2 = 0) :
    finishSetst s result = .next (respondOk [] { s with param := result.1 }) := if_neg (not_not.mpr h)

theorem finishSetst_failed (s : State) {result : Params × Byte} (h : result.2 ≠ 0) :
    finishSetst s result = .next (raiseError .malformed result.2 { s with param := result.1 }) := if_pos h

/-- SETST always completes, with the registers its loop leaves. -/
theorem exists_finishSetst (s : State) (result : Params × Byte) :
    ∃ t, finishSetst s result = .next t ∧ t.param = result.1 := by
  by_cases h : result.2 = 0
  · exact ⟨_, finishSetst_ok s h, rfl⟩
  · exact ⟨_, finishSetst_failed s h, rfl⟩

/-- The response of a SETST that fails, as a number. -/
theorem errorResponse_malformed (failed : Byte) :
    errorResponse .malformed failed = [BitVec.ofNat 32 (7 + failed.toNat * 2 ^ 8)] :=
  congrArg ([·]) (append_bytes_eq_ofNat failed 7)

/-- Settles O30: the registers by `setstResult_get`, the mask of failed keys bit by bit, the two answers of
`finishSetst`. -/
theorem setstAppliesEachKey : Obligations.SetstAppliesEachKey := by
  refine ⟨fun mask v0 v1 v2 v3 v4 => ⟨encode_eq_ofNat _, decode_encode_iff_cp rfl rfl⟩,
    fun mask v0 v1 v2 v3 v4 s => ?_⟩
  have hexec : exec (.setst mask v0 v1 v2 v3 v4) s = finishSetst s (setstResult mask ⟨v0, v1, v2, v3, v4⟩ s.param) :=
    execSetst_eq_finish ..
  obtain ⟨t, hfinish, hparam⟩ := exists_finishSetst s (setstResult mask ⟨v0, v1, v2, v3, v4⟩ s.param)
  refine ⟨t, _, hexec.trans hfinish, fun i => ⟨setstResult_failed_key mask ⟨v0, v1, v2, v3, v4⟩ s.param i, ?_⟩,
    setstResult_failed_lt .., fun hok => ?_, fun hbad => ?_⟩
  · rw [hparam, setstResult_get, registerAfter_selectedValue]
  · rw [finishSetst_ok s hok] at hfinish
    cases hfinish
    rfl
  · rw [finishSetst_failed s hbad, raiseError, errorResponse_malformed] at hfinish
    cases hfinish
    rfl

/-! ### The round trip of GETST and SETST (R134) -/

/-- The clamp leaves every pattern in range as it is: only the zeros share a value, and `-0` is in range for `feedback`
alone. -/
theorem clamp_of_paramInRange {i : ParamId} {v : Word} (h : paramInRange i v = true) : clamp v i.lo i.hi = v := by
  cases hz : isZero v with
  | true =>
    obtain rfl | rfl := (isZero_iff_eq v).mp hz <;> revert h <;> cases i <;> decide
  | false =>
    simp only [paramInRange, Bool.and_eq_true, fle_iff] at h
    obtain ⟨⟨⟨hnlo, hnv, hlo⟩, -, hnhi, hhi⟩, -⟩ := h
    rcases clamp_cases hnv hnlo hnhi with ⟨hle, e⟩ | ⟨-, hge, e⟩ | ⟨-, -, e⟩
    · exact e.trans (eq_of_units_eq (le_antisymm hle hlo) hz).symm
    · exact e.trans (eq_of_units_eq (le_antisymm hhi hge) hz).symm
    · exact e

/-- Settles O32: no key is a NaN, and the clamp leaves each register as it is. -/
theorem stateRoundTrip : Obligations.StateRoundTrip := by
  intro s hinv
  have hrange := (Params.inRange_iff s.param).mp hinv.param_inRange
  have hparam : (setstResult 0x1F s.param s.param).1 = s.param := by
    refine Params.ext_get _ _ fun i => ?_
    rw [setstResult_get, registerAfter_selectedValue, clamp_of_paramInRange (hrange i), ite_self]
  have hfailed : (setstResult 0x1F s.param s.param).2 = 0 := by
    refine setstResult_failed_eq_zero _ _ _ fun i => ?_
    rw [keyFails, (Params.get_of_inRange hinv.param_inRange i).1, Bool.and_false]
  calc exec (.setst 0x1F s.param.rate s.param.depth s.param.delay s.param.feedback s.param.mix) s
      = finishSetst s (setstResult 0x1F s.param s.param) := execSetst_eq_finish ..
    _ = .next (respondOk [] { s with param := s.param }) := by rw [finishSetst_ok s hfailed, hparam]

/-! ### The last accepted write (R135) -/

theorem execSetp_param_get {id : Byte} {v : Word} {s t : State} (h : execSetp id v s = .next t) (i : ParamId) :
    t.param.get i = registerAfter i (acceptedWrite i (.setp id v)) (s.param.get i) := by
  have hlt := i.num_lt
  cases hid : paramOfId id with
  | none =>
    have hunknown := paramOfId_eq_none.mp hid
    cases (execSetp_unknown hunknown v).symm.trans h
    rw [acceptedWrite, if_neg (by omega)]
    rfl
  | some j =>
    have hj := paramOfId_eq_some.mp hid
    have hjlt := j.num_lt
    cases hv : isNaN v with
    | true =>
      cases (execSetp_nan (by omega) hv).symm.trans h
      rw [acceptedWrite, if_neg (by simp [hv])]
      rfl
    | false =>
      cases (execSetp_stores hj hv).symm.trans h
      by_cases hij : i = j
      · subst hij
        rw [acceptedWrite, if_pos ⟨hj, hv⟩]
        exact Params.get_set_same ..
      · rw [acceptedWrite, if_neg fun hwrite => hij (ParamId.num_inj.mp (hwrite.1.symm.trans hj))]
        exact Params.get_set_other _ _ _ _ hij

/-- What a command leaves in a register: the clamp of the value it writes, or what was there. -/
theorem exec_param_get {c : Instr} {s t : State} (h : exec c s = .next t) (i : ParamId) :
    t.param.get i = registerAfter i (acceptedWrite i c) (s.param.get i) := by
  have hother : c.opcode ∉ [.setp, .setst] → t.param.get i = s.param.get i := fun hop => by
    rw [(writersOfEachPieceOfState c s t h).1 hop]
  cases c with
  | setp id v => exact execSetp_param_get h i
  | setst mask v0 v1 v2 v3 v4 =>
    obtain ⟨u, hfinish, hparam⟩ := exists_finishSetst s (setstResult mask ⟨v0, v1, v2, v3, v4⟩ s.param)
    cases h.symm.trans hfinish
    rw [hparam, setstResult_get]
    rfl
  | _ => exact hother (by simp [Instr.opcode])

theorem execAll_cons {c : Instr} {cs : List Instr} {s t : State} (h : execAll (c :: cs) s = some t) :
    ∃ u, exec c s = .next u ∧ execAll cs u = some t := by
  rw [execAll] at h
  split at h
  · exact ⟨_, ‹_›, h⟩
  · cases h
  · cases h

/-- A later accepted write hides an earlier one. -/
theorem registerAfter_lastAccepted_cons (i : ParamId) (c : Instr) (cs : List Instr) (old : Word) :
    registerAfter i (lastAccepted i (c :: cs)) old =
      registerAfter i (lastAccepted i cs) (registerAfter i (acceptedWrite i c) old) := by
  rw [lastAccepted]
  cases lastAccepted i cs <;> rfl

theorem execAll_param_get {cmds : List Instr} {s t : State} (h : execAll cmds s = some t) (i : ParamId) :
    t.param.get i = registerAfter i (lastAccepted i cmds) (s.param.get i) := by
  induction cmds generalizing s with
  | nil => cases h; rfl
  | cons c cs ih =>
    obtain ⟨u, hexec, hrest⟩ := execAll_cons h
    rw [ih hrest, exec_param_get hexec, registerAfter_lastAccepted_cons]

/-- Settles O33: `execAll_param_get`, and GETP answers the live register. -/
theorem lastAcceptedWriteIsRead : Obligations.LastAcceptedWriteIsRead := by
  refine ⟨fun cmds s t i h => execAll_param_get h i, fun cmds t i id hid h => ⟨_, execGetp_reads hid, ?_⟩⟩
  exact congrArg ([okWord, ·]) (execAll_param_get h i)

end Sys2Proof.Machine
end

section
/-! PROOFS. `42_oscillator.md`: the phase increment, the waveform and its table. At a table phase the weight is `+0` and the
waveform is the entry itself; between two table phases both products of `blend` carry the sign of the two entries, so the
whole computation is that of the entries' magnitudes, and `weighted_between` keeps it between them. -/

namespace Sys2Proof.Machine

/-! ### The phase increment (R151) and the accumulator (R152) -/

theorem quotientIncrement_toNat (q : Word) :
    ((quotientIncrement q).toNat : Int) = units q * 2 ^ 32 / 2 ^ 149 % 2 ^ 32 := by
  rw [quotientIncrement, BitVec.toNat_ofInt, Int.toNat_of_nonneg (Int.emod_nonneg _ (by decide))]
  rfl

/-- A rate of `+0` has the increment 0, whichever sign the zero quotient has. -/
theorem quotientIncrement_fdiv_posZero {fs : Word} (hfs : isFinite fs = true) (hz : isZero fs = false) :
    quotientIncrement (fdiv posZero fs) = 0 := by
  rw [fdiv_posZero hfs hz]
  cases signBit fs <;> decide

/-- A sample rate of at least 1 has no sign and is no zero. -/
theorem sampleRate_facts {fs : Word} (h : fle one fs = true) : signBit fs = false ∧ isZero fs = false := by
  have hpos : 0 < units fs := lt_of_lt_of_le (by decide) (fle_iff.mp h).2.2
  refine ⟨signBit_of_units_pos hpos, ?_⟩
  rw [← Bool.not_eq_true, ← units_eq_zero_iff]
  exact hpos.ne'

/-- The rate register holds no sign and at most 100 (R22). -/
theorem rate_facts {rate : Word} (h : paramInRange .rate rate = true) :
    signBit rate = false ∧ magBits rate ≤ magBits hundred := by
  simp only [paramInRange, Bool.and_eq_true, fle_iff, reduceCtorEq, decide_false, Bool.false_or, decide_eq_true_eq] at h
  obtain ⟨⟨⟨-, -, hlo⟩, -, -, hhi⟩, hne⟩ := h
  have hs : signBit rate = false := signBit_of_units_nonneg hlo hne
  exact ⟨hs, (units_le_iff_of_pos hs (by decide)).mp hhi⟩

/-- The quotient of a rate in range by a sample rate of at least 1 has no sign and is at most 100 = 100 / 1. -/
theorem rateQuotient_facts {rate fs : Word} (hr : paramInRange .rate rate = true) (hfs : isFinite fs = true)
    (h1 : fle one fs = true) :
    signBit (fdiv rate fs) = false ∧ magBits (fdiv rate fs) ≤ magBits hundred := by
  obtain ⟨hsr, hmr⟩ := rate_facts hr
  obtain ⟨hsf, hzf⟩ := sampleRate_facts h1
  have hfr : isFinite rate = true := isFinite_of_magBits_le hmr (by decide)
  have hmf : magBits one ≤ magBits fs := (units_le_iff_of_pos (by decide) hsf).mp (fle_iff.mp h1).2.2
  constructor
  · rw [signBit_fdiv hfr hfs hzf, xorSign, hsr, hsf]
    rfl
  · calc magBits (fdiv rate fs) ≤ magBits (fdiv hundred one) :=
          magBits_fdiv_mono hfr hfs hzf (by decide) (by decide) (by decide) hmr hmf
      _ = magBits hundred := by decide

/-- Settles O21: `rateQuotient_facts` bounds the quotient, so that it is finite and has an increment. -/
theorem phaseIncrementIsTruncatedQuotient : Obligations.PhaseIncrementIsTruncatedQuotient := by
  intro rate fs hr hfs h1
  obtain ⟨hs, hm⟩ := rateQuotient_facts hr hfs h1
  have hfin : isFinite (fdiv rate fs) = true := isFinite_of_magBits_le hm (by decide)
  have hn := isNaN_of_isFinite hfin
  refine ⟨quotientIncrement (fdiv rate fs), (phaseIncrement_cfg _ _).trans (if_pos hfin), fle_iff.mpr ⟨by decide, hn, ?_⟩,
    fle_iff.mpr ⟨hn, by decide, ?_⟩, quotientIncrement_toNat _, ?_⟩
  · exact (units_le_iff_of_pos (by decide) hs).mpr (Nat.zero_le _)
  · exact (units_le_iff_of_pos hs (by decide)).mpr hm
  · rintro rfl
    exact quotientIncrement_fdiv_posZero hfs (sampleRate_facts h1).2

/-- A FRAME leaves the phase, or advances it by the increment of an open block (R152, R198). -/
theorem execFrame_phase {xs : List Word} {s t : State} (h : execFrame xs s = .next t) :
    t.phase = s.phase ∨ (s.remain ≠ 0 ∧ t.phase = s.phase + quotientIncrement (fdiv s.snap.rate s.fs)) := by
  obtain ⟨-, rfl⟩ | ⟨-, -, rfl⟩ | ⟨hopen, -, phase, f, ys, lines, hshared, -, rfl⟩ := execFrame_next h
  · exact .inl (raiseError_phase _ _ _)
  · exact .inl (raiseError_phase _ _ _)
  · exact .inr ⟨hopen, (frameShared_eq_ok.mp hshared).2.1⟩

/-- Under an open block PREPARE has succeeded (R40 (d), (e)). -/
theorem State.Inv.configured_of_open {s : State} (h : s.Inv) (hopen : s.remain ≠ 0) : s.Configured :=
  h.configured (by rw [(h.block_open hopen).2.2]; decide)

/-- Settles O22: the phase advances by the increment of rate `+0`. -/
theorem zeroRateHoldsPhase : Obligations.ZeroRateHoldsPhase := by
  intro s t xs hinv hrate h
  obtain hkept | ⟨hopen, hadvanced⟩ := execFrame_phase h
  · exact hkept
  · obtain ⟨hfs, -, hz, -⟩ := (hinv.configured_of_open hopen).fs_facts
    have hinc : quotientIncrement (fdiv s.snap.rate s.fs) = 0 := by
      rw [hrate]
      exact quotientIncrement_fdiv_posZero hfs hz
    rw [hadvanced, hinc]
    exact BitVec.add_zero _

/-! ### The table (R154, R155) -/

theorem quarterTable_eq_written : quarterTable = writtenQuarterWave := rfl

theorem quarterWave_eq_written (k : Nat) : quarterWave k = writtenQuarterWave.getD k 0 :=
  congrArg (List.getD · k 0) quarterTable_eq_written

theorem neg_quarterWave (k : Nat) : neg (quarterWave k) = writtenQuarterWave.getD k 0 ^^^ 0x80000000 := by
  rw [neg_of_not_isNaN (atMostOne_quarterWave k).isNaN, quarterWave_eq_written]

theorem signBit_quarterWave (k : Nat) : signBit (quarterWave k) = false := by
  have hone : ∀ v ∈ quarterTable, signBit v = false := List.all_iff_forall_prop.mp rfl
  rw [quarterWave, List.getD_eq_getElem?_getD]
  cases h : quarterTable[k]? with
  | none => rfl
  | some v => exact hone v (List.mem_of_getElem? h)

theorem sineEntry_first {k : Nat} (h : k ≤ 64) : sineEntry k = quarterWave k := if_pos h

theorem sineEntry_second {k : Nat} (h1 : 64 ≤ k) (h2 : k ≤ 128) : sineEntry k = quarterWave (128 - k) := by
  rcases h1.eq_or_lt with rfl | hlt
  · rfl
  · rw [sineEntry, if_neg (by omega), if_pos h2]

theorem sineEntry_third {k : Nat} (h1 : 128 < k) (h2 : k ≤ 192) : sineEntry k = neg (quarterWave (k - 128)) := by
  rw [sineEntry, if_neg (by omega), if_neg (by omega), if_pos h2]

theorem sineEntry_fourth {k : Nat} (h : 192 ≤ k) : sineEntry k = neg (quarterWave (256 - k)) := by
  rcases h.eq_or_lt with rfl | hlt
  · rfl
  · rw [sineEntry, if_neg (by omega), if_neg (by omega), if_neg (by omega)]

/-! ### Weighted sums of two values of one sign (R109) -/

/-- A magnitude with a sign, as the value of a word has it. -/
def withSign (negative : Bool) (n : Nat) : Int := if negative then -(n : Int) else n

theorem units_eq_withSign (w : Word) : units w = withSign (signBit w) (magUnits w) := rfl

@[simp] theorem withSign_zero (negative : Bool) : withSign negative 0 = 0 := by cases negative <;> rfl

theorem withSign_add (negative : Bool) (a b : Nat) :
    withSign negative a + withSign negative b = withSign negative (a + b) := by
  unfold withSign
  split <;> omega

theorem withSign_not (negative : Bool) (n : Nat) : withSign (!negative) n = -withSign negative n := by
  cases negative <;> simp [withSign]

theorem natAbs_withSign (negative : Bool) (n : Nat) : (withSign negative n).natAbs = n := by
  unfold withSign
  split <;> omega

theorem magUnits_of_units {w : Word} {negative : Bool} {n : Nat} (h : units w = withSign negative n) : magUnits w = n := by
  rw [← natAbs_units, h, natAbs_withSign]

/-- A word whose value has the sign given has that sign itself, or is a zero. -/
theorem signBit_eq_or_eq_zero {w : Word} {negative : Bool} {n : Nat} (h : units w = withSign negative n) :
    signBit w = negative ∨ n = 0 := by
  by_cases hs : signBit w = negative
  · exact .inl hs
  · have hn := natAbs_withSign negative n
    rw [units_eq_withSign, magUnits_of_units h, Bool.eq_not.mpr hs, withSign_not] at h
    exact .inr (by omega)

theorem roundRaw_zero {d : Nat} (hd : 0 < d) : roundRaw 0 d = 0 := by simpa using roundRaw_exact 0 hd

/-- Rounding depends on the quotient alone. -/
theorem roundRaw_congr {n₁ d₁ n₂ d₂ : Nat} (h₁ : 0 < d₁) (h₂ : 0 < d₂) (h : n₁ * d₂ = n₂ * d₁) :
    roundRaw n₁ d₁ = roundRaw n₂ d₂ :=
  Nat.le_antisymm (roundRaw_mono h₁ h₂ h.le) (roundRaw_mono h₂ h₁ h.ge)

theorem signBit_frac24 (n : Nat) : signBit (frac24 n) = false := signBit_roundTo _ _ _

theorem magUnits_frac24 {n : Nat} (h : n < 2 ^ 24) : magUnits (frac24 n) * 2 ^ 24 = n * 2 ^ 149 := by
  have hu := (frac24_exact h).2
  rw [units_of_pos (signBit_frac24 n)] at hu
  exact_mod_cast hu

/-- A weight `a / 2^24` times a word: one rounding of the magnitude, and no larger than the word. -/
theorem magBits_fmul_frac24 {a : Nat} {x : Word} (ha : a < 2 ^ 24) (hx : isFinite x = true) :
    magBits (fmul (frac24 a) x) = roundRaw (a * magUnits x) (2 ^ 24) ∧ roundRaw (a * magUnits x) (2 ^ 24) ≤ magBits x := by
  have hle : roundRaw (a * magUnits x) (2 ^ 24) ≤ magBits x := by
    rw [← roundRaw_exact (magBits x) (Nat.two_pow_pos 24), ← magUnits_eq]
    exact roundRaw_mono (Nat.two_pow_pos 24) (Nat.two_pow_pos 24)
      (Nat.mul_le_mul_right _ (by rw [Nat.mul_comm]; exact Nat.mul_le_mul_left _ ha.le))
  have hcongr : roundRaw (magUnits (frac24 a) * magUnits x) unitsPerOne = roundRaw (a * magUnits x) (2 ^ 24) := by
    refine roundRaw_congr unitsPerOne_pos (Nat.two_pow_pos 24) ?_
    calc magUnits (frac24 a) * magUnits x * 2 ^ 24 = magUnits (frac24 a) * 2 ^ 24 * magUnits x := by ring
      _ = a * 2 ^ 149 * magUnits x := by rw [magUnits_frac24 ha]
      _ = a * magUnits x * unitsPerOne := by rw [unitsPerOne]; ring
  refine ⟨?_, hle⟩
  rw [magBits_fmul (frac24_exact ha).1 hx, roundMag_eq_min, hcongr]
  exact Nat.min_eq_right (hle.trans ((isFinite_iff x).mp hx).le)

theorem units_fmul_frac24 {a n : Nat} {x : Word} {negative : Bool} (ha : a < 2 ^ 24) (hx : isFinite x = true)
    (hs : units x = withSign negative n) :
    units (fmul (frac24 a) x) = withSign negative (magOfBits (roundRaw (a * n) (2 ^ 24))) := by
  obtain ⟨hbits, -⟩ := magBits_fmul_frac24 ha hx
  rw [units_eq_withSign, magUnits_eq, hbits, magUnits_of_units hs]
  rcases signBit_eq_or_eq_zero hs with hsign | rfl
  · rw [signBit_fmul (frac24_exact ha).1 hx, xorSign, hsign, signBit_frac24]
    cases negative <;> rfl
  · rw [Nat.mul_zero, roundRaw_zero (Nat.two_pow_pos 24), magOfBits_zero, withSign_zero, withSign_zero]

/-- A sum of two words of one sign: one rounding of the magnitudes' sum. -/
theorem units_fadd_of_same_sign {x y : Word} {negative : Bool} {m n : Nat} (hx : isFinite x = true)
    (hy : isFinite y = true) (hm : units x = withSign negative m) (hn : units y = withSign negative n)
    (hfin : roundRaw (m + n) 1 ≤ infBits) :
    units (fadd x y) = withSign negative (magOfBits (roundRaw (m + n) 1)) := by
  rw [fadd_of_finite hx hy, hm, hn, withSign_add]
  by_cases h0 : m + n = 0
  · rw [h0, if_pos (withSign_zero _), roundRaw_zero Nat.one_pos, magOfBits_zero,
      withSign_zero]
    split <;> decide
  · have hneg : withSign negative (m + n) ≠ 0 ∧ decide (withSign negative (m + n) < 0) = negative := by
      cases negative <;> simp [withSign] <;> omega
    rw [if_neg hneg.1, hneg.2, natAbs_withSign, units_eq_withSign, signBit_roundTo, magUnits_eq, magBits_roundTo,
      roundMag_eq_min, Nat.min_eq_right hfin]

/-- Two magnitudes so far apart that a weighted sum of theirs, rounded three times, stays between them: the larger is at
least `2^-102`, the smaller is 0 or at least that, and they differ by more than `2^-24` of the larger. -/
def WellApart (m n : Nat) : Prop := 2 ^ 47 ≤ n ∧ (m = 0 ∨ 2 ^ 47 ≤ m) ∧ 2 ^ 24 * m + n < 2 ^ 24 * n

/-- The weighted sum of two words of one sign whose magnitudes are well apart lies between them. -/
theorem units_weightedSum {a b m n : Nat} {p q : Word} {negative : Bool} (ha : 0 < a) (hb : 0 < b) (hab : a + b = 2 ^ 24)
    (hp : isFinite p = true) (hq : isFinite q = true) (hm : units p = withSign negative m)
    (hn : units q = withSign negative n) (hapart : WellApart m n) :
    ∃ r, m ≤ r ∧ r ≤ n ∧ units (fadd (fmul (frac24 a) p) (fmul (frac24 b) q)) = withSign negative r := by
  have hpm : magOfBits (magBits p) = m := (magUnits_eq p).symm.trans (magUnits_of_units hm)
  have hqn : magOfBits (magBits q) = n := (magUnits_eq q).symm.trans (magUnits_of_units hn)
  obtain ⟨hlarge, hsmall, hgap⟩ := hapart
  have hsmall' : magBits p = 0 ∨ 2 ^ 47 ≤ m :=
    hsmall.imp_left fun h => magOfBits_strictMono.injective (hpm.trans h)
  have hbetween := weighted_between (bp := magBits p) (bq := magBits q) ha hb hab
  rw [hpm, hqn] at hbetween
  obtain ⟨hlo, hhi⟩ := hbetween hlarge hsmall' hgap
  obtain ⟨hbp, hlep⟩ := magBits_fmul_frac24 (a := a) (by omega) hp
  obtain ⟨hbq, hleq⟩ := magBits_fmul_frac24 (a := b) (by omega) hq
  have hsum := units_fadd_of_same_sign (isFinite_of_magBits_le (hbp.trans_le hlep) hp)
    (isFinite_of_magBits_le (hbq.trans_le hleq) hq) (units_fmul_frac24 (by omega) hp hm)
    (units_fmul_frac24 (by omega) hq hn) (hhi.trans ((isFinite_iff q).mp hq).le)
  exact ⟨_, hpm.symm.trans_le (magOfBits_le_iff.mpr hlo), (magOfBits_le_iff.mpr hhi).trans_eq hqn, hsum⟩

/-- An exact sum that a word other than a zero stands for is that word. -/
theorem fadd_eq_of_units {a b c : Word} (ha : isFinite a = true) (hb : isFinite b = true) (hc : isNaN c = false)
    (hz : isZero c = false) (h : units a + units b = units c) : fadd a b = c := by
  rw [fadd_of_finite ha hb, h, if_neg (by simp [units_eq_zero_iff, hz]), natAbs_units]
  simp only [units_neg_iff hz, Bool.decide_eq_true]
  rw [← Nat.mul_one (magUnits c)]
  exact roundTo_self hc Nat.one_pos

/-- The complement of a weight is computed exactly. -/
theorem one_fsub_frac24 {m : Nat} (h0 : 0 < m) (h1 : m < 2 ^ 24) : fsub one (frac24 m) = frac24 (2 ^ 24 - m) := by
  obtain ⟨hfin, hval⟩ := frac24_exact h1
  obtain ⟨hfin', hval'⟩ := frac24_exact (n := 2 ^ 24 - m) (by omega)
  have hone : units one = 2 ^ 149 := by decide
  refine fadd_eq_of_units (by decide) (isFinite_neg hfin) (isNaN_of_isFinite hfin') ?_ ?_
  · rw [← Bool.not_eq_true, ← units_eq_zero_iff]
    omega
  · rw [units_neg (isNaN_of_isFinite hfin), hone]
    omega

/-- Between two values, in the one order or the other. -/
def Between (x v y : Int) : Prop := (x ≤ v ∧ v ≤ y) ∨ (y ≤ v ∧ v ≤ x)

theorem Between.left (x y : Int) : Between x x y :=
  (le_total x y).imp (fun h => ⟨le_rfl, h⟩) fun h => ⟨h, le_rfl⟩

/-- Between two values as the comparisons say it (R107). -/
theorem Between.fle {x v y : Word} (h : Between (units x) (units v) (units y)) (hx : isNaN x = false)
    (hv : isNaN v = false) (hy : isNaN y = false) :
    (fle x v = true ∧ fle v y = true) ∨ (fle y v = true ∧ fle v x = true) :=
  h.imp (fun h => ⟨fle_iff.mpr ⟨hx, hv, h.1⟩, fle_iff.mpr ⟨hv, hy, h.2⟩⟩)
    fun h => ⟨fle_iff.mpr ⟨hy, hv, h.1⟩, fle_iff.mpr ⟨hv, hx, h.2⟩⟩

theorem between_withSign {negative : Bool} {a r b : Nat} (h1 : a ≤ r) (h2 : r ≤ b) :
    Between (withSign negative a) (withSign negative r) (withSign negative b) := by
  unfold Between withSign
  split <;> omega

/-- A clamp whose bounds hold both ends does not move what lies between them. -/
theorem Between.clamp_eq {x v y lo hi : Int} (h : Between x v y) (hx : lo ≤ x) (hx' : x ≤ hi) (hy : lo ≤ y)
    (hy' : y ≤ hi) : max lo (min hi v) = v := by
  unfold Between at h
  omega

/-- A blend by a weight `b / 2^24` of two words of one sign whose magnitudes are well apart, whichever is the larger,
lies between them. -/
theorem blend_between {b m n : Nat} {p q : Word} {negative : Bool} (h0 : 0 < b) (h1 : b < 2 ^ 24)
    (hp : isFinite p = true) (hq : isFinite q = true) (hm : units p = withSign negative m)
    (hn : units q = withSign negative n) (hapart : WellApart m n ∨ WellApart n m) :
    Between (units p) (units (blend (frac24 b) p q)) (units q) := by
  rw [blend, one_fsub_frac24 h0 h1]
  rcases hapart with hapart | hapart
  · obtain ⟨r, hlo, hhi, e⟩ := units_weightedSum (a := 2 ^ 24 - b) (by omega) h0 (by omega) hp hq hm hn hapart
    rw [e, hm, hn]
    exact between_withSign hlo hhi
  · obtain ⟨r, hlo, hhi, e⟩ := units_weightedSum (b := 2 ^ 24 - b) h0 (by omega) (by omega) hq hp hn hm hapart
    rw [fadd_comm, e, hm, hn]
    exact (between_withSign hlo hhi).symm

/-! ### The entries by quarters (R154) -/

/-- The table rises, and each entry is well apart from the next. -/
theorem wellApart_quarterWave : ∀ i < 64, WellApart (magUnits (quarterWave i)) (magUnits (quarterWave (i + 1))) := by
  unfold WellApart
  decide

/-- The entries at the distance `i` from each zero of the waveform have the magnitude `Q[i]`, positive in the first half
of the cycle and negative in the second. -/
theorem units_sineEntry {i : Nat} (h : i ≤ 64) :
    units (sineEntry i) = withSign false (magUnits (quarterWave i)) ∧
    units (sineEntry (128 - i)) = withSign false (magUnits (quarterWave i)) ∧
    units (sineEntry (128 + i)) = withSign true (magUnits (quarterWave i)) ∧
    units (sineEntry ((256 - i) % 256)) = withSign true (magUnits (quarterWave i)) := by
  have hpos : units (quarterWave i) = withSign false (magUnits (quarterWave i)) := units_of_pos (signBit_quarterWave i)
  have hneg : units (neg (quarterWave i)) = withSign true (magUnits (quarterWave i)) := by
    rw [units_neg (atMostOne_quarterWave i).isNaN, hpos]
    rfl
  refine ⟨by rwa [sineEntry_first h], ?_, ?_, ?_⟩
  · rwa [sineEntry_second (by omega) (by omega), show 128 - (128 - i) = i by omega]
  · rcases Nat.eq_zero_or_pos i with rfl | h0
    · decide
    · rwa [sineEntry_third (by omega) (by omega), Nat.add_sub_cancel_left]
  · rcases Nat.eq_zero_or_pos i with rfl | h0
    · decide
    · rwa [Nat.mod_eq_of_lt (by omega), sineEntry_fourth (by omega), show 256 - (256 - i) = i by omega]

/-- No entry is `-0`: a negative entry is at least `Q[1]` in magnitude. -/
theorem sineEntry_ne_negZero {k : Nat} (hk : k < 2 ^ 8) : sineEntry k ≠ negZero := by
  have hpos : ∀ i, quarterWave i ≠ negZero := fun i h => by
    have hs := signBit_quarterWave i
    rw [h] at hs
    exact absurd hs (by decide)
  have hneg : ∀ i, 0 < i → i ≤ 64 → neg (quarterWave i) ≠ negZero := fun i h0 h64 h => by
    obtain ⟨hlarge, -, -⟩ := wellApart_quarterWave (i - 1) (by omega)
    rw [Nat.sub_add_cancel h0, ← magUnits_neg (atMostOne_quarterWave i).isNaN, h] at hlarge
    exact absurd hlarge (by decide)
  unfold sineEntry
  split_ifs
  · exact hpos _
  · exact hpos _
  · exact hneg _ (by omega) (by omega)
  · exact hneg _ (by omega) (by omega)

/-- Adjacent entries are, under one sign, adjacent values of the quarter wave, rising or falling. -/
theorem units_sineEntry_adjacent {k : Nat} (hk : k < 2 ^ 8) : ∃ (negative : Bool) (m n : Nat),
    units (sineEntry k) = withSign negative m ∧ units (sineEntry ((k + 1) % 256)) = withSign negative n ∧
    (WellApart m n ∨ WellApart n m) := by
  obtain ⟨i, hi, hquarter⟩ : ∃ i < 64, (k = i ∧ (k + 1) % 256 = i + 1) ∨
      (k = 128 - (i + 1) ∧ (k + 1) % 256 = 128 - i) ∨ (k = 128 + i ∧ (k + 1) % 256 = 128 + (i + 1)) ∨
      (k = (256 - (i + 1)) % 256 ∧ (k + 1) % 256 = (256 - i) % 256) := by
    have h : k < 64 ∨ (64 ≤ k ∧ k < 128) ∨ (128 ≤ k ∧ k < 192) ∨ 192 ≤ k := by omega
    rcases h with h | h | h | h
    · exact ⟨k, by omega, by omega⟩
    · exact ⟨127 - k, by omega, by omega⟩
    · exact ⟨k - 128, by omega, by omega⟩
    · exact ⟨255 - k, by omega, by omega⟩
  have hapart := wellApart_quarterWave i hi
  obtain ⟨here₁, here₂, here₃, here₄⟩ := units_sineEntry (i := i) hi.le
  obtain ⟨next₁, next₂, next₃, next₄⟩ := units_sineEntry (i := i + 1) hi
  rcases hquarter with ⟨e, e'⟩ | ⟨e, e'⟩ | ⟨e, e'⟩ | ⟨e, e'⟩ <;> rw [e', e]
  · exact ⟨_, _, _, here₁, next₁, .inl hapart⟩
  · exact ⟨_, _, _, next₂, here₂, .inr hapart⟩
  · exact ⟨_, _, _, here₃, next₃, .inl hapart⟩
  · exact ⟨_, _, _, next₄, here₄, .inr hapart⟩

/-! ### The waveform at a phase (R154) -/

theorem phaseSegment_ofNat {k m : Nat} (hk : k < 2 ^ 8) (hm : m < 2 ^ 24) :
    phaseSegment (BitVec.ofNat 32 (k * 2 ^ 24 + m)) = k := by
  rw [phaseSegment, BitVec.extractLsb'_toNat, BitVec.toNat_ofNat, Nat.shiftRight_eq_div_pow]
  omega

theorem phaseFraction_ofNat (k : Nat) {m : Nat} (hm : m < 2 ^ 24) :
    phaseFraction (BitVec.ofNat 32 (k * 2 ^ 24 + m)) = frac24 m := by
  rw [phaseFraction, BitVec.extractLsb'_toNat, BitVec.toNat_ofNat, Nat.shiftRight_zero]
  congr 1
  omega

theorem sineBlend_ofNat {k m : Nat} (hk : k < 2 ^ 8) (hm : m < 2 ^ 24) :
    sineBlend (BitVec.ofNat 32 (k * 2 ^ 24 + m)) = blend (frac24 m) (sineEntry k) (sineEntry ((k + 1) % 256)) := by
  rw [sineBlend, phaseSegment_ofNat hk hm, phaseFraction_ofNat k hm]

theorem AtMostOne.units_range {v : Word} (h : AtMostOne v) : units negOne ≤ units v ∧ units v ≤ units one := by
  have hle := h.magUnits_le
  rw [units_of_neg (show signBit negOne = true by decide), units_of_pos (show signBit one = false by decide),
    show magUnits negOne = magUnits one by decide]
  unfold units
  split <;> omega

/-- The final clamp does not move a value within its bounds. -/
theorem sineClamp_of_atMostOne {v : Word} (h : AtMostOne v) : sineClamp v = v := by
  obtain ⟨hlo, hhi⟩ := h.units_range
  rw [sineClamp_eq_clamp]
  rcases clamp_cases h.isNaN (lo := negOne) (hi := one) (by decide) (by decide) with
    ⟨hle, e⟩ | ⟨-, hge, e⟩ | ⟨-, -, e⟩
  · exact e.trans (eq_of_units_eq (hlo.antisymm hle) (by decide))
  · exact e.trans (eq_of_units_eq (hge.antisymm hhi) (by decide))
  · exact e

/-- At a table phase the waveform is the entry. -/
theorem sineTable_at_entry {k : Nat} (hk : k < 2 ^ 8) : sineTable (BitVec.ofNat 32 (k * 2 ^ 24)) = sineEntry k := by
  have hblend := sineBlend_ofNat hk (Nat.two_pow_pos 24)
  rw [Nat.add_zero, show frac24 0 = posZero by decide,
    blend_zero (atMostOne_sineEntry _).isFinite (atMostOne_sineEntry _).isFinite,
    if_neg fun h => sineEntry_ne_negZero hk h.1] at hblend
  rw [sineTable, hblend, sineClamp_of_atMostOne (atMostOne_sineEntry k)]

theorem sineTable_at_next (k : Nat) :
    sineTable (BitVec.ofNat 32 ((k + 1) % 256 * 2 ^ 24)) = sineEntry ((k + 1) % 256) :=
  sineTable_at_entry (Nat.mod_lt _ (by decide))

/-- The value lies between the two entries: at a table phase it is the first, elsewhere the blend is between them and the
clamp does not move it. -/
theorem sineTable_between {k m : Nat} (hk : k < 2 ^ 8) (hm : m < 2 ^ 24) :
    Between (units (sineEntry k)) (units (sineTable (BitVec.ofNat 32 (k * 2 ^ 24 + m))))
      (units (sineEntry ((k + 1) % 256))) := by
  rcases Nat.eq_zero_or_pos m with rfl | h0
  · rw [Nat.add_zero, sineTable_at_entry hk]
    exact Between.left _ _
  · obtain ⟨negative, a, b, ha, hb, hapart⟩ := units_sineEntry_adjacent hk
    have hbetween := blend_between h0 hm (atMostOne_sineEntry k).isFinite
      (atMostOne_sineEntry ((k + 1) % 256)).isFinite ha hb hapart
    obtain ⟨hlo, hhi⟩ := (atMostOne_sineEntry k).units_range
    obtain ⟨hlo', hhi'⟩ := (atMostOne_sineEntry ((k + 1) % 256)).units_range
    rw [← sineBlend_ofNat hk hm] at hbetween
    have hclamp := units_clamp (isNaN_sineBlend (BitVec.ofNat 32 (k * 2 ^ 24 + m))) (lo := negOne) (hi := one)
      (by decide) (by decide) (by decide)
    rw [← sineClamp_eq_clamp, hbetween.clamp_eq hlo hhi hlo' hhi'] at hclamp
    rw [sineTable, hclamp]
    exact hbetween

/-- Settles O20: `sineTable_between`, where the two entries are the waveform's own values. -/
theorem sineLiesBetweenItsEntries : Obligations.SineLiesBetweenItsEntries := by
  intro k m hk hm
  have hbetween := sineTable_between hk hm
  rw [← sineTable_at_entry hk, ← sineTable_at_next] at hbetween
  exact hbetween.fle (sineTable_range _).1 (sineTable_range _).1 (sineTable_range _).1

/-- A weight is given by its value, and it carries no sign. -/
theorem eq_frac24 {f : Word} {m : Nat} (hm : m < 2 ^ 24) (hs : signBit f = false)
    (h : units f * 2 ^ 24 = (m : Int) * 2 ^ 149) : f = frac24 m := by
  have hmag : magUnits f = magUnits (frac24 m) := by
    have hfrac := magUnits_frac24 hm
    rw [units_of_pos hs] at h
    omega
  rw [magUnits_eq, magUnits_eq] at hmag
  exact word_ext (hs.trans (signBit_frac24 m).symm) (magOfBits_strictMono.injective hmag)

/-- Settles O19: S2 is `sineTable_range`, the entries by `sineTable_at_entry` and the quarters of `sineEntry`, the rest is
`sineBlend_ofNat` under the clamp. -/
theorem sineKeepsItsContract : Obligations.SineKeepsItsContract := by
  refine ⟨sineTable_range, by decide, by decide, by decide, by decide, fun k => ⟨fun h => ?_, fun h1 h2 => ?_,
    fun h1 h2 => ?_, fun h1 h2 => ?_⟩, fun k m f v hk hm _ hs hf hv => ?_⟩
  · exact (sineTable_at_entry (by omega)).trans ((sineEntry_first h).trans (quarterWave_eq_written k))
  · exact (sineTable_at_entry (by omega)).trans ((sineEntry_second h1.le h2).trans (quarterWave_eq_written _))
  · exact (sineTable_at_entry (by omega)).trans ((sineEntry_third h1 h2).trans (neg_quarterWave _))
  · exact (sineTable_at_entry (by omega)).trans ((sineEntry_fourth h1.le).trans (neg_quarterWave _))
  · have hblend : v = blend (frac24 m) (sineEntry k) (sineEntry ((k + 1) % 256)) := by
      rw [← sineTable_at_entry hk, ← sineTable_at_next, ← eq_frac24 hm hs hf]
      exact hv
    rw [hblend, ← sineBlend_ofNat hk hm]
    rfl

end Sys2Proof.Machine
end

section
/-! PROOFS. `43_delay_line.md`: the split of a delay, the delay length of a frame, the taps, and a FRAME on cleared lines.
The fractional part of a value keeps its last place, so `df` is exact; `MAXD` bounds every time in ms that a frame turns
into samples, so the raw delay is no NaN and the clamp of R164 puts `di` between 1 and `CAP - 1`. -/

namespace Sys2Proof.Machine

/-! ### The split (R165, R114 (L5)) -/

/-- A finite magnitude has 24 significant bits. -/
theorem exists_magUnits_eq {w : Word} (h : isFinite w = true) : ∃ r s, r < 2 ^ 24 ∧ s ≤ 253 ∧ magUnits w = r * 2 ^ s := by
  have hbits : magBits w < 255 * 2 ^ 23 := (isFinite_iff w).mp h
  refine ⟨significand (magBits w), patternShift (magBits w), ?_, ?_, by rw [magUnits_eq, magOfBits_eq_significand]⟩
  · unfold significand patternShift
    omega
  · unfold patternShift
    omega

/-- The remainder by a power of two keeps the last place. -/
theorem exists_mul_two_pow_mod (r s t : Nat) : ∃ k ≤ r, r * 2 ^ s % 2 ^ t = k * 2 ^ s := by
  rcases le_total t s with h | h
  · exact ⟨0, Nat.zero_le r, by rw [Nat.zero_mul, Nat.mod_eq_zero_of_dvd ((pow_dvd_pow 2 h).mul_left r)]⟩
  · refine ⟨r % 2 ^ (t - s), Nat.mod_le _ _, ?_⟩
    conv_lhs => rw [← Nat.sub_add_cancel h, Nat.pow_add, Nat.mul_mod_mul_right]

/-- A sum without sign that has 24 significant bits is computed exactly. -/
theorem fadd_exact {a b : Word} {r s : Nat} (ha : isFinite a = true) (hb : isFinite b = true) (hr : r < 2 ^ 24)
    (hs : s ≤ 253) (h : units a + units b = (r * 2 ^ s : Nat)) :
    isFinite (fadd a b) = true ∧ units (fadd a b) = (r * 2 ^ s : Nat) := by
  rw [fadd_of_finite ha hb, h]
  by_cases h0 : ((r * 2 ^ s : Nat) : Int) = 0
  · rw [if_pos h0, h0]
    split <;> decide
  · rw [if_neg h0, decide_eq_false (Int.natCast_nonneg _).not_gt, Int.natAbs_natCast, ← Nat.mul_one (r * 2 ^ s)]
    simpa using roundTo_exact hr hs Nat.one_pos

/-- `fsub(d, float(di))` is the fractional part of `d`, exactly. -/
theorem delayFraction_exact {d : Word} {n : Nat} (hfin : isFinite d = true) (hn : n < 2 ^ 24)
    (hfloor : units d / 2 ^ 149 = n) :
    isFinite (delayFraction Config.cfg d n) = true ∧ units (delayFraction Config.cfg d n) = units d % 2 ^ 149 := by
  obtain ⟨hffin, hfval⟩ := floatOfNat_exact hn
  have hmag : units d = magUnits d := by
    have habs := natAbs_units d
    omega
  obtain ⟨r, s, hr, hs, hrs⟩ := exists_magUnits_eq hfin
  obtain ⟨k, hk, hmod⟩ := exists_mul_two_pow_mod r s 149
  have hrem : units d % 2 ^ 149 = (k * 2 ^ s : Nat) := by rw [hmag, hrs, ← hmod]; rfl
  have hsum : units d + units (neg (floatOfNat n)) = (k * 2 ^ s : Nat) := by
    rw [units_neg (isNaN_of_isFinite hffin), hfval, ← hrem]
    omega
  rw [hrem]
  exact fadd_exact hfin (isFinite_neg hffin) (hk.trans_lt hr) hs hsum

theorem splitDelay_of_finite {d : Word} {n : Nat} (hfin : isFinite d = true) (hfloor : units d / 2 ^ 149 = n) :
    splitDelay Config.cfg d = .ok (n, delayFraction Config.cfg d n) := by
  rw [splitDelay, cfg_num, binary32_floorInt, floorInt_of_finite hfin, show (unitsPerOne : Int) = 2 ^ 149 from rfl, hfloor]
  rfl

/-- Settles O18: the whole samples are the quotient of the value by `2^149` units, the fraction its remainder. -/
theorem delaySplitIsExact : Obligations.DelaySplitIsExact := by
  intro d hfin hlow hhigh
  have hone : 2 ^ 149 ≤ units d := (fle_iff.mp hlow).2.2
  obtain ⟨n, hfloor⟩ : ∃ n : Nat, units d / 2 ^ 149 = n := Int.eq_ofNat_of_zero_le (by omega)
  obtain ⟨hdf, hval⟩ := delayFraction_exact hfin (by omega) hfloor
  exact ⟨n, _, splitDelay_of_finite hfin hfloor, by omega, hdf, by omega, by omega, by omega⟩

/-! ### The raw delay (R163) -/

/-- A register of a file in range, but for `feedback`, has no sign and at most the magnitude of its upper bound (R22). -/
theorem Params.magnitude_of_inRange {p : Params} (h : p.inRange = true) {i : ParamId} (hi : i ≠ .feedback) :
    signBit (p.get i) = false ∧ magBits (p.get i) ≤ magBits i.hi := by
  obtain ⟨-, hlo, hhi, hz⟩ := Params.get_of_inRange h i
  have hlo0 : 0 ≤ units i.lo := by
    cases i with
    | feedback => exact absurd rfl hi
    | _ => decide
  have hsign : signBit (p.get i) = false := signBit_of_units_nonneg (hlo0.trans hlo) (hz.resolve_left hi)
  exact ⟨hsign, (units_le_iff_of_pos hsign (by cases i <;> decide)).mp hhi⟩

/-- A factor of magnitude at most 1 does not make a word larger. -/
theorem magBits_fmul_le_of_atMostOne {a x : Word} (ha : AtMostOne a) (hx : isFinite x = true) :
    magBits (fmul a x) ≤ magBits x :=
  calc magBits (fmul a x) ≤ magBits (fmul one x) := magBits_fmul_mono ha.isFinite hx (by decide) hx ha le_rfl
    _ = magBits x := by rw [fmul_one (isNaN_of_isFinite hx)]

/-- The range of values [-1, 1], read off the pattern. -/
theorem atMostOne_of_units_range {v : Word} (hlo : units negOne ≤ units v) (hhi : units v ≤ units one) : AtMostOne v := by
  have hmag : magUnits v ≤ magUnits one := by
    rw [units_of_neg (show signBit negOne = true by decide), show magUnits negOne = magUnits one by decide] at hlo
    rw [units_of_pos (show signBit one = false by decide)] at hhi
    rw [← natAbs_units v]
    omega
  rwa [magUnits_eq, magUnits_eq, magOfBits_le_iff] at hmag

/-- S2 of R153, as a magnitude. -/
theorem atMostOne_oscillatorValue (phase : BitVec 32) : AtMostOne (oscillatorValue Config.cfg phase) := by
  obtain ⟨-, hlo, hhi⟩ := sineTable_range phase
  rw [oscillatorValue, show Config.cfg.sine = sineTable from rfl]
  exact atMostOne_of_units_range (fle_iff.mp hlo).2.2 (fle_iff.mp hhi).2.2

section
variable {s : State} (h : s.Configured) (hsnap : s.snap.inRange = true)
include h hsnap

/-- The centre delay is finite and has no sign. -/
theorem State.Configured.centre_facts :
    isFinite (msToSamples s.snap.delay s.fs) = true ∧ signBit (msToSamples s.snap.delay s.fs) = false := by
  obtain ⟨hsign, hmag⟩ := Params.magnitude_of_inRange hsnap (i := .delay) (by decide)
  obtain ⟨hfs, hsfs, -, -⟩ := h.fs_facts
  have hms : isFinite s.snap.delay = true := isFinite_of_magBits_le hmag (by decide)
  obtain ⟨hprod, hfin, -⟩ := h.msToSamples_le hms (hmag.trans (by decide))
  exact ⟨hfin, signBit_msToSamples hms hfs hprod hsign hsfs⟩

theorem State.Configured.isNaN_rawDelay (phase : BitVec 32) :
    isNaN (rawDelay Config.cfg s.snap.delay s.snap.depth s.fs s.excs (oscillatorValue Config.cfg phase)) = false := by
  have hdepth : AtMostOne s.snap.depth := (Params.magnitude_of_inRange hsnap (i := .depth) (by decide)).2
  obtain ⟨hexcs, -⟩ := h.excs_facts
  have hscaled : isFinite (fmul s.snap.depth s.excs) = true :=
    isFinite_of_magBits_le (magBits_fmul_le_of_atMostOne hdepth hexcs) hexcs
  exact isNaN_fadd (h.centre_facts hsnap).1 (isNaN_fmul hscaled (atMostOne_oscillatorValue phase).isFinite)

end

/-- Settles O23: the modulation is a zero, and the centre delay is not `-0`, which alone a zero could change. -/
theorem zeroDepthGivesCentreDelay : Obligations.ZeroDepthGivesCentreDelay := by
  intro s hinv heng hdepth phase
  have hcfg := hinv.configured heng
  obtain ⟨hexcs, hsexcs⟩ := hcfg.excs_facts
  obtain ⟨hcentre, hscentre⟩ := hcfg.centre_facts hinv.snap_inRange
  have hscaled : fmul s.snap.depth s.excs = posZero := by
    rw [hdepth, show (0x00000000 : Word) = posZero from rfl, fmul_posZero hexcs, hsexcs]
    rfl
  have hne : msToSamples s.snap.delay s.fs ≠ negZero := fun he => by
    rw [he] at hscentre
    exact absurd hscentre (by decide)
  rw [rawDelay_cfg, hscaled, fmul_posZero (atMostOne_oscillatorValue phase).isFinite]
  exact (fadd_signedZero (isNaN_of_isFinite hcentre)).trans (if_neg fun hz => hne hz.1)

/-! ### The delay length (R164) -/

/-- The clamp's upper bound is the larger of `MAXD` and 1. -/
theorem delayCeiling_facts {maxd : Word} (hmaxd : isFinite maxd = true) :
    isFinite (delayCeiling Config.cfg maxd) = true ∧
      units (delayCeiling Config.cfg maxd) = max (units one) (units maxd) := by
  have hge : fge maxd one = true ↔ units one ≤ units maxd :=
    fle_iff.trans (by simp [isNaN_of_isFinite hmaxd, show isNaN one = false by decide])
  unfold delayCeiling
  rw [cfg_num, binary32_fge]
  split <;> rename_i hcmp <;> rw [hge] at hcmp
  · exact ⟨hmaxd, (max_eq_right hcmp).symm⟩
  · exact ⟨by decide, (max_eq_left (not_le.mp hcmp).le).symm⟩

/-- The delay length is finite and lies between 1 and the larger of `MAXD` and 1. -/
theorem delayLength_facts {draw maxd : Word} (hdraw : isNaN draw = false) (hmaxd : isFinite maxd = true) :
    isFinite (delayLength Config.cfg draw maxd) = true ∧ units one ≤ units (delayLength Config.cfg draw maxd) ∧
      units (delayLength Config.cfg draw maxd) ≤ max (units one) (units maxd) := by
  obtain ⟨hhi, hval⟩ := delayCeiling_facts hmaxd
  have hone : units one ≤ units (delayCeiling Config.cfg maxd) := hval ▸ le_max_left _ _
  have hclamp := units_clamp hdraw (show isFinite one = true by decide) hhi hone
  rw [show clamp draw one (delayCeiling Config.cfg maxd) = delayLength Config.cfg draw maxd from rfl] at hclamp
  have hlo : units one ≤ units (delayLength Config.cfg draw maxd) := hclamp ▸ le_max_left _ _
  have hle : units (delayLength Config.cfg draw maxd) ≤ units (delayCeiling Config.cfg maxd) :=
    hclamp ▸ max_le hone (min_le_left _ _)
  have hsign : ∀ {w : Word}, units one ≤ units w → signBit w = false :=
    fun hw => signBit_of_units_pos (lt_of_lt_of_le (by decide) hw)
  exact ⟨isFinite_of_magBits_le ((units_le_iff_of_pos (hsign hlo) (hsign hone)).mp hle) hhi, hlo, hval ▸ hle⟩

/-- A delay between 1 and the larger of `MAXD` and 1 has its whole samples between 1 and `CAP - 1` (R162, R169). -/
theorem State.Configured.wholeSamples_range {s : State} (h : s.Configured) {u : Int} (hlo : units one ≤ u)
    (hhi : u ≤ max (units one) (units s.maxd)) : ∃ n : Nat, u / 2 ^ 149 = n ∧ 1 ≤ n ∧ n + 1 ≤ s.cap := by
  obtain ⟨-, hcap⟩ := capacityOf_eq_some h.cap_eq
  have htwo := h.two_le_cap
  rw [show (unitsPerOne : Int) = 2 ^ 149 from rfl] at hcap
  rw [show units one = 2 ^ 149 by decide] at hlo hhi
  obtain ⟨n, hn⟩ : ∃ n : Nat, u / 2 ^ 149 = n := Int.eq_ofNat_of_zero_le (by omega)
  exact ⟨n, hn, by omega, by omega⟩

/-- What the channels of a frame share exists, and its delay fits the line (R163 to R165, R169, R199). -/
theorem State.Inv.frameShared_facts {s : State} (h : s.Inv) (heng : s.eng ≠ .uninit) :
    ∃ (phase : BitVec 32) (f : FrameShared), frameShared Config.cfg s = .ok (phase, f) ∧ f.snap = s.snap ∧
      f.cap = s.cap ∧ 1 ≤ f.di ∧ f.di + 1 ≤ s.cap ∧ isFinite f.df = true := by
  have hcfg := h.configured heng
  have hrate : isFinite (fdiv s.snap.rate s.fs) = true :=
    isFinite_of_magBits_le
      (rateQuotient_facts ((Params.inRange_iff _).mp h.snap_inRange .rate) hcfg.fs_finite hcfg.fsMin_le).2 (by decide)
  obtain ⟨phase, hphase⟩ : ∃ p, p = s.phase + quotientIncrement (fdiv s.snap.rate s.fs) := ⟨_, rfl⟩
  obtain ⟨hfin, hlo, hhi⟩ : isFinite (frameDelay Config.cfg s phase) = true ∧
      units one ≤ units (frameDelay Config.cfg s phase) ∧
      units (frameDelay Config.cfg s phase) ≤ max (units one) (units s.maxd) :=
    delayLength_facts (hcfg.isNaN_rawDelay h.snap_inRange phase) hcfg.maxd_facts.1
  obtain ⟨n, hfloor, hone, hcap⟩ := hcfg.wholeSamples_range hlo hhi
  have hdepth : s.cap ≤ 32768 := hcfg.cap_le_depth
  refine ⟨phase, _, frameShared_eq_ok.mpr ⟨hrate, hphase, n, (floorInt_of_finite hfin).trans (congrArg some hfloor), rfl⟩,
    rfl, rfl, hone, hcap, (delayFraction_exact hfin (by omega) hfloor).1⟩

/-! ### The taps (R166, R169) -/

/-- A tap is at the cursor itself exactly when it is whole turns of the line back. -/
theorem tapAddress_eq_self_iff {w k cap : Nat} (hw : w < cap) : tapAddress w k cap = w ↔ cap ∣ k := by
  have hself : (w : Int) % cap = w := Int.emod_eq_of_lt (Int.natCast_nonneg w) (Int.ofNat_lt.mpr hw)
  have hnonneg : 0 ≤ ((w : Int) - k) % cap := Int.emod_nonneg _ (by omega)
  calc tapAddress w k cap = w ↔ ((w : Int) - k) % cap = (w : Int) % cap := by unfold tapAddress; omega
    _ ↔ (cap : Int) ∣ (w : Int) - (w - k) := Int.modEq_iff_dvd
    _ ↔ cap ∣ k := by rw [sub_sub_cancel, Int.natCast_dvd_natCast]

/-- Settles O24: by `tapAddress_eq_self_iff` a tap meets the cursor only a whole turn back, and `di < CAP`. -/
theorem tapsStayInsideTheLine : Obligations.TapsStayInsideTheLine := by
  intro s hinv heng
  obtain ⟨phase, f, hshared, -, -, hone, hcap, -⟩ := hinv.frameShared_facts heng
  refine ⟨phase, f, hshared, hone, hcap, fun w hw => ?_⟩
  have hpos : 0 < s.cap := Nat.zero_lt_of_lt hw
  refine ⟨tapAddress_lt _ _ hpos, tapAddress_lt _ _ hpos, ?_, ?_⟩
  · rw [ne_eq, tapAddress_eq_self_iff hw]
    exact Nat.not_dvd_of_pos_of_lt hone hcap
  · rw [tapAddress_eq_self_iff hw]
    exact ⟨fun hdvd => hcap.antisymm (Nat.le_of_dvd (Nat.succ_pos _) hdvd), fun heq => heq ▸ dvd_rfl⟩

/-! ### A FRAME on cleared lines (R170) -/

/-- A FRAME that fits the open block completes (R198, R199). -/
theorem State.Inv.execFrame_completes {s : State} {xs : List Word} (h : s.Inv) (hopen : s.remain ≠ 0)
    (hlen : xs.length = s.blkch) :
    ∃ (phase : BitVec 32) (f : FrameShared) (ys : List Word) (lines : List Line), f.snap = s.snap ∧ f.cap = s.cap ∧
      isFinite f.df = true ∧ stepLines Config.cfg f xs s.lines = .ok (ys, lines) ∧
      execFrame xs s = .next (respondOk ys { s with phase := phase, lines := lines, remain := s.remain - 1 }) := by
  have hcfg := h.configured_of_open hopen
  obtain ⟨-, hblkch, heng⟩ := h.block_open hopen
  obtain ⟨phase, f, hshared, hsnap, hcap, -, -, hdf⟩ := h.frameShared_facts (by rw [heng]; decide)
  obtain ⟨ys, lines, hlines⟩ := stepLines_total Config.cfg f xs s.lines (by rw [hlen, h.lines_length]; exact hblkch)
    (hcap ▸ hcfg.cursor_lt) (hcap ▸ hcfg.written)
  exact ⟨phase, f, ys, lines, hsnap, hcap, hdf, hlines, execFrame_steps hopen hlen hshared hlines⟩

/-- On a line of zeros the interpolated read is `+0`, whatever the delay. -/
theorem readDelayed_of_cleared {cap di : Nat} {df delayed : Word} {l : Line} (hdf : isFinite df = true)
    (hzero : ∀ a < cap, l.buf.read a = some posZero) (h : readDelayed Config.cfg cap di df l = .ok delayed) :
    delayed = posZero := by
  obtain ⟨a, b, ha, hreada, hb, hreadb, rfl⟩ := readDelayed_eq_ok.mp h
  obtain rfl : posZero = a := Option.some.inj ((hzero _ ha).symm.trans hreada)
  obtain rfl : posZero = b := Option.some.inj ((hzero _ hb).symm.trans hreadb)
  exact blend_of_zeros hdf

/-- Settles O41: each channel's step reads `+0`, and the rest is R181 to R183 with that value. -/
theorem clearedLinesAreSilent : Obligations.ClearedLinesAreSilent := by
  intro s xs hinv hopen hlen hzero
  obtain ⟨phase, f, ys, lines, hsnap, hcap, hdf, hlines, hexec⟩ := hinv.execFrame_completes hopen hlen
  obtain ⟨-, -, -, hstepped, -⟩ := stepLines_ok hlines
  refine ⟨_, ys, hexec, rfl, fun c x hx => ?_⟩
  obtain ⟨y, l, l', hl, hy, hl', hline⟩ := hstepped c x hx
  obtain ⟨delayed, hread, rfl, -, rfl⟩ := stepLine_eq_ok.mp hline
  have hcleared : ∀ a < f.cap, l.buf.read a = some posZero := fun a ha => by
    have hram := hzero c (List.getElem?_eq_some_iff.mp hx).1 a (hcap ▸ ha)
    rwa [State.ram, hl] at hram
  obtain rfl := readDelayed_of_cleared hdf hcleared hread
  rw [hsnap] at hy hl'
  refine ⟨hy, l.w, by rw [State.cursor, hl]; rfl, ?_⟩
  rw [State.ram, respondOk_lines, hl']
  exact Memory.read_write_same _ _ _

end Sys2Proof.Machine
end

section
/-! PROOFS. `44_feedback_mix.md` R183: at mix 0 the samples pass unchanged, and the mix parameter reaches the outputs of a
frame alone, not its phase and not its lines (R181, R185). -/

namespace Sys2Proof.Machine

/-! ### The dry bypass (R183) -/

theorem mixOutput_posZero (x delayed : Word) : mixOutput Config.cfg posZero x delayed = x := by
  rw [mixOutput_cfg, if_pos (by decide)]

/-- At mix 0 the loop over the channels answers the samples themselves, whatever the lines hold. -/
theorem stepLines_dry {f : FrameShared} {xs ys : List Word} {ls ls' : List Line} (hmix : f.snap.mix = posZero)
    (h : stepLines Config.cfg f xs ls = .ok (ys, ls')) : ys = xs := by
  obtain ⟨hlen, -, -, hstepped, -⟩ := stepLines_ok h
  refine List.ext_getElem? fun c => ?_
  cases hx : xs[c]? with
  | none => exact List.getElem?_eq_none (hlen ▸ List.getElem?_eq_none_iff.mp hx)
  | some x =>
    obtain ⟨y, l, l', -, hy, -, hline⟩ := hstepped c x hx
    obtain ⟨delayed, -, rfl, -, -⟩ := stepLine_eq_ok.mp hline
    rw [hy, hmix, mixOutput_posZero]

/-! ### A FRAME at another mix (R181, R185) -/

/-- What the channels of a frame share, with another mix in the snapshot. -/
def FrameShared.withMix (f : FrameShared) (m : Word) : FrameShared := { f with snap := { f.snap with mix := m } }

/-- The oscillator and the delay length do not read the mix (R151, R163). -/
theorem frameShared_withMix {cfg : Config.Cfg} {s : State} {phase : BitVec 32} {f : FrameShared} (m : Word)
    (h : frameShared cfg s = .ok (phase, f)) :
    frameShared cfg { s with snap := { s.snap with mix := m } } = .ok (phase, f.withMix m) := by
  obtain ⟨hrate, hphase, n, hdelay, rfl⟩ := frameShared_eq_ok.mp h
  exact frameShared_eq_ok.mpr ⟨hrate, hphase, n, hdelay, rfl⟩

/-- The word stored in a line is fed by the delayed value, not by the output (R181). -/
theorem stepLine_withMix {cfg : Config.Cfg} {f : FrameShared} {x y : Word} {l l' : Line} (m : Word)
    (h : stepLine cfg f x l = .ok (y, l')) : ∃ y', stepLine cfg (f.withMix m) x l = .ok (y', l') := by
  obtain ⟨delayed, hread, -, hw, rfl⟩ := stepLine_eq_ok.mp h
  exact ⟨_, stepLine_eq_ok.mpr ⟨delayed, hread, rfl, hw, rfl⟩⟩

/-- The loop over a first channel and the others answers when both parts do. -/
theorem stepLines_cons_eq_ok {cfg : Config.Cfg} {f : FrameShared} {x : Word} {xs zs : List Word} {l : Line}
    {ls ks : List Line} :
    stepLines cfg f (x :: xs) (l :: ls) = .ok (zs, ks) ↔
      ∃ y l' ys ls', stepLine cfg f x l = .ok (y, l') ∧ stepLines cfg f xs ls = .ok (ys, ls') ∧
        zs = y :: ys ∧ ks = l' :: ls' := by
  cases hline : stepLine cfg f x l with
  | error e => simp [stepLines, hline]
  | ok r =>
    obtain ⟨y, l'⟩ := r
    cases hrest : stepLines cfg f xs ls with
    | error e => simp [stepLines, hline, hrest]
    | ok r =>
      obtain ⟨ys, ls'⟩ := r
      simp only [stepLines, hline, hrest, Except.ok.injEq, Prod.mk.injEq]
      constructor
      · rintro ⟨rfl, rfl⟩
        exact ⟨y, l', ys, ls', ⟨rfl, rfl⟩, ⟨rfl, rfl⟩, rfl, rfl⟩
      · rintro ⟨_, _, _, _, ⟨rfl, rfl⟩, ⟨rfl, rfl⟩, rfl, rfl⟩
        exact ⟨rfl, rfl⟩

/-- At another mix the loop over the channels leaves the same lines. -/
theorem stepLines_withMix {cfg : Config.Cfg} {f : FrameShared} {xs ys : List Word} {ls ls' : List Line} (m : Word)
    (h : stepLines cfg f xs ls = .ok (ys, ls')) : ∃ ys', stepLines cfg (f.withMix m) xs ls = .ok (ys', ls') := by
  induction xs generalizing ls ys ls' with
  | nil => cases h; exact ⟨[], rfl⟩
  | cons x xs ih =>
    cases ls with
    | nil => cases h
    | cons l ls =>
      obtain ⟨y, l₁, zs, ks, hline, hrest, rfl, rfl⟩ := stepLines_cons_eq_ok.mp h
      obtain ⟨y', hline'⟩ := stepLine_withMix m hline
      obtain ⟨zs', hrest'⟩ := ih hrest
      exact ⟨y' :: zs', stepLines_cons_eq_ok.mpr ⟨y', l₁, zs', ks, hline', hrest', rfl, rfl⟩⟩

/-- Settles O42: `stepLines_dry` for the outputs, `frameShared_withMix` and `stepLines_withMix` for the rest. -/
theorem dryBypassIsBitExact : Obligations.DryBypassIsBitExact := by
  intro s t xs hmix hopen hlen h
  obtain ⟨hclosed, -⟩ | ⟨-, hcount, -⟩ | ⟨-, -, phase, f, ys, lines, hshared, hlines, rfl⟩ := execFrame_next h
  · exact absurd hclosed hopen
  · exact absurd hlen hcount
  · obtain ⟨-, -, n, -, hf⟩ := frameShared_eq_ok.mp hshared
    obtain rfl := stepLines_dry (hf ▸ hmix) hlines
    refine ⟨rfl, fun m => ?_⟩
    obtain ⟨ys', hlines'⟩ := stepLines_withMix m hlines
    exact ⟨_, execFrame_steps hopen hlen (frameShared_withMix m hshared) hlines', rfl, rfl⟩

end Sys2Proof.Machine
end

section
/-! PROOFS. `45_engine_commands.md`, the commands but FRAME, and the transitions of `ENG`. Each refusal and each success has
its own equation; what a cleared line holds is said once (`cleared_channel`) and serves RESET and PREPARE. A delay RAM in
canonical form is determined by what it reads as (`Memory.ext_read`), which makes the fill the loop of writes. -/

namespace Sys2Proof.Machine

/-! ### `clear_lines` as a loop of writes (R194) -/

/-- In the canonical form the first cell has the smallest address that reads as a word. -/
theorem Memory.head_le_of_read {m : Memory} {b a : Nat} {v : Word} (hwf : Memory.wf ((b, v) :: m) = true)
    (h : (Memory.read ((b, v) :: m) a).isSome = true) : b ≤ a := by
  by_contra hlt
  have hrises : Memory.risesAbove a ((b, v) :: m) = true := by
    rw [Memory.risesAbove, Bool.and_eq_true, decide_eq_true_eq]
    exact ⟨not_le.mp hlt, hwf⟩
  rw [Memory.read_eq_none_of_risesAbove hrises le_rfl] at h
  cases h

/-- The canonical form is canonical: two delay RAMs that read alike at every address are the same. -/
theorem Memory.ext_read {m m' : Memory} (hwf : m.wf = true) (hwf' : m'.wf = true) (h : ∀ a, m.read a = m'.read a) :
    m = m' := by
  induction m generalizing m' with
  | nil =>
    cases m' with
    | nil => rfl
    | cons cell m' =>
      obtain ⟨b, v⟩ := cell
      simpa [Memory.read_cons] using h b
  | cons cell m ih =>
    obtain ⟨b, v⟩ := cell
    cases m' with
    | nil => simpa [Memory.read_cons] using h b
    | cons cell' m' =>
      obtain ⟨b', v'⟩ := cell'
      obtain rfl : b = b' :=
        le_antisymm (Memory.head_le_of_read hwf (by simp [h, Memory.read_cons]))
          (Memory.head_le_of_read hwf' (by simp [← h, Memory.read_cons]))
      obtain rfl : v = v' := by simpa [Memory.read_cons] using h b
      refine congrArg _ (ih (Memory.wf_of_risesAbove hwf) (Memory.wf_of_risesAbove hwf') fun a => ?_)
      by_cases hab : a ≤ b
      · rw [Memory.read_eq_none_of_risesAbove hwf hab, Memory.read_eq_none_of_risesAbove hwf' hab]
      · simpa [Memory.read_cons, show a ≠ b by omega] using h a

/-- A fill of one word more is a fill and a write of `+0` behind it. -/
theorem Memory.zeroFill_succ {m : Memory} (hwf : m.wf = true) (n : Nat) :
    m.zeroFill (n + 1) = (m.zeroFill n).write n posZero := by
  refine Memory.ext_read (Memory.wf_zeroFill _ hwf) (Memory.wf_write _ _ (Memory.wf_zeroFill _ hwf)) fun a => ?_
  obtain hlt | rfl | hgt := lt_trichotomy a n
  · rw [Memory.read_zeroFill_below _ (by omega), Memory.read_write_other _ _ hlt.ne, Memory.read_zeroFill_below _ hlt]
  · rw [Memory.read_zeroFill_below _ (by omega), Memory.read_write_same]
  · rw [Memory.read_zeroFill_above _ hgt, Memory.read_write_other _ _ hgt.ne', Memory.read_zeroFill_above _ hgt.le]

theorem Memory.foldl_write_eq_zeroFill {m : Memory} (hwf : m.wf = true) (n : Nat) :
    (List.range n).foldl (fun m a => m.write a posZero) m = m.zeroFill n := by
  induction n with
  | zero => exact (Memory.dropBelow_zero m).symm
  | succ n ih => rw [List.range_succ, List.foldl_append, ih, Memory.zeroFill_succ hwf]; rfl

/-- Settles O26: line by line, `Memory.foldl_write_eq_zeroFill`. -/
theorem clearLinesIsTheWriteLoop : Obligations.ClearLinesIsTheWriteLoop := by
  intro s hwf
  have hlines : s.lines.map (clearLine s.cap) = s.lines.map fun l =>
      { w := 0, buf := (List.range s.cap).foldl (fun m a => m.write a posZero) l.buf } :=
    List.map_congr_left fun l hl => by rw [Memory.foldl_write_eq_zeroFill (hwf l hl), clearLine]
  rw [clearLines, hlines]
  rfl

/-! ### Reading a channel -/

section
variable {s : State} {c : Nat} {l : Line} (h : s.lines[c]? = some l)
include h

theorem State.ram_of_line (a : Nat) : s.ram c a = l.buf.read a := by rw [State.ram, h]; rfl

theorem State.cursor_of_line : s.cursor c = some l.w := by rw [State.cursor, h]; rfl

end

/-- A channel whose line has been cleared (R194): the cursor at 0, `+0` below `CAP`, the words from `CAP` up as they were. -/
theorem cleared_channel {s t : State} {cap c : Nat} (hlines : t.lines = s.lines.map (clearLine cap))
    (hc : c < s.lines.length) :
    t.cursor c = some 0 ∧ (∀ a < cap, t.ram c a = some posZero) ∧ ∀ a, cap ≤ a → t.ram c a = s.ram c a := by
  have hline : s.lines[c]? = some s.lines[c] := List.getElem?_eq_getElem hc
  have hline' : t.lines[c]? = some (clearLine cap s.lines[c]) := by rw [hlines, List.getElem?_map, hline]; rfl
  refine ⟨State.cursor_of_line hline', fun a ha => ?_, fun a ha => ?_⟩
  · rw [State.ram_of_line hline']
    exact Memory.read_zeroFill_below _ ha
  · rw [State.ram_of_line hline', State.ram_of_line hline]
    exact Memory.read_zeroFill_above _ ha

/-! ### NOP and STAT (R191, R192) -/

/-- Settles O34: NOP is legal on both ports, and its meaning is the answer alone. -/
theorem nopDoesNothing : Obligations.NopDoesNothing :=
  ⟨rfl, fun p => decode_encode (i := .nop) rfl (by cases p <;> decide), fun _ => rfl⟩

/-- The fields of `STATUS` (`10_state.md` R35). -/
theorem statusRegister_fields (s : State) :
    (statusRegister s).extractLsb' 0 2 = s.eng.bits ∧ (statusRegister s).getLsbD 2 = decide (s.remain ≠ 0) ∧
      (statusRegister s).extractLsb' 3 5 = 0 ∧ (statusRegister s).extractLsb' 8 7 = s.sticky ∧
      (statusRegister s).extractLsb' 15 17 = 0 := by
  have hinblk : (statusRegister s).getLsbD 2 = (inBlock s).getLsbD 0 :=
    BitVec.getLsbD_append.trans BitVec.getLsbD_append
  refine ⟨BitVec.extractLsb'_append_eq_right, ?_, ?_, ?_, ?_⟩
  · rw [hinblk]
    by_cases h : s.remain = 0 <;> simp [inBlock, h]
  · exact (BitVec.extractLsb'_append_eq_of_le (by decide)).trans
      ((BitVec.extractLsb'_append_eq_of_le (by decide)).trans BitVec.extractLsb'_append_eq_right)
  · exact (BitVec.extractLsb'_append_eq_of_le (by decide)).trans
      ((BitVec.extractLsb'_append_eq_of_le (by decide)).trans
        ((BitVec.extractLsb'_append_eq_of_le (by decide)).trans BitVec.extractLsb'_append_eq_right))
  · exact (BitVec.extractLsb'_append_eq_of_le (by decide)).trans
      ((BitVec.extractLsb'_append_eq_of_le (by decide)).trans
        ((BitVec.extractLsb'_append_eq_of_le (by decide)).trans BitVec.extractLsb'_append_eq_left))

/-- Settles O35: the word is `STATUS`. -/
theorem statReadsStatus : Obligations.StatReadsStatus := by
  refine ⟨rfl, fun p => decode_encode (i := .stat) rfl (by cases p <;> decide), fun s => ⟨_, rfl, ?_⟩⟩
  obtain ⟨heng, hrest⟩ := statusRegister_fields s
  exact ⟨heng.trans (by cases s.eng <;> rfl), hrest⟩

/-! ### RESET (R195) -/

theorem execReset_busy {s : State} (hopen : s.remain ≠ 0) : execReset s = .next (raiseError .busy 0 s) := by
  rw [execReset, if_pos hopen]

theorem execReset_clears {s : State} (hclosed : s.remain = 0) : execReset s = .next (respondOk [] (clearLines s)) := by
  rw [execReset, if_neg (not_not.mpr hclosed)]

/-- Settles O37: `cleared_channel` for each line, and a clear writes nothing but the lines and the phase. -/
theorem resetClearsHistory : Obligations.ResetClearsHistory := by
  refine ⟨rfl, decode_encode_iff_cp (i := .reset) rfl rfl, fun s => ⟨execReset_busy, fun hclosed => ?_⟩⟩
  exact ⟨_, execReset_clears hclosed, rfl, List.length_map _, fun c hc => cleared_channel rfl hc⟩

/-! ### PREPARE (R193) -/

theorem feq_posInf_iff (a : Word) : feq a posInf = true ↔ a = posInf := by
  constructor
  · intro h
    obtain ⟨-, -, hunits⟩ := feq_iff.mp h
    exact (eq_of_units_eq hunits.symm (by decide)).symm
  · rintro rfl
    decide

/-- The argument check of PREPARE, as R193 words it. -/
theorem badConfig_eq_true_iff (sr mb : Word) : badConfig Config.cfg sr mb = true ↔
    isNaN sr = true ∨ fle sr posZero = true ∨ sr = posInf ∨ flt sr one = true ∨ s32 mb ≤ 0 := by
  simp [badConfig, feq_posInf_iff, or_assoc]

/-- A rate that passes R193's checks of the arguments passes them as the model makes them. -/
theorem badConfig_of_accepted {sr mb : Word} (hfin : isFinite sr = true) (hmin : fle one sr = true) (hmb : 0 < s32 mb) :
    badConfig Config.cfg sr mb = false := by
  obtain ⟨-, -, hunits⟩ := fle_iff.mp hmin
  have hone : (0 : Int) < units one := by decide
  rw [← Bool.not_eq_true, badConfig_eq_true_iff]
  rintro (hnan | hle | rfl | hlt | hle)
  · exact absurd hnan (Bool.eq_false_iff.mp (isNaN_of_isFinite hfin))
  · obtain ⟨-, -, hzero⟩ := fle_iff.mp hle
    rw [show units posZero = 0 by decide] at hzero
    omega
  · exact absurd hfin (by decide)
  · obtain ⟨-, -, hless⟩ := flt_iff.mp hlt
    omega
  · omega

/-- The capacity check passes when the capacity exists and fits the delay RAM (R162, R193). -/
theorem exceedsDepth_eq_false_iff (sr : Word) : exceedsDepth sr = false ↔
    ∃ cap, capacityOf Config.cfg (maxDelaySamples Config.cfg sr) = some cap ∧ cap ≤ Config.cfg.bufdepth := by
  have hmaxd : maxDelaySamples Config.cfg sr = msToSamples (fadd hundred Config.cfg.excMs) sr := rfl
  rw [exceedsDepth, capacityOf_cfg, hmaxd]
  cases ceilInt (msToSamples (fadd hundred Config.cfg.excMs) sr) with
  | none => simp
  | some n =>
    simp only [decide_eq_false_iff_not, Option.some.injEq, exists_eq_left']
    simp only [cfg_margin, cfg_bufdepth]
    omega

section
variable {sr mb : Word} {s : State}

theorem execPrepare_busy (hopen : s.remain ≠ 0) : execPrepare sr mb s = .next (raiseError .busy 0 s) := by
  rw [execPrepare, prepareUnder, if_pos hopen]

theorem execPrepare_refuses (hclosed : s.remain = 0)
    (hbad : badConfig Config.cfg sr mb = true ∨ exceedsDepth sr = true) :
    execPrepare sr mb s = .next (raiseError .config 0 s) := by
  obtain ⟨hopen, -⟩ | ⟨-, hexec⟩ | ⟨-, hargs, hfits⟩ := execPrepare_next sr mb s
  · exact absurd hclosed hopen
  · exact hexec
  · obtain ⟨cap, hcap, hdepth, -⟩ := hfits
    have hgood := (exceedsDepth_eq_false_iff sr).mpr ⟨cap, hcap, hdepth⟩
    simp [hargs, hgood] at hbad

theorem execPrepare_succeeds {cap : Nat} (hclosed : s.remain = 0) (hargs : badConfig Config.cfg sr mb = false)
    (hcap : capacityOf Config.cfg (maxDelaySamples Config.cfg sr) = some cap) (hdepth : cap ≤ Config.cfg.bufdepth) :
    execPrepare sr mb s = .next (respondOk [] (prepared Config.cfg sr mb cap s)) := by
  simp only [execPrepare, prepareUnder, hclosed, hargs, hcap]
  exact if_neg hdepth.not_gt

end

/-- At an accepted rate `CAP` is one more than the ceiling of `MAXD`, which is positive (R162, R193). -/
theorem capacity_of_accepted {sr : Word} {cap : Nat} (hfin : isFinite sr = true) (hmin : fle one sr = true)
    (hcap : capacityOf Config.cfg (maxDelaySamples Config.cfg sr) = some cap) :
    ∃ n : Int, ceilInt (maxDelaySamples Config.cfg sr) = some n ∧ cap = (n + 1).toNat := by
  obtain ⟨hmaxd, hvalue⟩ := capacityOf_eq_some hcap
  have htwo : 2 ≤ cap := two_le_capacity hcap (units_maxDelaySamples_pos hfin hmin hmaxd)
  exact ⟨_, ceilInt_of_finite hmaxd, by omega⟩

theorem encode_prepare (sr mb : Word) : encode (.prepare sr mb) = [0x00000001, sr, mb] :=
  congrArg (· :: [sr, mb]) (show headerWord .prepare 0 = 0x00000001 by decide)

/-- Settles O36: one lemma per outcome, `cleared_channel` for each line, and the two ends of the range computed. -/
theorem prepareConfigures : Obligations.PrepareConfigures := by
  refine ⟨fun sr mb => ⟨encode_prepare sr mb, decode_encode_iff_cp rfl rfl⟩,
    fun sr mb s => ⟨execPrepare_busy, fun hclosed hbad => ?_, ?_⟩, by decide, by decide, by decide, by decide, by decide⟩
  · refine execPrepare_refuses hclosed ?_
    simp only [badConfig_eq_true_iff, or_assoc]
    exact hbad
  · intro hclosed hfin hmin hmb hfits
    obtain ⟨cap, hcap, hdepth⟩ := (exceedsDepth_eq_false_iff sr).mp hfits
    obtain ⟨n, hceil, rfl⟩ := capacity_of_accepted hfin hmin hcap
    exact ⟨_, n, execPrepare_succeeds hclosed (badConfig_of_accepted hfin hmin hmb) hcap hdepth, hceil, rfl,
      List.length_map _, fun c hc => cleared_channel rfl hc⟩

/-! ### BEGIN (R196, R197) -/

/-- A command whose only home port is AP is legal on AP only. -/
theorem decode_encode_iff_ap {i : Instr} (hwf : i.wf = true) (hports : i.opcode.homePorts = [.ap]) (p : Port) :
    decode p (encode i) = .ok i ↔ p = .ap := by
  cases p with
  | ap => exact iff_of_true (decode_encode hwf (by simp [hports])) rfl
  | cp =>
    have hrefused : decode .cp (encode i) = .error .wrongPort :=
      decode_wrongPort (rsvField_headerWord ..) (opcField_headerWord ..) (by simp [hports])
    simp [hrefused]

theorem badBlock_eq_true_iff (nch : Byte) (ns : Word) (s : State) : badBlock Config.cfg nch ns s = true ↔
    nch.toNat = 0 ∨ 2 < nch.toNat ∨ s32 ns < 0 ∨ s32 s.maxblk < s32 ns := by
  simp [badBlock, or_assoc]

section
variable {nch : Byte} {ns : Word} {s : State}

theorem execBegin_uninit (heng : s.eng = .uninit) : execBegin nch ns s = .next (raiseError .state 0 s) := by
  rw [execBegin, beginUnder, if_pos heng]

theorem execBegin_busy (heng : s.eng ≠ .uninit) (hopen : s.remain ≠ 0) :
    execBegin nch ns s = .next (raiseError .busy 0 s) := by
  rw [execBegin, beginUnder, if_neg heng, if_pos hopen]

theorem execBegin_refuses (heng : s.eng ≠ .uninit) (hclosed : s.remain = 0)
    (hbad : badBlock Config.cfg nch ns s = true) : execBegin nch ns s = .next (raiseError .badArg 0 s) := by
  rw [execBegin, beginUnder, if_neg heng, if_neg (not_not.mpr hclosed), if_pos hbad]

theorem execBegin_opens (heng : s.eng ≠ .uninit) (hclosed : s.remain = 0)
    (hgood : badBlock Config.cfg nch ns s = false) :
    execBegin nch ns s = .next (respondOk [] (blockOpened nch ns s)) := by
  rw [execBegin, beginUnder, if_neg heng, if_neg (not_not.mpr hclosed), if_neg (Bool.eq_false_iff.mp hgood)]

end

/-- A count that is not negative is its pattern's number. -/
theorem s32_toNat {w : Word} (h : 0 ≤ s32 w) : (s32 w).toNat = w.toNat := by
  unfold s32 at *
  rw [BitVec.toInt_eq_toNat_cond] at *
  split at h <;> omega

/-- Settles O38: one lemma per outcome. -/
theorem beginOpensBlock : Obligations.BeginOpensBlock := by
  refine ⟨fun nch ns => ⟨encode_eq_ofNat _, decode_encode_iff_ap rfl rfl⟩, fun nch ns s =>
    ⟨execBegin_uninit, execBegin_busy, fun heng hclosed hbad => ?_, fun heng hclosed hone htwo hns hmax => ?_⟩⟩
  · exact execBegin_refuses heng hclosed ((badBlock_eq_true_iff nch ns s).mpr hbad)
  · have hgood : badBlock Config.cfg nch ns s = false := by
      rw [← Bool.not_eq_true, badBlock_eq_true_iff, s32, s32]
      omega
    refine (execBegin_opens heng hclosed hgood).trans ?_
    rw [blockOpened, s32_toNat hns]
    rfl

/-! ### The transitions of `ENG` (R204) -/

theorem succeeded_respondOk (data : List Word) (s : State) : succeeded (respondOk data s).response :=
  congrArg some (extract_low_field 0 0)

theorem not_succeeded_raiseError (e : ErrCode) (info : Byte) (s : State) : ¬ succeeded (raiseError e info s).response :=
  fun h => (errCode_byte e).1 ((extract_low_field info _).symm.trans (Option.some.inj h))

/-- PREPARE succeeds without an open block and leaves PREPARED, or fails and leaves `ENG`. -/
theorem execPrepare_eng {sr mb : Word} {s t : State} (h : execPrepare sr mb s = .next t) :
    (succeeded t.response ∧ s.remain = 0 ∧ t.eng = .prepared) ∨ (¬ succeeded t.response ∧ t.eng = s.eng) := by
  obtain ⟨-, e⟩ | ⟨-, e⟩ | ⟨hclosed, -, cap, -, -, e⟩ := execPrepare_next sr mb s <;> cases e.symm.trans h
  · exact .inr ⟨not_succeeded_raiseError _ _ _, rfl⟩
  · exact .inr ⟨not_succeeded_raiseError _ _ _, rfl⟩
  · exact .inl ⟨succeeded_respondOk .., hclosed, rfl⟩

/-- BEGIN succeeds in a CORE that has been prepared and leaves PROCESSING, or fails and leaves `ENG`. -/
theorem execBegin_eng {nch : Byte} {ns : Word} {s t : State} (h : execBegin nch ns s = .next t) :
    (succeeded t.response ∧ s.eng ≠ .uninit ∧ t.eng = .processing) ∨ (¬ succeeded t.response ∧ t.eng = s.eng) := by
  obtain ⟨-, e⟩ | ⟨-, -, e⟩ | ⟨-, -, -, e⟩ | ⟨heng, -, -, e⟩ := execBegin_next nch ns s <;> cases e.symm.trans h
  · exact .inr ⟨not_succeeded_raiseError _ _ _, rfl⟩
  · exact .inr ⟨not_succeeded_raiseError _ _ _, rfl⟩
  · exact .inr ⟨not_succeeded_raiseError _ _ _, rfl⟩
  · exact .inl ⟨succeeded_respondOk .., heng, rfl⟩

/-- A command but PREPARE and BEGIN leaves `ENG`. -/
theorem exec_eng_of_ne {i : Instr} {s t : State} (h : exec i s = .next t) (hprepare : i.opcode ≠ .prepare)
    (hbegin : i.opcode ≠ .begin) : t.eng = s.eng := by
  obtain ⟨-, -, -, -, heng, -⟩ := writersOfEachPieceOfState i s t h
  exact heng (by simp [hprepare, hbegin])

/-- Settles O49: PREPARE, BEGIN, the commands that do not write `ENG`, and hardware reset. -/
theorem engineTransitions : Obligations.EngineTransitions := by
  refine ⟨fun i s t h => ⟨?_, ?_, exec_eng_of_ne h, ?_⟩, fun s inProgress hreset => ⟨_, step_of_asserted hreset, rfl⟩⟩
  · intro hop hok
    cases i with
    | prepare sr mb => exact (execPrepare_eng h).elim (fun hs => hs.2) fun hf => absurd hok hf.1
    | _ => cases hop
  · intro hop hok
    cases i with
    | begin nch ns => exact (execBegin_eng h).elim (fun hs => hs.2) fun hf => absurd hok hf.1
    | _ => cases hop
  · intro hfail
    cases i with
    | prepare sr mb => exact (execPrepare_eng h).elim (fun hs => absurd hs.1 hfail) fun hf => hf.2
    | begin nch ns => exact (execBegin_eng h).elim (fun hs => absurd hs.1 hfail) fun hf => hf.2
    | _ => exact exec_eng_of_ne h (by simp [Instr.opcode]) (by simp [Instr.opcode])

end Sys2Proof.Machine
end

section
/-! PROOFS. `45_engine_commands.md`, FRAME and what follows from its completion. What one channel's part of a frame computes
is said once (`stepLine_computes`), and that it depends on nothing of another channel is one lemma too
(`stepLines_channel_congr`); a block and a step are completions of the commands they execute. -/

namespace Sys2Proof.Machine

/-! ### What a FRAME computes (R198, R199) -/

/-- With a block open and as many samples as it has channels, a FRAME that answers has stepped its channels. -/
theorem execFrame_of_open {xs : List Word} {s t : State} (hopen : s.remain ≠ 0) (hlen : xs.length = s.blkch)
    (h : execFrame xs s = .next t) : ∃ phase f ys lines, frameShared Config.cfg s = .ok (phase, f) ∧
      stepLines Config.cfg f xs s.lines = .ok (ys, lines) ∧
      t = respondOk ys { s with phase := phase, lines := lines, remain := s.remain - 1 } := by
  obtain ⟨hclosed, -⟩ | ⟨-, hcount, -⟩ | ⟨-, -, hstepped⟩ := execFrame_next h
  · exact absurd hclosed hopen
  · exact absurd hlen hcount
  · exact hstepped

/-- The accumulator's sum as a number (R112 (a), (f), R152). -/
theorem advancedPhase_toNat (phase : BitVec 32) (q : Word) :
    ((phase + quotientIncrement q).toNat : Int) = (phase.toNat + units q * 2 ^ 32 / 2 ^ 149) % 2 ^ 32 := by
  rw [BitVec.toNat_add, Int.natCast_emod, Int.natCast_add, quotientIncrement_toNat]
  exact Int.add_emod_emod ..

/-- What the channels of a frame share, of a CORE with the invariants (R163 to R165). -/
theorem State.Inv.frameShared_split {s : State} {phase : BitVec 32} {f : FrameShared} (h : s.Inv) (heng : s.eng ≠ .uninit)
    (hshared : frameShared Config.cfg s = .ok (phase, f)) :
    phase = s.phase + quotientIncrement (fdiv s.snap.rate s.fs) ∧
      floorInt (frameDelay Config.cfg s phase) = some (f.di : Int) ∧
      f.df = fsub (frameDelay Config.cfg s phase) (floatOfNat f.di) ∧ f.snap = s.snap ∧ f.cap = s.cap := by
  have hdi : 1 ≤ f.di := by
    obtain ⟨phase', f', hshared', -, -, hdi, -⟩ := h.frameShared_facts heng
    cases hshared.symm.trans hshared'
    exact hdi
  obtain ⟨-, hphase, n, hfloor, rfl⟩ := frameShared_eq_ok.mp hshared
  have hn : (n.toNat : Int) = n := Int.toNat_of_nonneg (by change 1 ≤ n.toNat at hdi; omega)
  exact ⟨hphase, hfloor.trans (congrArg some hn.symm), rfl, rfl, rfl⟩

/-- The delay length of a frame, in the operations of `NUM` (R163, R164). -/
theorem frameDelay_cfg (s : State) (phase : BitVec 32) : frameDelay Config.cfg s phase =
    clamp
      (fadd (fdiv (fmul s.snap.delay s.fs) thousand) (fmul (fmul s.snap.depth s.excs) (Config.cfg.sine phase))) one
      (if fge s.maxd one then s.maxd else one) := by
  rw [frameDelay, delayLength_cfg, rawDelay_cfg, oscillatorValue]

/-- One channel of a frame on this hardware: the two taps, the output, the stored word, the cursor (R166 to R168, R181 to
R183). -/
theorem stepLine_computes {f : FrameShared} {x y : Word} {l l' : Line} (h : stepLine Config.cfg f x l = .ok (y, l')) :
    ∃ a b, l.buf.read (((l.w : Int) - f.di) % f.cap).toNat = some a ∧
      l.buf.read (((l.w : Int) - f.di - 1) % f.cap).toNat = some b ∧
      y = (if feq f.snap.mix posZero then x else blend f.snap.mix x (blend f.df a b)) ∧
      l' = { w := (l.w + 1) % f.cap, buf := l.buf.write l.w (fadd x (fmul f.snap.feedback (blend f.df a b))) } := by
  obtain ⟨delayed, hread, rfl, -, rfl⟩ := stepLine_eq_ok.mp h
  obtain ⟨a, b, -, ha, -, hb, rfl⟩ := readDelayed_eq_ok.mp hread
  rw [tapAddress, Int.natCast_add, ← sub_sub] at hb
  exact ⟨a, b, ha, hb, rfl, rfl⟩

/-- Settles O40: `frameShared_split` for what the channels share, `stepLine_computes` for each of them. -/
theorem frameComputesEachChannel : Obligations.FrameComputesEachChannel := by
  intro s xs hinv hopen hlen
  obtain ⟨_, _, _, _, -, -, -, -, hexec⟩ := hinv.execFrame_completes hopen hlen
  obtain ⟨phase, f, ys, lines, hshared, hlines, ht⟩ := execFrame_of_open hopen hlen hexec
  rw [ht] at hexec
  have heng : s.eng ≠ .uninit := fun he => hopen (hinv.uninit he).2.1
  obtain ⟨hphase, hfloor, hdf, hsnap, hcap⟩ := hinv.frameShared_split heng hshared
  obtain ⟨hcount, -, -, hstepped, hkept⟩ := stepLines_ok hlines
  refine ⟨_, frameDelay Config.cfg s phase, f.df, f.di, ys, hexec, ?_, frameDelay_cfg s phase, hfloor, hdf, rfl, hcount,
    Nat.sub_add_cancel (Nat.pos_of_ne_zero hopen), fun c x hx => ?_, hkept, rfl⟩
  · rw [respondOk_phase, hphase]
    exact advancedPhase_toNat ..
  · obtain ⟨y, l, l', hl, hy, hl', hline⟩ := hstepped c x hx
    obtain ⟨a, b, ha, hb, rfl, rfl⟩ := stepLine_computes hline
    rw [hsnap] at hy hl'
    rw [hcap] at ha hb hl'
    refine ⟨l.w, a, b, State.cursor_of_line hl, (State.ram_of_line hl _).trans ha, (State.ram_of_line hl _).trans hb, hy,
      (State.ram_of_line hl' _).trans (Memory.read_write_same ..), fun e he => ?_, ?_⟩
    · rw [State.ram_of_line hl]
      exact (State.ram_of_line hl' e).trans (Memory.read_write_other _ _ he)
    · rw [State.cursor, respondOk_lines, hl']
      rfl

/-! ### No channel sees another (R202) -/

/-- The oscillator and the delay length are computed from six registers and nothing else. -/
theorem frameShared_congr {cfg : Config.Cfg} {s s' : State} (hsnap : s.snap = s'.snap) (hphase : s.phase = s'.phase)
    (hfs : s.fs = s'.fs) (hexcs : s.excs = s'.excs) (hmaxd : s.maxd = s'.maxd) (hcap : s.cap = s'.cap) :
    frameShared cfg s = frameShared cfg s' := by
  simp only [frameShared, frameDelay, hsnap, hphase, hfs, hexcs, hmaxd, hcap]

/-- Two channels, of one frame or of two, with the same sample and the same line get the same output and the same line. -/
theorem stepLines_channel_congr {cfg : Config.Cfg} {f : FrameShared} {xs xs' ys ys' : List Word} {ls ls' ks ks' : List Line}
    {c e : Nat} (h : stepLines cfg f xs ls = .ok (ys, ks)) (h' : stepLines cfg f xs' ls' = .ok (ys', ks'))
    (hsample : xs[c]? = xs'[e]?) (hline : ls[c]? = ls'[e]?) : ys[c]? = ys'[e]? ∧ ks[c]? = ks'[e]? := by
  obtain ⟨hlen, -, -, hstepped, hkept⟩ := stepLines_ok h
  obtain ⟨hlen', -, -, hstepped', hkept'⟩ := stepLines_ok h'
  cases hx : xs[c]? with
  | none =>
    have hc : xs.length ≤ c := List.getElem?_eq_none_iff.mp hx
    have he : xs'.length ≤ e := List.getElem?_eq_none_iff.mp (hsample.symm.trans hx)
    rw [List.getElem?_eq_none (hlen ▸ hc), List.getElem?_eq_none (hlen' ▸ he), hkept c hc, hkept' e he]
    exact ⟨rfl, hline⟩
  | some x =>
    obtain ⟨y, l, k, hl, hy, hk, hstep⟩ := hstepped c x hx
    obtain ⟨y', l', k', hl', hy', hk', hstep'⟩ := hstepped' e x (hsample.symm.trans hx)
    obtain rfl : l = l' := Option.some.inj (hl.symm.trans (hline.trans hl'))
    cases hstep.symm.trans hstep'
    exact ⟨hy.trans hy'.symm, hk.trans hk'.symm⟩

/-- Settles O43: both parts are `stepLines_channel_congr`. -/
theorem channelsAreIndependent : Obligations.ChannelsAreIndependent := by
  constructor
  · intro s s' t t' xs xs' c hopen hopen' hlen hlen' hsnap hphase hfs hexcs hmaxd hcap hline hsample h h'
    obtain ⟨phase, f, ys, lines, hshared, hlines, rfl⟩ := execFrame_of_open hopen hlen h
    obtain ⟨phase', f', ys', lines', hshared', hlines', rfl⟩ := execFrame_of_open hopen' hlen' h'
    rw [frameShared_congr hsnap hphase hfs hexcs hmaxd hcap, hshared'] at hshared
    cases hshared
    exact stepLines_channel_congr hlines hlines' hsample hline
  · intro s t xs c e hopen hlen _ _ hline hsample h
    obtain ⟨phase, f, ys, lines, hshared, hlines, rfl⟩ := execFrame_of_open hopen hlen h
    exact stepLines_channel_congr hlines hlines hsample hline

/-! ### A block runs to its end (R200) -/

/-- A command keeps the invariants. -/
theorem State.Inv.exec {i : Instr} {s t : State} (h : s.Inv) (hexec : exec i s = .next t) : t.Inv := by
  obtain ⟨u, hw, ha⟩ := exec_next hexec
  exact (h.of_writes hw).of_answers ha

/-- One FRAME of an open block completes; it counts one frame down and leaves the block, `ENG` and the flags. -/
theorem State.Inv.exec_frame_of_open {s : State} {xs : List Word} (h : s.Inv) (hopen : s.remain ≠ 0)
    (hlen : xs.length = s.blkch) : ∃ u, Machine.exec (.frame xs) s = .next u ∧ u.remain + 1 = s.remain ∧
      u.blkch = s.blkch ∧ u.eng = s.eng ∧ u.sticky = s.sticky := by
  obtain ⟨phase, f, ys, lines, -, -, -, -, hexec⟩ := h.execFrame_completes hopen hlen
  exact ⟨_, hexec, Nat.sub_add_cancel (Nat.pos_of_ne_zero hopen), rfl, rfl, rfl⟩

theorem execAll_cons_of_next {c : Instr} {cs : List Instr} {s u : State} (h : exec c s = .next u) :
    execAll (c :: cs) s = execAll cs u := by
  rw [execAll, h]

theorem State.Inv.execAll_frames {s : State} {frames : List (List Word)} (h : s.Inv) (hcount : frames.length = s.remain)
    (hlen : ∀ xs ∈ frames, xs.length = s.blkch) :
    ∃ t, execAll (frames.map Instr.frame) s = some t ∧ t.remain = 0 ∧ t.eng = s.eng ∧ t.sticky = s.sticky := by
  induction frames generalizing s with
  | nil => exact ⟨s, rfl, hcount.symm, rfl, rfl⟩
  | cons xs frames ih =>
    rw [List.length_cons] at hcount
    obtain ⟨hxs, hframes⟩ := List.forall_mem_cons.mp hlen
    obtain ⟨u, hexec, hremain, hblkch, heng, hsticky⟩ := h.exec_frame_of_open (by omega) hxs
    obtain ⟨t, hrest, hend, heng', hsticky'⟩ := ih (h.exec hexec) (by omega) (hblkch.symm ▸ hframes)
    exact ⟨t, (execAll_cons_of_next hexec).trans hrest, hend, heng'.trans heng, hsticky'.trans hsticky⟩

/-- Settles O45: by induction on the frames; under an open block `ENG` is PROCESSING. -/
theorem blockRunsToCompletion : Obligations.BlockRunsToCompletion := by
  intro s frames hinv hopen hcount hlen
  obtain ⟨t, hexec, hend, heng, hsticky⟩ := hinv.execAll_frames hcount hlen
  exact ⟨t, hexec, hend, heng.trans (hinv.block_open hopen).2.2, hsticky⟩

/-! ### Every step completes (R199, R205) -/

/-- Where the invariants hold a FRAME is refused or completes. -/
theorem State.Inv.exists_execFrame {s : State} (h : s.Inv) (xs : List Word) : ∃ t, execFrame xs s = .next t := by
  by_cases hclosed : s.remain = 0
  · exact ⟨_, execFrame_closed xs hclosed⟩
  · by_cases hlen : xs.length = s.blkch
    · obtain ⟨phase, f, ys, lines, -, -, -, -, hexec⟩ := h.execFrame_completes hclosed hlen
      exact ⟨_, hexec⟩
    · exact ⟨_, execFrame_badCount hclosed hlen⟩

theorem exists_execSetp (id : Byte) (v : Word) (s : State) : ∃ t, execSetp id v s = .next t := by
  unfold execSetp setpUnder
  repeat' split
  all_goals exact ⟨_, rfl⟩

theorem exists_execGetp (id : Byte) (s : State) : ∃ t, execGetp id s = .next t := by
  unfold execGetp
  split <;> exact ⟨_, rfl⟩

/-- Where the invariants hold every command completes; but for FRAME it does so in every state. -/
theorem State.Inv.exists_exec {s : State} (h : s.Inv) (i : Instr) : ∃ t, Machine.exec i s = .next t := by
  cases i with
  | nop => exact ⟨_, rfl⟩
  | stat => exact ⟨_, rfl⟩
  | getst => exact ⟨_, rfl⟩
  | setp id v => exact exists_execSetp id v s
  | getp id => exact exists_execGetp id s
  | setst mask v0 v1 v2 v3 v4 =>
    obtain ⟨t, hexec, -⟩ := exists_finishSetst s (setstResult mask ⟨v0, v1, v2, v3, v4⟩ s.param)
    exact ⟨t, hexec⟩
  | prepare sr mb =>
    obtain ⟨-, hexec⟩ | ⟨-, hexec⟩ | ⟨-, -, cap, -, -, hexec⟩ := execPrepare_next sr mb s
    · exact ⟨_, hexec⟩
    · exact ⟨_, hexec⟩
    · exact ⟨_, hexec⟩
  | reset =>
    obtain ⟨-, hexec⟩ | ⟨-, hexec⟩ := execReset_next s
    · exact ⟨_, hexec⟩
    · exact ⟨_, hexec⟩
  | begin nch ns =>
    obtain ⟨-, hexec⟩ | ⟨-, -, hexec⟩ | ⟨-, -, -, hexec⟩ | ⟨-, -, -, hexec⟩ := execBegin_next nch ns s
    · exact ⟨_, hexec⟩
    · exact ⟨_, hexec⟩
    · exact ⟨_, hexec⟩
    · exact ⟨_, hexec⟩
  | frame xs => exact h.exists_execFrame xs

/-- With no reset requested and no command to take, a step changes nothing. -/
theorem step_of_idle {s : State} (hreleased : s.resetIn = .released) (htake : takeCommand s = none) : step s = .next s := by
  simp only [step, stepWith, hreleased, serveNext, htake]

theorem State.Inv.exists_step {s : State} (h : s.Inv) : ∃ t, step s = .next t := by
  cases hreset : s.resetIn with
  | asserted inProgress => exact ⟨_, step_of_asserted hreset⟩
  | released =>
    cases htake : takeCommand s with
    | none => exact ⟨s, step_of_idle hreset htake⟩
    | some taken =>
      obtain ⟨p, packet, u⟩ := taken
      cases hdecode : decode p packet with
      | error e => exact ⟨_, step_of_decode_error hreset htake hdecode⟩
      | ok i =>
        obtain ⟨t, hexec⟩ := (takeCommand_keeps h htake).1.exists_exec i
        exact ⟨_, (step_of_decode_ok hreset htake hdecode).trans (congrArg (deliverOutcome p) hexec)⟩

/-- Settles O59: the step exists, and by O53 it sends one response. -/
theorem everyStepCompletes : Obligations.EveryStepCompletes := by
  intro s hinv
  obtain ⟨t, hstep⟩ := hinv.exists_step
  refine ⟨t, hstep, fun hreleased hwaiting => ?_⟩
  obtain ⟨r, -, ⟨_, -, hcp, -, hap⟩ | ⟨_, -, hap, -, hcp⟩⟩ :=
    oneResponseOnTheCommandsPort s t hreleased hwaiting hstep
  · rw [hcp, hap, List.length_append, List.length_singleton]
    omega
  · rw [hcp, hap, List.length_append, List.length_singleton]
    omega

end Sys2Proof.Machine
end

section
/-! PROOFS. `60_exceptions.md`: errors, their codes and the sticky flags. How a command ends is said once (`exec_ends`): the
checks of R224 decide between an error and a success, and the flags have no say in either. -/

namespace Sys2Proof.Machine

/-! ### The checks of a decoded command, in the order of R224 -/

/-- The code of the first check behind `E_ILLEGAL` that fails (R224 (2) to (4)). -/
def failingCheck (i : Instr) (s : State) : Option ErrCode :=
  if stateError i s then some .state else if busyError i s then some .busy else argumentError i s

theorem firstError_of_decode_ok {p : Port} {packet : Packet} {i : Instr} (hdecode : decode p packet = .ok i) (s : State) :
    firstError p packet s = failingCheck i s := by
  rw [firstError, hdecode, failingCheck]

theorem firstError_of_decode_error {p : Port} {packet : Packet} {e : Illegal} (hdecode : decode p packet = .error e)
    (s : State) : firstError p packet s = some .illegal := by
  rw [firstError, hdecode]

section
variable {s : State}

theorem failingCheck_setp (id : Byte) (v : Word) : failingCheck (.setp id v) s =
    if 4 < id.toNat then some .unknown else if isNaN v then some .malformed else none := rfl

theorem failingCheck_getp (id : Byte) : failingCheck (.getp id) s = if 4 < id.toNat then some .unknown else none := rfl

theorem failingCheck_reset : failingCheck .reset s = if s.remain ≠ 0 then some .busy else none := by
  simp [failingCheck, stateError, busyError, argumentError]

theorem failingCheck_frame (xs : List Word) : failingCheck (.frame xs) s =
    if s.remain = 0 then some .state else if xs.length ≠ s.blkch then some .badArg else none := by
  simp [failingCheck, stateError, busyError, argumentError]

theorem failingCheck_begin (nch : Byte) (ns : Word) : failingCheck (.begin nch ns) s =
    if s.eng = .uninit then some .state else if s.remain ≠ 0 then some .busy
    else if badBlock Config.cfg nch ns s then some .badArg else none := by
  simp only [failingCheck, stateError, busyError, argumentError, badBlock_eq_true_iff, decide_eq_true_eq]
  rfl

theorem failingCheck_prepare (sr mb : Word) : failingCheck (.prepare sr mb) s =
    if s.remain ≠ 0 then some .busy
    else if badConfig Config.cfg sr mb = true ∨ exceedsDepth sr = true then some .config else none := by
  simp only [failingCheck, stateError, busyError, argumentError, badConfig_eq_true_iff, or_assoc, decide_eq_true_eq]
  rfl

/-- A key of SETST fails when its mask bit is set and its operand is a NaN (R133, R221). -/
theorem exists_keyFails_iff (mask : Byte) (v0 v1 v2 v3 v4 : Word) :
    (∃ i, keyFails mask ⟨v0, v1, v2, v3, v4⟩ i = true) ↔
      (mask.getLsbD 0 ∧ isNaN v0) ∨ (mask.getLsbD 1 ∧ isNaN v1) ∨ (mask.getLsbD 2 ∧ isNaN v2) ∨
        (mask.getLsbD 3 ∧ isNaN v3) ∨ (mask.getLsbD 4 ∧ isNaN v4) := by
  simp only [keyFails, Bool.and_eq_true]
  constructor
  · rintro ⟨i, hi⟩
    cases i with
    | rate => exact .inl hi
    | depth => exact .inr (.inl hi)
    | delay => exact .inr (.inr (.inl hi))
    | feedback => exact .inr (.inr (.inr (.inl hi)))
    | mix => exact .inr (.inr (.inr (.inr hi)))
  · rintro (h | h | h | h | h)
    · exact ⟨.rate, h⟩
    · exact ⟨.depth, h⟩
    · exact ⟨.delay, h⟩
    · exact ⟨.feedback, h⟩
    · exact ⟨.mix, h⟩

theorem setstResult_failed_ne_zero_iff (mask : Byte) (values p : Params) :
    (setstResult mask values p).2 ≠ 0 ↔ ∃ i, keyFails mask values i = true := by
  constructor
  · intro hbad
    by_contra hnone
    exact hbad (setstResult_failed_eq_zero _ _ _ fun i => Bool.eq_false_iff.mpr fun hi => hnone ⟨i, hi⟩)
  · rintro ⟨i, hi⟩ hzero
    have hbit := setstResult_failed_key mask values p i
    rw [hzero, hi] at hbit
    simp at hbit

theorem failingCheck_setst (mask : Byte) (v0 v1 v2 v3 v4 : Word) (p : Params) :
    failingCheck (.setst mask v0 v1 v2 v3 v4) s =
      if (setstResult mask ⟨v0, v1, v2, v3, v4⟩ p).2 ≠ 0 then some .malformed else none := by
  simp only [setstResult_failed_ne_zero_iff, exists_keyFails_iff]
  rfl

end

/-! ### How a command ends (R221 to R224) -/

/-- How a command ends that completes: the check that decided, and what it answers whatever the sticky flags are. -/
inductive Ends (i : Instr) (s : State) : State → Prop where
  /-- A check failed: the error, and nothing written (R222). -/
  | refused {e : ErrCode} (hcheck : failingCheck i s = some e)
      (hexec : ∀ flags, exec i { s with sticky := flags } = .next (raiseError e 0 { s with sticky := flags })) :
      Ends i s (raiseError e 0 s)
  /-- SETST with a failed key: the writes of the other keys stay (R133, R222). -/
  | partly {p : Params} {failed : Byte} (hop : i.opcode = .setst) (hcheck : failingCheck i s = some .malformed)
      (hexec : ∀ flags, exec i { s with sticky := flags } =
        .next (raiseError .malformed failed { s with param := p, sticky := flags })) :
      Ends i s (raiseError .malformed failed { s with param := p })
  /-- No check failed: only STAT's data words depend on the flags (R223). -/
  | succeeded {u : State} {data : List Word} (hcheck : failingCheck i s = none)
      (hexec : ∀ flags, ∃ data', exec i { s with sticky := flags } = .next (respondOk data' { u with sticky := flags }) ∧
        (i ≠ .stat → data' = data)) :
      Ends i s (respondOk data u)

/-- A success whose data words do not depend on the flags. -/
theorem Ends.of_success {i : Instr} {s u : State} {data : List Word} (hcheck : failingCheck i s = none)
    (hexec : ∀ flags, exec i { s with sticky := flags } = .next (respondOk data { u with sticky := flags })) :
    Ends i s (respondOk data u) :=
  .succeeded hcheck fun flags => ⟨data, hexec flags, fun _ => rfl⟩

/-- An id is unknown, or names a parameter. -/
theorem unknown_or_num (id : Byte) : 4 < id.toNat ∨ ∃ i : ParamId, id.toNat = i.num := by
  cases hid : paramOfId id with
  | none => exact .inl (paramOfId_eq_none.mp hid)
  | some i => exact .inr ⟨i, paramOfId_eq_some.mp hid⟩

section
variable {s t : State}

theorem execSetp_ends {id : Byte} {v : Word} (h : execSetp id v s = .next t) : Ends (.setp id v) s t := by
  obtain hid | ⟨i, hid⟩ := unknown_or_num id
  · cases (execSetp_unknown hid v).symm.trans h
    exact .refused (by rw [failingCheck_setp, if_pos hid]) fun _ => execSetp_unknown hid v
  · have hknown : ¬ 4 < id.toNat := by have := i.num_lt; omega
    cases hv : isNaN v with
    | true =>
      cases (execSetp_nan (not_lt.mp hknown) hv).symm.trans h
      exact .refused (by rw [failingCheck_setp, if_neg hknown, if_pos hv]) fun _ => execSetp_nan (not_lt.mp hknown) hv
    | false =>
      cases (execSetp_stores hid hv).symm.trans h
      exact .of_success (by simp [failingCheck_setp, hknown, hv]) fun _ => execSetp_stores hid hv

theorem execGetp_ends {id : Byte} (h : execGetp id s = .next t) : Ends (.getp id) s t := by
  obtain hid | ⟨i, hid⟩ := unknown_or_num id
  · cases (execGetp_unknown hid).symm.trans h
    exact .refused (by rw [failingCheck_getp, if_pos hid]) fun _ => execGetp_unknown hid
  · have hknown : ¬ 4 < id.toNat := by have := i.num_lt; omega
    cases (execGetp_reads hid).symm.trans h
    exact .of_success (by rw [failingCheck_getp, if_neg hknown]) fun _ => execGetp_reads hid

theorem execSetst_ends {mask : Byte} {v0 v1 v2 v3 v4 : Word} (h : execSetst mask v0 v1 v2 v3 v4 s = .next t) :
    Ends (.setst mask v0 v1 v2 v3 v4) s t := by
  rw [execSetst_eq_finish] at h
  by_cases hfailed : (setstResult mask ⟨v0, v1, v2, v3, v4⟩ s.param).2 = 0
  · cases (finishSetst_ok s hfailed).symm.trans h
    exact .of_success ((failingCheck_setst ..).trans (if_neg (not_not.mpr hfailed))) fun _ => finishSetst_ok _ hfailed
  · cases (finishSetst_failed s hfailed).symm.trans h
    exact .partly rfl ((failingCheck_setst ..).trans (if_pos hfailed)) fun _ => finishSetst_failed _ hfailed

theorem execPrepare_ends {sr mb : Word} (h : execPrepare sr mb s = .next t) : Ends (.prepare sr mb) s t := by
  by_cases hclosed : s.remain = 0
  · by_cases hbad : badConfig Config.cfg sr mb = true ∨ exceedsDepth sr = true
    · cases (execPrepare_refuses hclosed hbad).symm.trans h
      exact .refused (by rw [failingCheck_prepare, if_neg (not_not.mpr hclosed), if_pos hbad])
        fun _ => execPrepare_refuses hclosed hbad
    · obtain ⟨hargs, hfits⟩ := not_or.mp hbad
      rw [Bool.not_eq_true] at hargs hfits
      obtain ⟨cap, hcap, hdepth⟩ := (exceedsDepth_eq_false_iff sr).mp hfits
      cases (execPrepare_succeeds hclosed hargs hcap hdepth).symm.trans h
      exact .of_success (by rw [failingCheck_prepare, if_neg (not_not.mpr hclosed), if_neg hbad])
        fun _ => execPrepare_succeeds hclosed hargs hcap hdepth
  · cases (execPrepare_busy hclosed).symm.trans h
    exact .refused (by rw [failingCheck_prepare, if_pos hclosed]) fun _ => execPrepare_busy hclosed

theorem execReset_ends (h : execReset s = .next t) : Ends .reset s t := by
  by_cases hclosed : s.remain = 0
  · cases (execReset_clears hclosed).symm.trans h
    exact .of_success (by rw [failingCheck_reset, if_neg (not_not.mpr hclosed)]) fun _ => execReset_clears hclosed
  · cases (execReset_busy hclosed).symm.trans h
    exact .refused (by rw [failingCheck_reset, if_pos hclosed]) fun _ => execReset_busy hclosed

theorem execBegin_ends {nch : Byte} {ns : Word} (h : execBegin nch ns s = .next t) : Ends (.begin nch ns) s t := by
  obtain ⟨heng, e⟩ | ⟨heng, hopen, e⟩ | ⟨heng, hclosed, hbad, e⟩ | ⟨heng, hclosed, hgood, e⟩ := execBegin_next nch ns s <;>
    cases e.symm.trans h
  · exact .refused (by rw [failingCheck_begin, if_pos heng]) fun _ => execBegin_uninit heng
  · exact .refused (by rw [failingCheck_begin, if_neg heng, if_pos hopen]) fun _ => execBegin_busy heng hopen
  · exact .refused (by simp [failingCheck_begin, heng, hclosed, hbad]) fun _ => execBegin_refuses heng hclosed hbad
  · exact .of_success (by simp [failingCheck_begin, heng, hclosed, hgood]) fun _ => execBegin_opens heng hclosed hgood

theorem execFrame_ends {xs : List Word} (h : execFrame xs s = .next t) : Ends (.frame xs) s t := by
  obtain ⟨hclosed, rfl⟩ | ⟨hopen, hlen, rfl⟩ | ⟨hopen, hlen, phase, f, ys, lines, hshared, hlines, rfl⟩ :=
    execFrame_next h
  · exact .refused (by rw [failingCheck_frame, if_pos hclosed]) fun _ => execFrame_closed xs hclosed
  · exact .refused (by rw [failingCheck_frame, if_neg hopen, if_pos hlen]) fun _ => execFrame_badCount hopen hlen
  · exact .of_success (by rw [failingCheck_frame, if_neg hopen, if_neg (not_not.mpr hlen)])
      fun _ => execFrame_steps hopen hlen hshared hlines

theorem exec_ends {i : Instr} (h : exec i s = .next t) : Ends i s t := by
  cases i with
  | nop => cases h; exact .of_success rfl fun _ => rfl
  | stat => cases h; exact .succeeded rfl fun _ => ⟨_, rfl, absurd rfl⟩
  | getst => cases h; exact .of_success rfl fun _ => rfl
  | setp id v => exact execSetp_ends h
  | getp id => exact execGetp_ends h
  | setst mask v0 v1 v2 v3 v4 => exact execSetst_ends h
  | prepare sr mb => exact execPrepare_ends h
  | reset => exact execReset_ends h
  | begin nch ns => exact execBegin_ends h
  | frame xs => exact execFrame_ends h

end

/-! ### The error's answer and the reported code (R222, R224) -/

theorem responseCode_raiseError (e : ErrCode) (info : Byte) (s : State) :
    responseCode (raiseError e info s).response = some (BitVec.ofNat 8 e.num) :=
  congrArg some (extract_low_field info _)

/-- The one word of an error, as a number (R222). -/
theorem errorResponse_eq_ofNat (e : ErrCode) (info : Byte) :
    errorResponse e info = [BitVec.ofNat 32 (e.num + info.toNat * 2 ^ 8)] := by
  have hnum : (BitVec.ofNat 8 e.num).toNat = e.num := by cases e <;> rfl
  rw [errorResponse, statusWord, append_bytes_eq_ofNat, hnum]

/-- Settles O46: of the ways a packet's execution ends, the errors are `raiseError` on the state before the command, or
SETST's on that state with its writes. -/
theorem errorsChangeOnlyTheirFlag : Obligations.ErrorsChangeOnlyTheirFlag := by
  intro p packet s t hrun hfailed
  obtain ⟨i, hdecode, hexec⟩ | ⟨-, -, rfl⟩ := runPacket_next hrun
  · cases exec_ends hexec with
    | refused => exact ⟨_, 0, errorResponse_eq_ofNat .., rfl, absurd rfl⟩
    | partly hop => exact ⟨.malformed, _, errorResponse_eq_ofNat .., rfl, fun _ => ⟨rfl, i, hdecode, hop⟩⟩
    | succeeded => exact absurd (succeeded_respondOk ..) hfailed
  · exact ⟨.illegal, 0, errorResponse_eq_ofNat .., rfl, absurd rfl⟩

/-- Settles O47: the check named by each way of ending is the one whose code is answered. -/
theorem firstFailingCheckDecides : Obligations.FirstFailingCheckDecides := by
  intro p packet s t hrun
  obtain ⟨i, hdecode, hexec⟩ | ⟨e, hdecode, rfl⟩ := runPacket_next hrun
  · rw [firstError_of_decode_ok hdecode]
    cases exec_ends hexec with
    | refused hcheck => rw [hcheck]; exact responseCode_raiseError ..
    | partly _ hcheck => rw [hcheck]; exact responseCode_raiseError ..
    | succeeded hcheck => rw [hcheck]; exact succeeded_respondOk ..
  · rw [firstError_of_decode_error hdecode]
    exact responseCode_raiseError ..

/-! ### The sticky flags (R223) -/

theorem runPacket_keeps_sticky {p : Port} {packet : Packet} {s t : State} (hrun : runPacket exec p packet s = .next t) :
    s.sticky &&& t.sticky = s.sticky := by
  obtain ⟨i, -, hexec⟩ | ⟨-, -, rfl⟩ := runPacket_next hrun
  · obtain ⟨u, hw, ha⟩ := exec_next hexec
    exact hw.sticky_eq ▸ ha.keeps_sticky
  · exact and_setSticky s.sticky .illegal

/-- Settles O48: a command with other flags ends in the same way. -/
theorem stickyFlagsAreARecord : Obligations.StickyFlagsAreARecord := by
  refine ⟨fun p packet s t => runPacket_keeps_sticky, fun s inProgress hreset => ⟨_, step_of_asserted hreset, rfl⟩,
    fun i s t flags h => ?_⟩
  cases exec_ends h with
  | refused _ hexec => exact ⟨_, hexec flags, rfl, fun _ => rfl⟩
  | partly _ _ hexec => exact ⟨_, hexec flags, rfl, fun _ => rfl⟩
  | succeeded _ hexec =>
    obtain ⟨data', hflags, hdata⟩ := hexec flags
    exact ⟨_, hflags, rfl, fun hstat => congrArg (okWord :: ·) (hdata hstat)⟩

/-! ### The idle CORE (R238) -/

/-- Settles O54: there is no command to take. -/
theorem idleCoreKeepsItsState : Obligations.IdleCoreKeepsItsState :=
  fun _ hreleased hcp hap => step_of_idle hreleased (takeCommand_eq_none.mpr ⟨hcp, hap⟩)

end Sys2Proof.Machine
end

section
/-! PROOFS. `70_reset_and_hazards.md` R250: hardware reset and the command in progress. What a reset leaves of a port's
queue is said once, for either port; the rest of the next state is `hardwareReset`'s own fields. -/

namespace Sys2Proof.Machine

/-! ### What a reset leaves of a port's queue -/

/-- A port with no command in progress keeps its queue. -/
theorem discardInProgress_of_ne {p : Port} {inProgress : Option Port} (h : inProgress ≠ some p)
    (queue : List Packet) : discardInProgress p inProgress queue = queue :=
  if_neg h

/-- The command in progress is its port's oldest packet. -/
@[simp] theorem discardInProgress_same (p : Port) (queue : List Packet) :
    discardInProgress p (some p) queue = queue.tail :=
  if_pos rfl

@[simp] theorem discardInProgress_nil (p : Port) (inProgress : Option Port) :
    discardInProgress p inProgress [] = [] :=
  ite_self []

/-! ### The command in progress (R250) -/

/-- Settles O56: a reset changes a port's queue only through `discardInProgress`, which drops the oldest packet of the
port of the command in progress and keeps the queue of every other port. -/
theorem resetDiscardsCommandInProgress : Obligations.ResetDiscardsCommandInProgress := by
  refine ⟨fun s inProgress hreset => ?_, fun s packet rest => ⟨fun hreset hqueue => ?_, fun hreset hqueue => ?_⟩⟩
  · refine ⟨_, step_of_asserted hreset, rfl, rfl, rfl, rfl, ?others_cp, ?others_ap, ?empty_cp, ?empty_ap⟩
    case others_cp => exact fun hcp => discardInProgress_of_ne hcp s.cpIn
    case others_ap => exact fun hap => discardInProgress_of_ne hap s.apIn
    case empty_cp => intro _ hempty; simp [hempty]
    case empty_ap => intro _ hempty; simp [hempty]
  · have hothers : discardInProgress .ap (some .cp) s.apIn = s.apIn := discardInProgress_of_ne (by decide) s.apIn
    exact ⟨_, step_of_asserted hreset, rfl, by simp [hqueue], hothers, rfl, rfl⟩
  · have hothers : discardInProgress .cp (some .ap) s.cpIn = s.cpIn := discardInProgress_of_ne (by decide) s.cpIn
    exact ⟨_, step_of_asserted hreset, rfl, by simp [hqueue], hothers, rfl, rfl⟩

end Sys2Proof.Machine
end
